-- ==== Sys2Proof/Word.lean ====
section
/-! DEFINITION. The word types of the block: widths of R7 (00_scope.md) and R54 (10_state.md). -/

namespace Sys2Proof

/-- A byte of byte memory or of the host window. -/
abbrev Byte := BitVec 8

/-- A 32-bit word of the host bus (R7: BUS_BITS). -/
abbrev BusWord := BitVec 32

/-- A 256-bit word: an EMEM word, a scalar register, a point coordinate (R7: WORD_BITS). -/
abbrev Word := BitVec 256

/-- The 64-bit command word (R90). -/
abbrev CmdWord := BitVec 64

end Sys2Proof
end

