-- ==== Sys2Proof/Syntax.lean ====
section
/-! DEFINITION. The twelve commands (R93, R94 of 30_encoding.md) and the pseudo-instructions (R99). -/

namespace Sys2Proof

/-- A raw `e` field: any value names an EMEM word (R92). -/
abbrev EField := BitVec 8

/-- A raw `p` field: 0..7 name a point register, 8..255 are legal encodings that raise E_OPERAND (R92). -/
abbrev PField := BitVec 8

/-- A raw `s` field: 0..7 name a scalar register, 8..255 are legal encodings that raise E_OPERAND (R92). -/
abbrev SField := BitVec 8

/-- A raw `#` field: a count of 13 bits (R90, R92). -/
abbrev CountField := BitVec 13

/-- One constructor for each row of the opcode table; the operands are named and ordered as the
assembler writes them (R98). -/
inductive Instr where
  /-- `NOP` (R265). -/
  | nop
  /-- `PENC eD, pS1` (R150): the x-coordinate of a point register goes to element memory. -/
  | penc (d : EField) (s1 : PField)
  /-- `PDEC pD, eS1` (R151): recover and validate a point from an x-coordinate. -/
  | pdec (d : PField) (s1 : EField)
  /-- `GENSK sD` (R170): draw a scalar from the RNG port. -/
  | gensk (d : SField)
  /-- `PUBKEY pD, sS1` (R171): the public key of a private key. -/
  | pubkey (d : PField) (s1 : SField)
  /-- `INIT eD, eD2, pS1, sS2` (R172): sender side of the exchange. -/
  | init (d d2 : EField) (s1 : PField) (s2 : SField)
  /-- `COMPL eD, sS1, eS2` (R173): recipient side of the exchange. -/
  | compl (d : EField) (s1 : SField) (s2 : EField)
  /-- `COMMIT eD, eS1` (R205): commitment to a symmetric key. -/
  | commit (d s1 : EField)
  /-- `ENC eD, eS1, eS2, #N` (R206): stream encryption. -/
  | enc (d s1 s2 : EField) (n : CountField)
  /-- `DEC eD, eS1, eS2, #N` (R207): stream decryption. -/
  | dec (d s1 s2 : EField) (n : CountField)
  /-- `PACK eD, #N` (R236): bytes to field elements. -/
  | pack (d : EField) (n : CountField)
  /-- `UNPACK eS1, #N` (R237): field elements to bytes. -/
  | unpack (s1 : EField) (n : CountField)
deriving DecidableEq, Repr

/-- The pseudo-instructions of R99. -/
inductive Pseudo where
  /-- `KEYGEN pD, sS`. -/
  | keygen (d : PField) (s : SField)
  /-- `EXCHANGE eR, eK, pP, sT`. -/
  | exchange (r k : EField) (p : PField) (t : SField)
  /-- `PKEXPORT eD, pS`. -/
  | pkexport (d : EField) (s : PField)
deriving DecidableEq, Repr

/-- Why a command word spells no command (R95, R96); the engine reports each as E_ILLEGAL_COMMAND. -/
inductive DecodeError where
  /-- OP in 0x0C..0xFF. -/
  | reservedOpcode
  /-- RSV (bits 63:53) is not 0. -/
  | reservedBits
  /-- A field the opcode does not use is not 0. -/
  | unusedField
deriving DecidableEq, Repr

end Sys2Proof
end

