-- ==== Sys2Proof/WellFormed.lean ====
section
/-! DEFINITION. Which commands name only things that exist: the assembler's operand ranges (R98) and the
structural conditions whose failure raises E_OPERAND (R282). -/

namespace Sys2Proof

/-- A `p` or `s` field that names a register (R92). -/
def regField (f : BitVec 8) : Bool := decide (f.toNat < 8)

/-- A range of `n` EMEM words from word `base` on that does not pass E[255] (R69, R282). -/
def rangeFits (base : EField) (n : CountField) : Bool := decide (base.toNat + n.toNat ≤ 256)

/-- What the assembler accepts: register indices 0..7 and counts in the opcode's legal range (R98, R93). -/
def Instr.assemblable : Instr → Bool
  | .nop => true
  | .penc _ s1 => regField s1
  | .pdec d _ => regField d
  | .gensk d => regField d
  | .pubkey d s1 => regField d && regField s1
  | .init _ _ s1 s2 => regField s1 && regField s2
  | .compl _ s1 _ => regField s1
  | .commit _ _ => true
  | .enc _ _ _ n => decide (n.toNat ≤ 256)
  | .dec _ _ _ n => decide (n.toNat ≤ 256)
  | .pack _ n => decide (n.toNat ≤ 4096)
  | .unpack _ n => decide (n.toNat ≤ 256)

/-- The conditions between fields that R282 adds: sequence ranges inside EMEM, and INIT with two
different destinations. -/
def Instr.fieldsAgree : Instr → Bool
  | .nop => true
  | .penc _ _ => true
  | .pdec _ _ => true
  | .gensk _ => true
  | .pubkey _ _ => true
  | .init d d2 _ _ => decide (d ≠ d2)
  | .compl _ _ _ => true
  | .commit _ _ => true
  | .enc d s1 _ n => rangeFits s1 n && rangeFits d n
  | .dec d s1 _ n => rangeFits s1 n && rangeFits d n
  | .pack _ _ => true
  | .unpack s1 n => rangeFits s1 n

/-- A command none of whose operands is refused with E_OPERAND (R282). -/
def Instr.wellFormed (i : Instr) : Bool := i.assemblable && i.fieldsAgree

end Sys2Proof
end

