-- ==== Sys2Proof/Decode.lean ====
section
/-! DEFINITION. The command word CMD64 (R90), its decoder (R95), its encoder (R98) and the match/mask table
(R95, opcode_table.json). -/

namespace Sys2Proof

/-- The seven fields of a command word (R90), read as unsigned integers of their widths (R91). -/
structure Fields where
  op  : BitVec 8
  d   : BitVec 8
  s1  : BitVec 8
  s2  : BitVec 8
  d2  : BitVec 8
  n   : BitVec 13
  rsv : BitVec 11
deriving DecidableEq, Repr

/-- Split a command word into its fields (R90). -/
def fieldsOf (w : CmdWord) : Fields where
  op  := w.extractLsb' 0 8
  d   := w.extractLsb' 8 8
  s1  := w.extractLsb' 16 8
  s2  := w.extractLsb' 24 8
  d2  := w.extractLsb' 32 8
  n   := w.extractLsb' 40 13
  rsv := w.extractLsb' 53 11

/-- Assemble a command word from its fields: `OP | D<<8 | S1<<16 | S2<<24 | D2<<32 | N<<40` with RSV
above (R98). -/
def wordOf (f : Fields) : CmdWord :=
  f.rsv ++ f.n ++ f.d2 ++ f.s2 ++ f.s1 ++ f.d ++ f.op

/-- Which of the operand fields an opcode uses (R93). -/
structure FieldUse where
  d  : Bool
  s1 : Bool
  s2 : Bool
  d2 : Bool
  n  : Bool
deriving DecidableEq, Repr

/-- The row of R93 for opcodes 0x00..0x0B. -/
def fieldUse (op : Nat) : FieldUse :=
  match op with
  | 0x00 => ⟨false, false, false, false, false⟩
  | 0x01 => ⟨true, true, false, false, false⟩
  | 0x02 => ⟨true, true, false, false, false⟩
  | 0x03 => ⟨true, false, false, false, false⟩
  | 0x04 => ⟨true, true, false, false, false⟩
  | 0x05 => ⟨true, true, true, true, false⟩
  | 0x06 => ⟨true, true, true, false, false⟩
  | 0x07 => ⟨true, true, false, false, false⟩
  | 0x08 => ⟨true, true, true, false, true⟩
  | 0x09 => ⟨true, true, true, false, true⟩
  | 0x0A => ⟨true, false, false, false, true⟩
  | _    => ⟨false, true, false, false, true⟩

/-- Some field that the opcode does not use is not 0 (R95). -/
def Fields.strayBits (f : Fields) : Bool :=
  let u := fieldUse f.op.toNat
  (!u.d && f.d != 0) || (!u.s1 && f.s1 != 0) || (!u.s2 && f.s2 != 0) ||
    (!u.d2 && f.d2 != 0) || (!u.n && f.n != 0)

/-- The command of an opcode below 0x0C with its used fields (R93, R94); the operands stand in the
assembler's order. -/
def instrOf (f : Fields) : Instr :=
  match f.op.toNat with
  | 0x00 => .nop
  | 0x01 => .penc f.d f.s1
  | 0x02 => .pdec f.d f.s1
  | 0x03 => .gensk f.d
  | 0x04 => .pubkey f.d f.s1
  | 0x05 => .init f.d f.d2 f.s1 f.s2
  | 0x06 => .compl f.d f.s1 f.s2
  | 0x07 => .commit f.d f.s1
  | 0x08 => .enc f.d f.s1 f.s2 f.n
  | 0x09 => .dec f.d f.s1 f.s2 f.n
  | 0x0A => .pack f.d f.n
  | _    => .unpack f.s1 f.n

/-- Decode a command word, total on all 64-bit words: the three refusals of R95 in its order, then the
command. -/
def decode (w : CmdWord) : Except DecodeError Instr :=
  let f := fieldsOf w
  if 0x0C ≤ f.op.toNat then .error .reservedOpcode
  else if f.rsv ≠ 0 then .error .reservedBits
  else if f.strayBits then .error .unusedField
  else .ok (instrOf f)

/-- The OP value of a command (R94). -/
def Instr.opcode : Instr → BitVec 8
  | .nop => 0x00
  | .penc _ _ => 0x01
  | .pdec _ _ => 0x02
  | .gensk _ => 0x03
  | .pubkey _ _ => 0x04
  | .init _ _ _ _ => 0x05
  | .compl _ _ _ => 0x06
  | .commit _ _ => 0x07
  | .enc _ _ _ _ => 0x08
  | .dec _ _ _ _ => 0x09
  | .pack _ _ => 0x0A
  | .unpack _ _ => 0x0B

/-- The fields the assembler sets for a command, every other field 0 (R98). -/
def Instr.fields : Instr → Fields
  | .nop => ⟨0x00, 0, 0, 0, 0, 0, 0⟩
  | .penc d s1 => ⟨0x01, d, s1, 0, 0, 0, 0⟩
  | .pdec d s1 => ⟨0x02, d, s1, 0, 0, 0, 0⟩
  | .gensk d => ⟨0x03, d, 0, 0, 0, 0, 0⟩
  | .pubkey d s1 => ⟨0x04, d, s1, 0, 0, 0, 0⟩
  | .init d d2 s1 s2 => ⟨0x05, d, s1, s2, d2, 0, 0⟩
  | .compl d s1 s2 => ⟨0x06, d, s1, s2, 0, 0, 0⟩
  | .commit d s1 => ⟨0x07, d, s1, 0, 0, 0, 0⟩
  | .enc d s1 s2 n => ⟨0x08, d, s1, s2, 0, n, 0⟩
  | .dec d s1 s2 n => ⟨0x09, d, s1, s2, 0, n, 0⟩
  | .pack d n => ⟨0x0A, d, 0, 0, 0, n, 0⟩
  | .unpack s1 n => ⟨0x0B, 0, s1, 0, 0, n, 0⟩

/-- The command word of a command (R98). -/
def encode (i : Instr) : CmdWord := wordOf i.fields

/-- CMD_LO and CMD_HI of a command (R90): what the host writes, first word first. -/
def encodeHalves (i : Instr) : BusWord × BusWord :=
  ((encode i).extractLsb' 0 32, (encode i).extractLsb' 32 32)

/-- The commands a pseudo-instruction stands for, issued in order (R99). -/
def Pseudo.expand : Pseudo → List Instr
  | .keygen d s => [.gensk s, .pubkey d s]
  | .exchange r k p t => [.gensk t, .init r k p t]
  | .pkexport d s => [.penc d s]

/-- A row of the opcode table: a word `w` spells the row's command exactly when `w AND mask = match` (R95). -/
structure OpcodeRow where
  pattern : CmdWord
  mask    : CmdWord
deriving DecidableEq, Repr

/-- The match/mask values of R95, in opcode order. -/
def opcodeRows : List OpcodeRow :=
  [⟨0x0000000000000000, 0xFFFFFFFFFFFFFFFF⟩,
   ⟨0x0000000000000001, 0xFFFFFFFFFF0000FF⟩,
   ⟨0x0000000000000002, 0xFFFFFFFFFF0000FF⟩,
   ⟨0x0000000000000003, 0xFFFFFFFFFFFF00FF⟩,
   ⟨0x0000000000000004, 0xFFFFFFFFFF0000FF⟩,
   ⟨0x0000000000000005, 0xFFFFFF00000000FF⟩,
   ⟨0x0000000000000006, 0xFFFFFFFF000000FF⟩,
   ⟨0x0000000000000007, 0xFFFFFFFFFF0000FF⟩,
   ⟨0x0000000000000008, 0xFFE000FF000000FF⟩,
   ⟨0x0000000000000009, 0xFFE000FF000000FF⟩,
   ⟨0x000000000000000A, 0xFFE000FFFFFF00FF⟩,
   ⟨0x000000000000000B, 0xFFE000FFFF00FFFF⟩]

/-- The word matches the row. -/
def OpcodeRow.spells (r : OpcodeRow) (w : CmdWord) : Bool := (w &&& r.mask) == r.pattern

/-- The instruction the decoder reads from the `nbits` bits `w` of a table row: CMD_LO is bits 31:0, CMD_HI
bits 63:32 (R90), and every bit above `nbits` is 0. -/
def decodeTableWord (nbits w : Nat) : Option Instr :=
  match decode (BitVec.ofNat 64 (w % 2 ^ nbits)) with
  | .ok i => some i
  | .error _ => none

end Sys2Proof
end

