-- ==== Sys2Proof/Machine/Field.lean ====
section
/-! DEFINITION. The base field F_p on canonical integers (R11 of 00_scope.md, R120 of 40_field_curve.md). Every
operation takes the modulus `p` as its first argument. -/

namespace Sys2Proof.Machine

/-- `a +F b = (a + b) mod p` (R11). -/
def fadd (p a b : Nat) : Nat := (a + b) % p

/-- `-a = (p - a mod p) mod p` (R123). -/
def fneg (p a : Nat) : Nat := (p - a % p) % p

/-- `a -F b = (a - b) mod p`, never negative (R11, R120). -/
def fsub (p a b : Nat) : Nat := (a + (p - b % p)) % p

/-- `a *F b = (a * b) mod p` (R11). -/
def fmul (p a b : Nat) : Nat := (a * b) % p

/-- `inv(a)`: the element with `a *F inv(a) = 1` for `a` not 0 (R11). It is written as the power
`a ^ (p - 2)`, which Fermat's theorem makes that element (entry 15; the law `fmul_finv` says so). -/
def finv (p a : Nat) : Nat := a ^ (p - 2) % p

/-- A square root of `v` if `v` is a square (R120); which of the two it is cannot be observed (R130). -/
def fsqrt (p v : Nat) : Option Nat := (List.range p).find? fun r => fmul p r r == v

/-- `bitlength(v)`: the least `k` with `v < 2^k` (R10). -/
def bitLength (v : Nat) : Nat := if v = 0 then 0 else Nat.log2 v + 1

/-- `ceil(a / b)` for `b` not 0 (R10). -/
def ceilDiv (a b : Nat) : Nat := (a + b - 1) / b

/-- `int_le(b_0, ..., b_{L-1}) = sum of b_i * 2^(8i)` (R10). -/
def intLE : List Byte → Nat
  | [] => 0
  | b :: bs => b.toNat + 256 * intLE bs

end Sys2Proof.Machine
end

