-- ==== Sys2Proof/Machine/Curve.lean ====
section
/-! DEFINITION. The twisted Edwards curve: its equation and group law, scalar multiplication, y-recovery and the
subgroup test (R121-R134 of 40_field_curve.md, R152 of 41_point_codec.md). -/

namespace Sys2Proof.Machine

/-- The numbers that fix a curve and its subgroup (R6): the modulus, the two coefficients and the prime
order of the subgroup. -/
structure Curve where
  /-- FIELD_P. -/
  p : Nat
  /-- CURVE_A. -/
  a : Nat
  /-- CURVE_D. -/
  d : Nat
  /-- SUBGROUP_N. -/
  n : Nat
deriving DecidableEq, Repr

/-- An affine point, its coordinates canonical integers (R11, R122). -/
structure Aff where
  x : Nat
  y : Nat
deriving DecidableEq, Repr

/-- The identity `O = (0, 1)` (R123). -/
def identity : Aff := ⟨0, 1⟩

/-- The point `T2 = (0, p - 1)` of order two (R123). -/
def pointT2 (c : Curve) : Aff := ⟨0, c.p - 1⟩

/-- Negation `-(x, y) = (p - x mod p, y)` (R123). -/
def negPt (c : Curve) (P : Aff) : Aff := ⟨fneg c.p P.x, P.y⟩

/-- `OnCurve(x, y)`: `a x^2 + y^2 = 1 + d x^2 y^2` in F_p (R122). -/
def onCurve (c : Curve) (P : Aff) : Bool :=
  fadd c.p (fmul c.p (fmul c.p c.a P.x) P.x) (fmul c.p P.y P.y) ==
    fadd c.p 1 (fmul c.p (fmul c.p (fmul c.p (fmul c.p c.d P.x) P.x) P.y) P.y)

/-- The number of affine points of the curve (R6: the curve has h*N points). -/
def pointCount (c : Curve) : Nat :=
  ((List.range c.p).map fun x => (List.range c.p).countP fun y => onCurve c ⟨x, y⟩).sum

/-- The addition law, for sums and doublings alike (R124). -/
def addPt (c : Curve) (P Q : Aff) : Aff :=
  let t := fmul c.p (fmul c.p (fmul c.p (fmul c.p c.d P.x) Q.x) P.y) Q.y
  ⟨fmul c.p (fadd c.p (fmul c.p P.x Q.y) (fmul c.p P.y Q.x)) (finv c.p (fadd c.p 1 t)),
   fmul c.p (fsub c.p (fmul c.p P.y Q.y) (fmul c.p (fmul c.p c.a P.x) Q.x)) (finv c.p (fsub c.p 1 t))⟩

/-- Scalar multiplication: `[0]P = O`, `[k+1]P = [k]P + P` (R127). -/
def smul (c : Curve) : Nat → Aff → Aff
  | 0, _ => identity
  | k + 1, P => addPt c (smul c k P) P

/-- `InSubgroup(P)`: `[N]P = O` (R131). A point of the curve is in G exactly when it passes this test; where N
divides h these may be more than N points (DESIGN CHOICE, entry 20). -/
def inSubgroup (c : Curve) (P : Aff) : Bool := decide (smul c c.n P = identity)

/-- `Candidates(x)`: the y-coordinates to try, the smaller first (convention A, then B: R132); the empty
list is `NoPoint` (R130). -/
def candidates (c : Curve) (x : Nat) : List Nat :=
  let num := fsub c.p 1 (fmul c.p (fmul c.p c.a x) x)
  let den := fsub c.p 1 (fmul c.p (fmul c.p c.d x) x)
  if den = 0 then []
  else
    let y2 := fmul c.p num (finv c.p den)
    match fsqrt c.p y2 with
    | none => []
    | some r => if y2 = 0 then [0] else [min r (c.p - r), max r (c.p - r)]

/-- `DecodeX(x)`: the first candidate point in the subgroup, or `Fail` (R151, R152). -/
def decodeX (c : Curve) (x : Nat) : Option Aff :=
  ((candidates c x).find? fun y => inSubgroup c ⟨x, y⟩).map fun y => ⟨x, y⟩

end Sys2Proof.Machine
end

