-- ==== Sys2Proof/Config.lean ====
section
/-! DEFINITION. The configuration of one block: the arithmetic parameters of R6 and R7 (00_scope.md), which the model
takes as arguments, and the opaque constants that stand for the block's own choice of them. -/

namespace Sys2Proof.Config

open Sys2Proof.Machine

/-- The curve parameters of R6: FIELD_P, CURVE_A, CURVE_D, SUBGROUP_N, COFACTOR_H and GEN. -/
structure Scheme where
  curve : Curve
  h     : Nat
  gen   : Aff
deriving DecidableEq, Repr

/-- The constraints R6 puts on the curve parameters. DESIGN CHOICE (entry 20): whether N may divide h is left open,
since R126 says that G is unique where N does not divide h, and R6 does not exclude the other case; no
constraint is added here, so schemes with N dividing h are admitted too. -/
structure Scheme.Valid (s : Scheme) : Prop where
  p_prime       : s.curve.p.Prime
  p_odd         : s.curve.p % 2 = 1
  p_lt          : s.curve.p < 2 ^ 256
  a_lt          : s.curve.a < s.curve.p
  a_ne          : s.curve.a ≠ 0
  a_square      : ∃ r < s.curve.p, fmul s.curve.p r r = s.curve.a
  d_lt          : s.curve.d < s.curve.p
  d_nonsquare   : ∀ r < s.curve.p, fmul s.curve.p r r ≠ s.curve.d
  n_prime       : s.curve.n.Prime
  n_odd         : s.curve.n % 2 = 1
  n_lt          : s.curve.n < 2 ^ 256
  h_pos         : 1 ≤ s.h
  count         : pointCount s.curve = s.h * s.curve.n
  gen_x_lt      : s.gen.x < s.curve.p
  gen_y_lt      : s.gen.y < s.curve.p
  gen_onCurve   : onCurve s.curve s.gen = true
  gen_subgroup  : inSubgroup s.curve s.gen = true
  gen_ne        : s.gen ≠ identity

/-- A small scheme that meets the constraints of R6; it shows that they can be met, and nothing else rests
on it (entry 1). -/
def tinyScheme : Scheme := ⟨⟨7, 1, 5, 3⟩, 4, ⟨2, 4⟩⟩

theorem tinyScheme_valid : tinyScheme.Valid where
  p_prime := by decide
  p_odd := by decide
  p_lt := by decide
  a_lt := by decide
  a_ne := by decide
  a_square := by decide
  d_lt := by decide
  d_nonsquare := by decide
  n_prime := by decide
  n_odd := by decide
  n_lt := by decide
  h_pos := by decide
  count := by decide
  gen_x_lt := by decide
  gen_y_lt := by decide
  gen_onCurve := by decide
  gen_subgroup := by decide
  gen_ne := by decide

/-- A scheme together with the proof of its constraints. -/
abbrev ValidScheme := { s : Scheme // s.Valid }

/-- The block's scheme: some scheme that meets the constraints of R6, nothing else known of it (free value,
entry 1). -/
opaque anyScheme : [Inhabited ValidScheme] → ValidScheme

/-- The scheme of this block, fixed for its life (R20, R323). -/
def scheme : ValidScheme := @anyScheme ⟨⟨tinyScheme, tinyScheme_valid⟩⟩

/-- Before reduction modulo p, element `i` of the `n` elements that the sponge returns after absorbing `xs`:
nothing is known of it (R202, R203; free value, entry 1). -/
opaque spongeWord : (xs : List Nat) → (n i : Nat) → Nat

/-- What byte memory or element memory holds at a window offset after the given power-on, until it is
written (R53, R325; free value, entry 2). -/
opaque powerOnByte : (powerUp offset : Nat) → Byte

/-- BLOCK_BASE, the platform address of offset 0 (R7, R72; free value, entry 1). -/
opaque blockBase : Nat

/-- Everything a command or a transaction takes from the configuration. -/
structure Params where
  scheme      : Scheme
  spongeWord  : List Nat → Nat → Nat → Nat
  powerOnByte : Nat → Nat → Byte
  blockBase   : Nat

/-- The configuration of this block. -/
def block : Params where
  scheme      := scheme.val
  spongeWord  := spongeWord
  powerOnByte := powerOnByte
  blockBase   := blockBase

/-- FIELD_P of a configuration. -/
abbrev Params.p (c : Params) : Nat := c.scheme.curve.p

/-- SUBGROUP_N of a configuration. -/
abbrev Params.n (c : Params) : Nat := c.scheme.curve.n

/-- The curve of a configuration. -/
abbrev Params.curve (c : Params) : Curve := c.scheme.curve

/-- GEN of a configuration. -/
abbrev Params.gen (c : Params) : Aff := c.scheme.gen

end Sys2Proof.Config
end

