-- ==== Sys2Proof/Machine/Constants.lean ====
section
/-! DEFINITION. What is computed from the configuration: MODULUS_BITS and CAPACITY (R6 of 00_scope.md), the domain
tags (R200, R201 of 43_sponge.md) and the function SPONGE (R202). -/

namespace Sys2Proof.Machine

open Sys2Proof.Config

/-- MODULUS_BITS: the bit length of p (R6). -/
def modulusBits (c : Params) : Nat := bitLength c.p

/-- CAPACITY = MODULUS_BITS - 1, the message codec's chunk size in bits (R6). -/
def capacity (c : Params) : Nat := modulusBits c - 1

/-- The bytes of an ASCII string. -/
def asciiBytes (cs : List Char) : List Byte := cs.map fun ch => BitVec.ofNat 8 ch.toNat

/-- The 27 characters "AleoSymmetricKeyCommitment0" (R200). -/
def tagCommitChars : List Char :=
  ['A', 'l', 'e', 'o', 'S', 'y', 'm', 'm', 'e', 't', 'r', 'i', 'c', 'K', 'e', 'y',
   'C', 'o', 'm', 'm', 'i', 't', 'm', 'e', 'n', 't', '0']

/-- The 24 characters "AleoSymmetricEncryption0" (R201). -/
def tagEncChars : List Char :=
  ['A', 'l', 'e', 'o', 'S', 'y', 'm', 'm', 'e', 't', 'r', 'i', 'c',
   'E', 'n', 'c', 'r', 'y', 'p', 't', 'i', 'o', 'n', '0']

/-- TAG_COMMIT = int_le(bytes) mod p (R200). -/
def tagCommit (c : Params) : Nat := intLE (asciiBytes tagCommitChars) % c.p

/-- TAG_ENC = int_le(bytes) mod p (R201). -/
def tagEnc (c : Params) : Nat := intLE (asciiBytes tagEncChars) % c.p

/-- `SPONGE(xs, n)`: n elements of F_p after absorbing `xs` into a fresh sponge, a total function of
`(xs, n)` of which nothing else is known (R202, R203). -/
def sponge (c : Params) (xs : List Nat) (n : Nat) : List Nat :=
  (List.range n).map fun i => c.spongeWord xs n i % c.p

end Sys2Proof.Machine
end

