-- ==== Sys2Proof/Machine/State.lean ====
section
/-! DEFINITION. The state of the block (R20 of 10_state.md), the inputs the outside world gives it (R16, R74), and
the state after reset (R53, R320). -/

namespace Sys2Proof.Machine

/-- A validated point as a point register holds it: two 256-bit coordinates (R7, R24). -/
structure Point where
  x : Word
  y : Word
deriving DecidableEq, Repr

/-- The engine's side of the RNG port (R45, R47; entry 7). -/
inductive RngPort where
  /-- No value is requested. -/
  | idle
  /-- A GENSK waits: a value is requested and none has been delivered. -/
  | requested
  /-- The port has delivered `v` in answer to the request and the engine has not looked at it yet. -/
  | delivered (v : Word)
deriving DecidableEq, Repr

/-- One act of the outside world or of the schedule (R16, R74; entry 3). -/
inductive Input where
  /-- The host reads `size` bytes at a platform address (R60). -/
  | hostRead (addr size : Nat)
  /-- The host writes `size` bytes at a platform address; `data` is the write data (R60). -/
  | hostWrite (addr size : Nat) (data : BusWord)
  /-- The RNG device puts a value on the port (R45). -/
  | rngDeliver (v : Word)
  /-- The engine moves now (R264). -/
  | engine
  /-- RST_N goes low (R320). -/
  | rstLow
  /-- RST_N goes high (R321). -/
  | rstHigh
  /-- The block is powered on, which counts as a reset (R320). -/
  | powerOn
deriving DecidableEq, Repr

/-- EMEM and BMEM as bytes at the offsets of the host window, in one canonical form: addresses strictly
rising, no entry equal to what an unlisted address reads as (entry 14). -/
abbrev Memory := List Host.Cell

/-- The architectural state of one block (R20). STATUS.BUSY is `latch` not none (R33, entry 6), STATUS.ERR
and PVALID are computed (R35, R43), and IRQ is an output (R46). -/
structure State where
  /-- EMEM and BMEM (R21, R23), keyed by window offset (R50, R51). -/
  mem      : Memory
  /-- PREG, P[0..7]; none is Empty (R24). -/
  preg     : Vector (Option Point) 8
  /-- SREG, S[0..7] (R26). -/
  sreg     : Vector Word 8
  /-- CMD_LO (R30). -/
  cmdLo    : BusWord
  /-- CMD_HI (R31). -/
  cmdHi    : BusWord
  /-- LATCH: the latched command word, while BUSY = 1 (R33, R47). -/
  latch    : Option CmdWord
  /-- STATUS.DONE (R34). -/
  done     : Bool
  /-- STATUS.NONE (R36). -/
  noKey    : Bool
  /-- STATUS.OVERRUN (R37). -/
  overrun  : Bool
  /-- STATUS.ACCERR (R38). -/
  accErr   : Bool
  /-- STATUS.ERRCODE (R39). -/
  errcode  : BitVec 8
  /-- CTRL.IE (R40). -/
  ie       : Bool
  /-- RESULT bits 12:0; bits 31:13 read 0 (R41). -/
  result   : BitVec 13
  /-- The engine's side of the RNG port (R45, R47). -/
  rng      : RngPort
  /-- The level of the pin RST_N, high when true (R54, R320). -/
  rstN     : Bool
  /-- The read data of the host port: what the last read transaction returned (R54, R60; DESIGN
  CHOICE: 0 at reset, entry 5). -/
  readData : BusWord
  /-- The model's own: the inputs still to come, oldest first (entry 3). -/
  inputs   : List Input
  /-- The model's own: how often the block has been powered on again since the first state (entry 2). -/
  powerUps : Nat
deriving DecidableEq, Repr

/-- The reasons a step can stop with a fault: there are none. The block has no trap, and nothing is undefined
(R293, R303), so no step raises a fault. -/
inductive Fault where
deriving DecidableEq, Repr

/-- The reasons a step can be refused. -/
inductive Refusal where
  /-- Raised by an arm of `exec` whose instruction has no meaning yet; no arm does. Safe: the machine stops
  where the hardware would go on. -/
  | notModelled (mnemonic : String)
deriving DecidableEq, Repr

/-- The block right after reset (R53, R320): idle, nothing written to memory since power-on, RST_N released
(entry 8), nothing scheduled (entry 3). -/
def State.reset : State where
  mem      := []
  preg     := Vector.replicate 8 none
  sreg     := Vector.replicate 8 0
  cmdLo    := 0
  cmdHi    := 0
  latch    := none
  done     := false
  noKey    := false
  overrun  := false
  accErr   := false
  errcode  := 0
  ie       := false
  result   := 0
  rng      := .idle
  rstN     := true
  readData := 0
  inputs   := []
  powerUps := 0

end Sys2Proof.Machine
end

