-- ==== Sys2Proof/Machine/Flags.lean ====
section
/-! DEFINITION. The error codes (R280 of 60_exceptions.md), the control page's registers as the host reads them (R32-R44
of 10_state.md) and the interrupt output (R46). -/

namespace Sys2Proof.Machine

open Sys2Proof.Config

/-- The errors a command can raise (R280). -/
inductive ErrCode where
  | invalidEncoding
  | invalidMessageLength
  | malformedCiphertext
  | illegalCommand
  | operand
  | nonCanonical
  | emptyPoint
  | noSpace
deriving DecidableEq, Repr

/-- The number of an error in STATUS.ERRCODE (R280); 0 is success and no error. -/
def errNumber : ErrCode → BitVec 8
  | .invalidEncoding      => 1
  | .invalidMessageLength => 2
  | .malformedCiphertext  => 3
  | .illegalCommand       => 4
  | .operand              => 5
  | .nonCanonical         => 6
  | .emptyPoint           => 7
  | .noSpace              => 8

/-- STATUS.BUSY: a command is latched (R33, entry 6). -/
def State.busy (s : State) : Bool := s.latch.isSome

/-- STATUS.ERR: ERRCODE is not 0 (R35). -/
def State.err (s : State) : Bool := s.errcode != 0

/-- STATUS as the host reads it (R32). -/
def State.statusWord (s : State) : BusWord :=
  0#16 ++ s.errcode ++ 0#2 ++ BitVec.ofBool s.accErr ++ BitVec.ofBool s.overrun ++
    BitVec.ofBool s.noKey ++ BitVec.ofBool s.err ++ BitVec.ofBool s.done ++ BitVec.ofBool s.busy

/-- CTRL as the host reads it (R40). -/
def State.ctrlWord (s : State) : BusWord := (BitVec.ofBool s.ie).setWidth 32

/-- RESULT as the host reads it (R41). -/
def State.resultWord (s : State) : BusWord := s.result.setWidth 32

/-- INFO: CAPACITY in bits 15:0, MODULUS_BITS in bits 31:16 (R42). -/
def infoWord (c : Params) : BusWord :=
  BitVec.ofNat 16 (modulusBits c) ++ BitVec.ofNat 16 (capacity c)

/-- PVALID: bit i is 1 exactly when P[i] holds a point (R43). -/
def State.pvalidWord (s : State) : BusWord :=
  0#24 ++ BitVec.ofBool s.preg[7].isSome ++ BitVec.ofBool s.preg[6].isSome ++
    BitVec.ofBool s.preg[5].isSome ++ BitVec.ofBool s.preg[4].isSome ++
    BitVec.ofBool s.preg[3].isSome ++ BitVec.ofBool s.preg[2].isSome ++
    BitVec.ofBool s.preg[1].isSome ++ BitVec.ofBool s.preg[0].isSome

/-- The output IRQ = CTRL.IE AND STATUS.DONE (R46, R296). -/
def State.irq (s : State) : Bool := s.ie && s.done

/-- STATUS after a host write of `v`: bits 1, 4 and 5 of `v` clear DONE, OVERRUN and ACCERR, every other bit
is ignored (R32). -/
def State.ackStatus (s : State) (v : BusWord) : State :=
  { s with
    done    := s.done && !v.getLsbD 1
    overrun := s.overrun && !v.getLsbD 4
    accErr  := s.accErr && !v.getLsbD 5 }

end Sys2Proof.Machine
end

