-- ==== Sys2Proof/Machine/Ops.lean ====
section
/-! DEFINITION. The named operations over memory and registers (R13 of 00_scope.md), and the shared operations of the
command lifecycle: issue, completion (which takes the place of a trap, R293) and reset. -/

namespace Sys2Proof.Machine

open Sys2Proof.Config

/-- The window offset of B[0] (R50). -/
def bmemBase : Nat := 0x1000

/-- The window offset of E[0] (R51). -/
def ememBase : Nat := 0x2000

/-- The window offset just past E[255] (R51). -/
def memEnd : Nat := 0x4000

/-- The byte listed for an address, if one is. -/
def Memory.find : Memory → Nat → Option Byte
  | [], _ => none
  | (b, w) :: m, a => if b = a then some w else Memory.find m a

/-- The byte at address `a`; `bg` is what an unlisted address reads as. -/
def Memory.read (bg : Nat → Byte) (m : Memory) (a : Nat) : Byte := (Memory.find m a).getD (bg a)

/-- List `v` at address `a`, keeping the addresses rising. -/
def Memory.put : Memory → Nat → Byte → Memory
  | [], a, v => [(a, v)]
  | (b, w) :: m, a, v =>
    if a < b then (a, v) :: (b, w) :: m
    else if a = b then (a, v) :: m
    else (b, w) :: Memory.put m a v

/-- Unlist address `a`. -/
def Memory.unlist (m : Memory) (a : Nat) : Memory := m.filter fun e => e.1 != a

/-- Write the byte `v` at address `a`; the value an unlisted address reads as is not listed. -/
def Memory.write (bg : Nat → Byte) (m : Memory) (a : Nat) (v : Byte) : Memory :=
  if v = bg a then Memory.unlist m a else Memory.put m a v

/-- The canonical form: addresses rise strictly and lie in the two memory windows, and no entry equals what
an unlisted address reads as (entry 14). -/
abbrev Memory.wf (bg : Nat → Byte) (m : Memory) : Prop :=
  m.Pairwise (fun e f => e.1 < f.1) ∧
    ∀ e ∈ m, bmemBase ≤ e.1 ∧ e.1 < memEnd ∧ e.2 ≠ bg e.1

/-- The little-endian number in the `n` bytes from address `a` on (R67). -/
def Memory.readLE (bg : Nat → Byte) (m : Memory) (a : Nat) : Nat → Nat
  | 0 => 0
  | n + 1 => (Memory.read bg m a).toNat + 256 * Memory.readLE bg m (a + 1) n

/-- Write the low `n` bytes of `v`, little-endian, from address `a` on (R67). -/
def Memory.writeLE (bg : Nat → Byte) (m : Memory) (a : Nat) : (n v : Nat) → Memory
  | 0, _ => m
  | n + 1, v => Memory.writeLE bg (Memory.write bg m a (BitVec.ofNat 8 v)) (a + 1) n (v / 256)

/-- What the unlisted bytes of memory read as: the free contents of the last power-on (R53, R325; entry 2). -/
def State.background (c : Params) (s : State) : Nat → Byte := c.powerOnByte s.powerUps

/-- The byte of EMEM or BMEM at a window offset. -/
def State.readByte (c : Params) (s : State) (a : Nat) : Byte := Memory.read (s.background c) s.mem a

/-- The 32-bit word of the BMEM or EMEM window at offset `a` (R50, R51). -/
def State.readBus (c : Params) (s : State) (a : Nat) : BusWord :=
  BitVec.ofNat 32 (Memory.readLE (s.background c) s.mem a 4)

/-- Replace the 32-bit word of the BMEM or EMEM window at offset `a` (R50, R51). -/
def State.writeBus (c : Params) (s : State) (a : Nat) (v : BusWord) : State :=
  { s with mem := Memory.writeLE (s.background c) s.mem a 4 v.toNat }

/-- The window offset of E[i] (R51). -/
def eAddr (i : Nat) : Nat := ememBase + 32 * i

/-- The window offset of B[i] (R50). -/
def bAddr (i : Nat) : Nat := bmemBase + i

/-- `E[i]` (R13, R51). -/
def State.readE (c : Params) (s : State) (i : Nat) : Word :=
  BitVec.ofNat 256 (Memory.readLE (s.background c) s.mem (eAddr i) 32)

/-- `E[i] <- v` (R13, R51). -/
def State.writeE (c : Params) (s : State) (i : Nat) (v : Word) : State :=
  { s with mem := Memory.writeLE (s.background c) s.mem (eAddr i) 32 v.toNat }

/-- `E[i + k] <- vs[k]` for every k (R69). -/
def State.writeEs (c : Params) : State → Nat → List Nat → State
  | s, _, [] => s
  | s, i, v :: vs => State.writeEs c (s.writeE c i (BitVec.ofNat 256 v)) (i + 1) vs

/-- `B[i]` (R13, R50). -/
def State.readB (c : Params) (s : State) (i : Nat) : Byte := s.readByte c (bAddr i)

/-- `B[i] <- v` (R13, R50). -/
def State.writeB (c : Params) (s : State) (i : Nat) (v : Byte) : State :=
  { s with mem := Memory.write (s.background c) s.mem (bAddr i) v }

/-- The bytes B[0..n-1] (R236). -/
def State.readBs (c : Params) (s : State) (n : Nat) : List Byte := (List.range n).map (s.readB c)

/-- `B[i + k] <- vs[k]` for every k (R237). -/
def State.writeBs (c : Params) : State → Nat → List Byte → State
  | s, _, [] => s
  | s, i, v :: vs => State.writeBs c (s.writeB c i v) (i + 1) vs

/-- `P[i]` (R13, R24). -/
def State.readP (s : State) (i : Fin 8) : Option Point := s.preg[i]

/-- `P[i] <- Pt(x, y)` (R13, R24). -/
def State.writeP (s : State) (i : Fin 8) (q : Point) : State :=
  { s with preg := s.preg.set i (some q) }

/-- `S[i]` (R13, R26). -/
def State.readS (s : State) (i : Fin 8) : Word := s.sreg[i]

/-- `S[i] <- v` (R13, R26). -/
def State.writeS (s : State) (i : Fin 8) (v : Word) : State := { s with sreg := s.sreg.set i v }

/-- `STATUS.NONE <- 1` (R36, R173). -/
def State.setNoKey (s : State) : State := { s with noKey := true }

/-- `RESULT <- value` (R41, R236, R237). -/
def State.setResult (s : State) (k : Nat) : State := { s with result := BitVec.ofNat 13 k }

/-- The engine asks the RNG port for a value (R45). -/
def State.requestRng (s : State) : State := { s with rng := .requested }

/-- Issue the command `cat(CMD_HI, CMD_LO)`: the branch of R260 with BUSY = 0. -/
def State.issue (s : State) : State :=
  { s with
    latch   := some (s.cmdHi ++ s.cmdLo)
    done    := false
    errcode := 0
    noKey   := false
    result  := 0 }

/-- The last lines of the completion step: ERRCODE takes the code, BUSY falls, DONE rises (R261; entry
12). -/
def State.finish (s : State) (code : BitVec 8) : State :=
  { s with latch := none, rng := .idle, done := true, errcode := code }

/-- Completion, the one way a command ends and the block's whole report of an error (R261, R262, R293): an
error writes nothing but STATUS; a success keeps every write of the command, `t`. -/
def State.complete (s : State) : Except ErrCode State → State
  | .error e => s.finish (errNumber e)
  | .ok t => t.finish 0

/-- The reset action; EMEM and BMEM keep their values (R320). -/
def State.resetAction (s : State) : State :=
  { s with
    preg    := Vector.replicate 8 none
    sreg    := Vector.replicate 8 0
    cmdLo   := 0
    cmdHi   := 0
    latch   := none
    done    := false
    noKey   := false
    overrun := false
    accErr  := false
    errcode := 0
    ie      := false
    result  := 0
    rng     := .idle }

/-- RST_N goes low: at the falling edge the reset action takes place (R320). -/
def State.rstFall (s : State) : State :=
  if s.rstN then { s.resetAction with rstN := false } else s

/-- RST_N goes high: the block leaves reset (R321). -/
def State.rstRise (s : State) : State := { s with rstN := true }

/-- Power-on counts as a reset, and EMEM and BMEM may then hold anything (R320, R53; entries 2 and 17). -/
def State.powerOn (s : State) : State :=
  { s.resetAction with mem := [], powerUps := s.powerUps + 1 }

end Sys2Proof.Machine
end

