-- ==== Sys2Proof/Machine/Bus.lean ====
section
/-! DEFINITION. The host port: the register map (R29, R48-R52 of 10_state.md), the classification of a transaction (R65 of
20_memory.md) and its effect (R61). Offsets are from BLOCK_BASE. -/

namespace Sys2Proof.Machine

open Sys2Proof.Config

/-- What an offset of the window names (R29); `k` counts 32-bit words from the least significant one. -/
inductive Target where
  | cmdLo
  | cmdHi
  | status
  | ctrl
  | result
  | info
  | pvalid
  | tagCommit (k : Fin 8)
  | tagEnc (k : Fin 8)
  | genX (k : Fin 8)
  | genY (k : Fin 8)
  /-- Word `k` of S[i] (R48). -/
  | sreg (i k : Fin 8)
  /-- Word `k` of the x-coordinate of P[i] (R49). -/
  | pregX (i k : Fin 8)
  /-- Word `k` of the y-coordinate of P[i] (R49). -/
  | pregY (i k : Fin 8)
  /-- A word of the BMEM or EMEM window (R50, R51). -/
  | memory (off : Nat)
  /-- 0x01C-0x03F, 0x0C0-0x0FF, 0x400-0xFFF (R52). -/
  | reserved
deriving DecidableEq, Repr

/-- The 32-bit word of a 256-bit value that an aligned offset inside its 32 bytes names (R67). -/
def wordIndex (off : Nat) : Fin 8 := Fin.ofNat 8 (off / 4)

/-- The target of an aligned offset (R29). -/
def target (off : Nat) : Target :=
  if off = 0x000 then .cmdLo
  else if off = 0x004 then .cmdHi
  else if off = 0x008 then .status
  else if off = 0x00C then .ctrl
  else if off = 0x010 then .result
  else if off = 0x014 then .info
  else if off = 0x018 then .pvalid
  else if off < 0x040 then .reserved
  else if off < 0x060 then .tagCommit (wordIndex off)
  else if off < 0x080 then .tagEnc (wordIndex off)
  else if off < 0x0A0 then .genX (wordIndex off)
  else if off < 0x0C0 then .genY (wordIndex off)
  else if off < 0x100 then .reserved
  else if off < 0x200 then .sreg (Fin.ofNat 8 ((off - 0x100) / 32)) (wordIndex off)
  else if off < 0x400 then
    if off % 64 < 32 then .pregX (Fin.ofNat 8 ((off - 0x200) / 64)) (wordIndex off)
    else .pregY (Fin.ofNat 8 ((off - 0x200) / 64)) (wordIndex off)
  else if off < 0x1000 then .reserved
  else .memory off

/-- Targets in the data windows 0x100-0x3FFF, locked while BUSY = 1 (R29, R66). -/
def inDataWindow : Target → Bool
  | .cmdLo | .cmdHi | .status | .ctrl | .result | .info | .pvalid => false
  | .tagCommit _ | .tagEnc _ | .genX _ | .genY _ | .reserved => false
  | .sreg _ _ | .pregX _ _ | .pregY _ _ | .memory _ => true

/-- Targets the host cannot write (R64). -/
def readOnlyTarget : Target → Bool
  | .result | .info | .pvalid | .tagCommit _ | .tagEnc _ | .genX _ | .genY _ => true
  | .pregX _ _ | .pregY _ _ => true
  | .cmdLo | .cmdHi | .status | .ctrl | .sreg _ _ | .memory _ | .reserved => false

/-- The classes of R65, in its order. -/
inductive AccessClass where
  | badSize
  | misaligned
  | reserved
  | locked
  | readOnly
  | legal
deriving DecidableEq, Repr

/-- Classify a host transaction of `size` bytes at an offset: the first case of R65 that applies
(entry 11). -/
def classify (busy isWrite : Bool) (off : BitVec 14) (size : Nat) : AccessClass :=
  if size ≠ 4 then .badSize
  else if off.toNat % 4 ≠ 0 then .misaligned
  else if target off.toNat = .reserved then .reserved
  else if inDataWindow (target off.toNat) && busy then .locked
  else if isWrite && readOnlyTarget (target off.toNat) then .readOnly
  else .legal

/-- Bits 32k+31:32k of a 256-bit value (R44, R48, R49). -/
def wordAt (v : Word) (k : Fin 8) : BusWord := v.extractLsb' (32 * k.val) 32

/-- A 256-bit value with bits 32k+31:32k replaced (R48). -/
def setWordAt (v : Word) (k : Fin 8) (w : BusWord) : Word :=
  (v &&& ~~~((0xFFFFFFFF : Word) <<< (32 * k.val))) ||| (w.setWidth 256 <<< (32 * k.val))

/-- What a legal read of a target returns (R61). -/
def readTarget (c : Params) (s : State) : Target → BusWord
  | .cmdLo => s.cmdLo
  | .cmdHi => s.cmdHi
  | .status => s.statusWord
  | .ctrl => s.ctrlWord
  | .result => s.resultWord
  | .info => infoWord c
  | .pvalid => s.pvalidWord
  | .tagCommit k => wordAt (BitVec.ofNat 256 (tagCommit c)) k
  | .tagEnc k => wordAt (BitVec.ofNat 256 (tagEnc c)) k
  | .genX k => wordAt (BitVec.ofNat 256 c.gen.x) k
  | .genY k => wordAt (BitVec.ofNat 256 c.gen.y) k
  | .sreg i k => wordAt (s.readS i) k
  | .pregX i k =>
    match s.readP i with
    | some q => wordAt q.x k
    | none => 0
  | .pregY i k =>
    match s.readP i with
    | some q => wordAt q.y k
    | none => 0
  | .memory off => s.readBus c off
  | .reserved => 0

/-- A legal write of CMD_HI: the value is stored, then the command is issued, or dropped with OVERRUN while
one is latched (R31, R260). -/
def State.writeCmdHi (s : State) (v : BusWord) : State :=
  let t := { s with cmdHi := v }
  if t.busy then { t with overrun := true } else t.issue

/-- What a legal write of a target does (R61); read-only and reserved targets are never legal to write. -/
def writeTarget (c : Params) (s : State) (v : BusWord) : Target → State
  | .cmdLo => { s with cmdLo := v }
  | .cmdHi => s.writeCmdHi v
  | .status => s.ackStatus v
  | .ctrl => { s with ie := v.getLsbD 0 }
  | .sreg i k => s.writeS i (setWordAt (s.readS i) k v)
  | .memory off => s.writeBus c off v
  | .result | .info | .pvalid | .tagCommit _ | .tagEnc _ | .genX _ | .genY _ => s
  | .pregX _ _ | .pregY _ _ | .reserved => s

/-- STATUS.ACCERR <- 1 (R38). -/
def State.setAccErr (s : State) : State := { s with accErr := true }

/-- The read data of the port takes a value (R54, R60). -/
def State.setReadData (s : State) (v : BusWord) : State := { s with readData := v }

/-- `MemRead(off, size)` while the block is out of reset: the target's value, or 0 and ACCERR (R61, R65). -/
def busRead (c : Params) (s : State) (off : BitVec 14) (size : Nat) : State :=
  match classify s.busy false off size with
  | .legal => s.setReadData (readTarget c s (target off.toNat))
  | .badSize | .misaligned | .reserved | .locked | .readOnly => s.setAccErr.setReadData 0

/-- `MemWrite(off, size, v)` while the block is out of reset: the target's effect, or nothing and ACCERR
(R61, R65). -/
def busWrite (c : Params) (s : State) (off : BitVec 14) (size : Nat) (v : BusWord) : State :=
  match classify s.busy true off size with
  | .legal => writeTarget c s v (target off.toNat)
  | .badSize | .misaligned | .reserved | .locked | .readOnly => s.setAccErr

/-- The window offset of a platform address, if the address is in the window (R29, R60, R72; entry
18). -/
def portOffset (base addr : Nat) : Option (BitVec 14) :=
  if base ≤ addr ∧ addr < base + 0x4000 then some (BitVec.ofNat 14 (addr - base)) else none

/-- A host read at a platform address: outside the window it does not reach the block (R60), and during reset
it returns 0 (R321). -/
def hostRead (c : Params) (s : State) (addr size : Nat) : State :=
  match portOffset c.blockBase addr with
  | none => s
  | some off => if s.rstN then busRead c s off size else s.setReadData 0

/-- A host write at a platform address: outside the window it does not reach the block (R60), and during
reset it is ignored (R321). -/
def hostWrite (c : Params) (s : State) (addr size : Nat) (v : BusWord) : State :=
  match portOffset c.blockBase addr with
  | none => s
  | some off => if s.rstN then busWrite c s off size v else s

/-- The RNG device puts a value on the port: it answers an outstanding request and nothing else (R45; entry
7). During reset no request is outstanding, so it is discarded (R321). -/
def rngDeliver (s : State) (v : Word) : State :=
  match s.rng with
  | .requested => { s with rng := .delivered v }
  | .idle => s
  | .delivered _ => s

end Sys2Proof.Machine
end

