-- ==== Sys2Proof/Machine/Operands.lean ====
section
/-! DEFINITION. The operand forms of the commands (R92 of 30_encoding.md) and the checks each makes, in the precedence of
R291 (60_exceptions.md). A failed check raises an error, which ends the command (R13). -/

namespace Sys2Proof.Machine

open Sys2Proof.Config

/-- Raise `e` unless the condition holds. -/
def require (ok : Bool) (e : ErrCode) : Except ErrCode Unit := if ok then .ok () else .error e

/-- The register a `p` or `s` field names; 8..255 raise E_OPERAND (R92, R282). -/
def regIndex (f : BitVec 8) : Except ErrCode (Fin 8) :=
  if h : f.toNat < 8 then .ok ⟨f.toNat, h⟩ else .error .operand

/-- A sequence of `n` EMEM words from word `base` on must not pass E[255] (R69, R282). -/
def requireRange (base : EField) (n : CountField) : Except ErrCode Unit :=
  require (decide (n.toNat ≤ 256) && decide (base.toNat + n.toNat ≤ 256)) .operand

/-- The point in P[i]; an Empty register raises E_EMPTY_POINT (R283). -/
def readPoint (s : State) (i : Fin 8) : Except ErrCode Point :=
  match s.readP i with
  | some q => .ok q
  | none => .error .emptyPoint

/-- S[i] as a scalar; a value >= N raises E_NONCANONICAL (R26, R284). -/
def readScalar (c : Params) (s : State) (i : Fin 8) : Except ErrCode Nat :=
  if (s.readS i).toNat < c.n then .ok (s.readS i).toNat else .error .nonCanonical

/-- E[i] as an element of F_p; a value >= p raises E_NONCANONICAL (R22, R284). -/
def readElem (c : Params) (s : State) (i : Nat) : Except ErrCode Nat :=
  if (s.readE c i).toNat < c.p then .ok (s.readE c i).toNat else .error .nonCanonical

/-- E[i], ..., E[i+n-1] as elements of F_p (R69, R284). -/
def readElems (c : Params) (s : State) : (i n : Nat) → Except ErrCode (List Nat)
  | _, 0 => .ok []
  | i, n + 1 => do
    let v ← readElem c s i
    let vs ← readElems c s (i + 1) n
    pure (v :: vs)

/-- The canonical integers of a point register's coordinates. -/
def toAff (q : Point) : Aff := ⟨q.x.toNat, q.y.toNat⟩

/-- A point of F_p pairs as a point register holds it. -/
def ofAff (P : Aff) : Point := ⟨BitVec.ofNat 256 P.x, BitVec.ofNat 256 P.y⟩

end Sys2Proof.Machine
end

