-- ==== Sys2Proof/Machine/Cipher.lean ====
section
/-! DEFINITION. The sponge commands COMMIT, ENC and DEC (R205-R207 of 43_sponge.md). -/

namespace Sys2Proof.Machine

open Sys2Proof.Config

/-- The commitment to a key: `SPONGE([TAG_COMMIT, k], 1)[0]` (R205). -/
def commitment (c : Params) (k : Nat) : Nat := (sponge c [tagCommit c, k] 1).headD 0

/-- The keystream of a key: `SPONGE([TAG_ENC, k], n)` (R206). -/
def keystream (c : Params) (k n : Nat) : List Nat := sponge c [tagEnc c, k] n

/-- COMMIT (R205): the commitment to the key in E[S1] goes to E[D]. -/
def commitBody (c : Params) (d s1 : EField) (s : State) : Except ErrCode State := do
  let k ← readElem c s s1.toNat
  pure (s.writeE c d.toNat (BitVec.ofNat 256 (commitment c k)))

/-- COMMIT completes (R205). -/
def execCommit (d s1 : EField) (s : State) : Host.Outcome State Fault Refusal :=
  .next (s.complete (commitBody block d s1 s))

/-- What ENC and DEC share (R206, R207): every operand is checked and read, then the sequence combined with
the keystream by `f` goes to E[D], E[D+1], ... (R263). -/
def streamBody (f : Nat → Nat → Nat) (c : Params) (d s1 s2 : EField) (n : CountField) (s : State) :
    Except ErrCode State := do
  requireRange s1 n
  requireRange d n
  let k ← readElem c s s2.toNat
  let m ← readElems c s s1.toNat n.toNat
  pure (s.writeEs c d.toNat (List.zipWith f m (keystream c k n.toNat)))

/-- ENC (R206): element-wise addition of the keystream. -/
def encBody (c : Params) (d s1 s2 : EField) (n : CountField) (s : State) : Except ErrCode State :=
  streamBody (fadd c.p) c d s1 s2 n s

/-- ENC completes (R206). -/
def execEnc (d s1 s2 : EField) (n : CountField) (s : State) : Host.Outcome State Fault Refusal :=
  .next (s.complete (encBody block d s1 s2 n s))

/-- DEC (R207): element-wise subtraction of the keystream. -/
def decBody (c : Params) (d s1 s2 : EField) (n : CountField) (s : State) : Except ErrCode State :=
  streamBody (fsub c.p) c d s1 s2 n s

/-- DEC completes (R207). -/
def execDec (d s1 s2 : EField) (n : CountField) (s : State) : Host.Outcome State Fault Refusal :=
  .next (s.complete (decBody block d s1 s2 n s))

end Sys2Proof.Machine
end

