-- ==== Sys2Proof/Machine/Control.lean ====
section
/-! DEFINITION. The command NOP (R265 of 45_control.md). -/

namespace Sys2Proof.Machine

open Sys2Proof.Config

/-- NOP commits with no storage write (R265). -/
def nopBody (s : State) : Except ErrCode State := pure s

/-- NOP completes (R265). -/
def execNop (s : State) : Host.Outcome State Fault Refusal := .next (s.complete (nopBody s))

end Sys2Proof.Machine
end

