-- ==== Sys2Proof/Machine/KeyAgreement.lean ====
section
/-! DEFINITION. The key agreement commands GENSK, PUBKEY, INIT and COMPL (R170-R173 of 42_key_agreement.md). -/

namespace Sys2Proof.Machine

open Sys2Proof.Config

/-- One engine move of GENSK (R170, R45): a bad index is refused before any request; a delivered value below
N is the draw and completes the command; any other delivered value is discarded and another requested; with
none delivered the command waits (R332). -/
def genskBody (c : Params) (d : SField) (s : State) : State :=
  match regIndex d with
  | .error e => s.complete (.error e)
  | .ok i =>
    match s.rng with
    | .delivered v => if v.toNat < c.n then s.complete (.ok (s.writeS i v)) else s.requestRng
    | .requested => s.requestRng
    | .idle => s.requestRng

/-- GENSK waits or completes (R170). -/
def execGensk (d : SField) (s : State) : Host.Outcome State Fault Refusal :=
  .next (genskBody block d s)

/-- PUBKEY (R171): `[k]GEN` goes to P[D], k the private key in S[S1]. -/
def pubkeyBody (c : Params) (d : PField) (s1 : SField) (s : State) : Except ErrCode State := do
  let i ← regIndex d
  let j ← regIndex s1
  let k ← readScalar c s j
  pure (s.writeP i (ofAff (smul c.curve k c.gen)))

/-- PUBKEY completes (R171). -/
def execPubkey (d : PField) (s1 : SField) (s : State) : Host.Outcome State Fault Refusal :=
  .next (s.complete (pubkeyBody block d s1 s))

/-- INIT (R172): the x-coordinates of `[r]GEN` and of `[r]Q` go to E[D] and E[D2], r in S[S2] and Q in P[S1]. -/
def initBody (c : Params) (d d2 : EField) (s1 : PField) (s2 : SField) (s : State) :
    Except ErrCode State := do
  let i ← regIndex s1
  let j ← regIndex s2
  require (d != d2) .operand
  let q ← readPoint s i
  let r ← readScalar c s j
  let randomizer := smul c.curve r c.gen
  let key := smul c.curve r (toAff q)
  pure ((s.writeE c d.toNat (BitVec.ofNat 256 randomizer.x)).writeE c d2.toNat (BitVec.ofNat 256 key.x))

/-- INIT completes (R172). -/
def execInit (d d2 : EField) (s1 : PField) (s2 : SField) (s : State) :
    Host.Outcome State Fault Refusal :=
  .next (s.complete (initBody block d d2 s1 s2 s))

/-- COMPL (R173): the x-coordinate of `[sk]Q` goes to E[D], sk in S[S1] and Q decoded from E[S2]; an
x-coordinate that does not decode sets NONE and is no error (R289). -/
def complBody (c : Params) (d : EField) (s1 : SField) (s2 : EField) (s : State) :
    Except ErrCode State := do
  let j ← regIndex s1
  let sk ← readScalar c s j
  let xr ← readElem c s s2.toNat
  match decodeX c.curve xr with
  | none => pure s.setNoKey
  | some q => pure (s.writeE c d.toNat (BitVec.ofNat 256 (smul c.curve sk q).x))

/-- COMPL completes (R173). -/
def execCompl (d : EField) (s1 : SField) (s2 : EField) (s : State) :
    Host.Outcome State Fault Refusal :=
  .next (s.complete (complBody block d s1 s2 s))

end Sys2Proof.Machine
end

