-- ==== Sys2Proof/Machine/Codec.lean ====
section
/-! DEFINITION. The codec functions Pack and Unpack on bit lists, the least significant bit first (R68 of 20_memory.md;
R230, R232 of 44_message_codec.md). `cap` is CAPACITY. -/

namespace Sys2Proof.Machine

/-- The bits of a byte, bit 0 first (R68). -/
def byteBits (b : Byte) : List Bool := (List.range 8).map b.getLsbD

/-- The number whose bits these are, bit 0 first (R68). -/
def bitsToNat : List Bool → Nat
  | [] => 0
  | b :: bs => b.toNat + 2 * bitsToNat bs

/-- The message bits with the terminator (R230, the first two steps). -/
def packBits (bytes : List Byte) : List Bool := bytes.flatMap byteBits ++ [true]

/-- `Pack(b)`: the message bits cut into chunks of `cap` bits, each read as a little-endian integer, the last
one padded with zeros on the high end (R230). -/
def packBytes (cap : Nat) (bytes : List Byte) : List Nat :=
  let bits := packBits bytes
  (List.range (ceilDiv bits.length cap)).map fun k => bitsToNat ((bits.drop (k * cap)).take cap)

/-- Why a list of elements holds no message (R232). -/
inductive UnpackError where
  /-- No bit is 1. -/
  | malformed
  /-- The number of bits below the terminator is not a multiple of 8. -/
  | badLength
deriving DecidableEq, Repr

/-- The first `cap` bits of an element (R232). -/
def elemBits (cap e : Nat) : List Bool := (List.range cap).map e.testBit

/-- The index of the last 1 (R232). -/
def lastOne : List Bool → Option Nat
  | [] => none
  | b :: bs =>
    match lastOne bs with
    | some t => some (t + 1)
    | none => if b then some 0 else none

/-- The bytes of a bit list whose length is 8 times `k` (R232). -/
def bitsToBytes (bits : List Bool) (k : Nat) : List Byte :=
  (List.range k).map fun i => BitVec.ofNat 8 (bitsToNat ((bits.drop (8 * i)).take 8))

/-- `Unpack(e)` (R232): the malformed case is tested before the length. -/
def unpackElems (cap : Nat) (elems : List Nat) : Except UnpackError (List Byte) :=
  let bits := elems.flatMap (elemBits cap)
  match lastOne bits with
  | none => .error .malformed
  | some t => if t % 8 = 0 then .ok (bitsToBytes (bits.take t) (t / 8)) else .error .badLength

end Sys2Proof.Machine
end

