-- ==== Sys2Proof/Machine/MessageCodec.lean ====
section
/-! DEFINITION. The message codec commands PACK and UNPACK (R236, R237 of 44_message_codec.md). -/

namespace Sys2Proof.Machine

open Sys2Proof.Config

/-- PACK (R236): the elements of the message B[0..N-1] go to E[D], E[D+1], ... and their number to RESULT. -/
def packBody (c : Params) (d : EField) (n : CountField) (s : State) : Except ErrCode State := do
  require (decide (n.toNat ≤ 4096)) .operand
  let el := packBytes (capacity c) (s.readBs c n.toNat)
  require (decide (d.toNat + el.length ≤ 256)) .noSpace
  pure ((s.writeEs c d.toNat el).setResult el.length)

/-- PACK completes (R236). -/
def execPack (d : EField) (n : CountField) (s : State) : Host.Outcome State Fault Refusal :=
  .next (s.complete (packBody block d n s))

/-- UNPACK (R237): the bytes of the message in E[S1], ..., E[S1+N-1] go to B[0], B[1], ... and their number
to RESULT. -/
def unpackBody (c : Params) (s1 : EField) (n : CountField) (s : State) : Except ErrCode State := do
  requireRange s1 n
  let el ← readElems c s s1.toNat n.toNat
  match unpackElems (capacity c) el with
  | .error .malformed => .error .malformedCiphertext
  | .error .badLength => .error .invalidMessageLength
  | .ok bytes => do
    require (decide (bytes.length ≤ 4096)) .noSpace
    pure ((s.writeBs c 0 bytes).setResult bytes.length)

/-- UNPACK completes (R237). -/
def execUnpack (s1 : EField) (n : CountField) (s : State) : Host.Outcome State Fault Refusal :=
  .next (s.complete (unpackBody block s1 n s))

end Sys2Proof.Machine
end

