-- ==== Sys2Proof/Machine/PointCodec.lean ====
section
/-! DEFINITION. The point codec commands PENC and PDEC (R150, R151 of 41_point_codec.md). -/

namespace Sys2Proof.Machine

open Sys2Proof.Config

/-- PENC (R150): the x-coordinate of P[S1] goes to E[D]. -/
def pencBody (c : Params) (d : EField) (s1 : PField) (s : State) : Except ErrCode State := do
  let i ← regIndex s1
  let q ← readPoint s i
  pure (s.writeE c d.toNat q.x)

/-- PENC completes (R150). -/
def execPenc (d : EField) (s1 : PField) (s : State) : Host.Outcome State Fault Refusal :=
  .next (s.complete (pencBody block d s1 s))

/-- PDEC (R151): the subgroup point with x-coordinate E[S1], if there is one, goes to P[D]. -/
def pdecBody (c : Params) (d : PField) (s1 : EField) (s : State) : Except ErrCode State := do
  let i ← regIndex d
  let x ← readElem c s s1.toNat
  match decodeX c.curve x with
  | none => .error .invalidEncoding
  | some q => pure (s.writeP i (ofAff q))

/-- PDEC completes (R151). -/
def execPdec (d : PField) (s1 : EField) (s : State) : Host.Outcome State Fault Refusal :=
  .next (s.complete (pdecBody block d s1 s))

end Sys2Proof.Machine
end

