-- ==== Sys2Proof/Machine/Dispatch.lean ====
section
/-! DEFINITION. One arm per command: the call of its meaning. -/

namespace Sys2Proof.Machine

def exec (i : Instr) (s : State) : Host.Outcome State Fault Refusal :=
  match i with
  | .nop => Sys2Proof.Machine.execNop s
  | .penc d s1 => Sys2Proof.Machine.execPenc d s1 s
  | .pdec d s1 => Sys2Proof.Machine.execPdec d s1 s
  | .gensk d => Sys2Proof.Machine.execGensk d s
  | .pubkey d s1 => Sys2Proof.Machine.execPubkey d s1 s
  | .init d d2 s1 s2 => Sys2Proof.Machine.execInit d d2 s1 s2 s
  | .compl d s1 s2 => Sys2Proof.Machine.execCompl d s1 s2 s
  | .commit d s1 => Sys2Proof.Machine.execCommit d s1 s
  | .enc d s1 s2 n => Sys2Proof.Machine.execEnc d s1 s2 n s
  | .dec d s1 s2 n => Sys2Proof.Machine.execDec d s1 s2 n s
  | .pack d n => Sys2Proof.Machine.execPack d n s
  | .unpack s1 n => Sys2Proof.Machine.execUnpack s1 n s

end Sys2Proof.Machine
end

