-- ==== Sys2Proof/Machine/Engine.lean ====
section
/-! DEFINITION. The engine's move on the latched command (R261 of 45_control.md) and the effect of each input (R74 of
20_memory.md). -/

namespace Sys2Proof.Machine

open Sys2Proof.Config

/-- The engine runs the command word `w`: it is decoded first, and a word that spells no command completes
with E_ILLEGAL_COMMAND and no other effect (R95, R96, R281). -/
def runWord (w : CmdWord) (s : State) : Host.Outcome State Fault Refusal :=
  match decode w with
  | .error _ => .next (s.complete (.error .illegalCommand))
  | .ok i => exec i s

/-- The engine moves: it runs the latched command (R261); with nothing latched, or in reset, it is idle
(R302, R321; entry 16). -/
def engineMove (s : State) : Host.Outcome State Fault Refusal :=
  if s.rstN then
    match s.latch with
    | none => .next s
    | some w => runWord w s
  else .next s

/-- The effect of one input on the block (R74). -/
def takeInput (i : Input) (s : State) : Host.Outcome State Fault Refusal :=
  match i with
  | .hostRead addr size => .next (hostRead block s addr size)
  | .hostWrite addr size v => .next (hostWrite block s addr size v)
  | .rngDeliver v => .next (rngDeliver s v)
  | .engine => engineMove s
  | .rstLow => .next s.rstFall
  | .rstHigh => .next s.rstRise
  | .powerOn => .next s.powerOn

end Sys2Proof.Machine
end

