-- ==== Sys2Proof/Machine/Step.lean ====
section
/-! DEFINITION. One step of the block: the next input of the schedule takes place, or, with none scheduled, the engine
moves (R74, R264; entry 3). -/

namespace Sys2Proof.Machine

/-- One atomic step (R74). -/
def step (s : State) : Host.Outcome State Fault Refusal :=
  match s.inputs with
  | [] => engineMove s
  | i :: rest => takeInput i { s with inputs := rest }

/-- The state in which the command of `nbits` bits `w` is latched, the block is out of reset and nothing is
scheduled, so that the very next step is the engine's move on that command (entry 4). -/
def State.withFetchWord (s : State) (nbits w : Nat) : State :=
  { s with latch := some (BitVec.ofNat 64 (w % 2 ^ nbits)), rstN := true, inputs := [] }

end Sys2Proof.Machine
end

