-- ==== Sys2Proof/Safety.lean ====
section
/-! DEFINITION. The terms in which statements about the block are made: how a command ends, which bytes stay, which
operands a command refuses, and the invariants of a safe run. -/

namespace Sys2Proof.Machine

open Sys2Proof.Config

/-! How a command ends, and what is left alone -/

/-- The state after a command completes with an error code, or with success (code 0) and no write of its own:
BUSY 0, no RNG request, DONE 1, ERRCODE the code, everything else unchanged (R261, R262). -/
def State.ended (s : State) (code : BitVec 8) : State :=
  { s with latch := none, rng := .idle, done := true, errcode := code }

/-- The state whose next step takes the input `i` (R74). -/
def State.given (s : State) (i : Input) : State := { s with inputs := i :: s.inputs }

/-- Every byte of EMEM and BMEM at an offset outside `[lo, hi)` reads in `t` as it reads in `s`. -/
def OtherBytesKept (s t : State) (lo hi : Nat) : Prop :=
  ∀ a, ¬(lo ≤ a ∧ a < hi) → t.readByte block a = s.readByte block a

/-! What a command's operands hold -/

/-- The register number in a `p` or `s` field below 8 (R92). -/
def regNo (f : BitVec 8) : Fin 8 := Fin.ofNat 8 f.toNat

/-- The integer in E[i]. -/
def State.elemAt (s : State) (i : Nat) : Nat := (s.readE block i).toNat

/-- The integer in the scalar register a field names. -/
def State.scalarAt (s : State) (f : SField) : Nat := (s.readS (regNo f)).toNat

/-- The point register a field names. -/
def State.pointAt (s : State) (f : PField) : Option Point := s.readP (regNo f)

/-- A point of G with canonical coordinates (R122, R131). -/
def SubgroupPoint (c : Curve) (P : Aff) : Prop :=
  P.x < c.p ∧ P.y < c.p ∧ onCurve c P = true ∧ inSubgroup c P = true

/-- No point of G has this x-coordinate (R151). -/
def NoSubgroupPoint (c : Curve) (x : Nat) : Prop := ∀ y, ¬SubgroupPoint c ⟨x, y⟩

/-- The command reads a point register that is Empty: PENC's S1, INIT's S1 (R283). -/
def readsEmptyPoint : Instr → State → Prop
  | .penc _ s1, s => s.pointAt s1 = none
  | .init _ _ s1 _, s => s.pointAt s1 = none
  | .nop, _ | .pdec _ _, _ | .gensk _, _ | .pubkey _ _, _ | .compl _ _ _, _ | .commit _ _, _ => False
  | .enc _ _ _ _, _ | .dec _ _ _ _, _ | .pack _ _, _ | .unpack _ _, _ => False

/-- The command reads a field element that is not below p or a scalar that is not below N (R284). -/
def readsNonCanonical : Instr → State → Prop
  | .pdec _ s1, s => block.p ≤ s.elemAt s1.toNat
  | .pubkey _ s1, s => block.n ≤ s.scalarAt s1
  | .init _ _ _ s2, s => block.n ≤ s.scalarAt s2
  | .compl _ s1 s2, s => block.n ≤ s.scalarAt s1 ∨ block.p ≤ s.elemAt s2.toNat
  | .commit _ s1, s => block.p ≤ s.elemAt s1.toNat
  | .enc _ s1 s2 n, s | .dec _ s1 s2 n, s =>
    block.p ≤ s.elemAt s2.toNat ∨ ∃ k < n.toNat, block.p ≤ s.elemAt (s1.toNat + k)
  | .unpack s1 n, s => ∃ k < n.toNat, block.p ≤ s.elemAt (s1.toNat + k)
  | .nop, _ | .penc _ _, _ | .gensk _, _ | .pack _ _, _ => False

/-! The integers of the message codec -/

/-- `M = int_le(b) + 2^(8L)` of R231, for the message B[0..n-1]. -/
def State.messageNumber (s : State) (n : Nat) : Nat := intLE (s.readBs block n) + 2 ^ (8 * n)

/-- The number of elements a message of `n` bytes packs to (R234). -/
def packedCount (n : Nat) : Nat := ceilDiv (8 * n + 1) (capacity block)

/-- `V` of R233, for a list of elements and a chunk size. -/
def codecNumber (cap : Nat) (elems : List Nat) : Nat :=
  (elems.mapIdx fun k e => e % 2 ^ cap * 2 ^ (k * cap)).sum

/-- `V` of R233, for the elements E[base], ..., E[base+n-1]. -/
def State.elementsNumber (s : State) (base n : Nat) : Nat :=
  codecNumber (capacity block) ((List.range n).map fun k => s.elemAt (base + k))

/-! The invariants -/

/-- EMEM and BMEM are held in the one canonical form (entry 14). -/
def State.MemoryCanonical (s : State) : Prop := Memory.wf (s.background block) s.mem

/-- Every point register that is not Empty holds a point of G (R25). -/
def State.PointsInSubgroup (s : State) : Prop :=
  ∀ i q, s.readP i = some q → SubgroupPoint block.curve (toAff q)

/-- What the control registers can hold together (R33, R36, R39, R41, R45, R53, R260, R320): nothing of an
earlier command while one is latched, only the codes and counts that exist, a request at the RNG port only
for a latched GENSK, and the reset values while RST_N is low. -/
structure State.ControlSound (s : State) : Prop where
  cleared  : s.busy = true → s.done = false ∧ s.noKey = false ∧ s.errcode = 0 ∧ s.result = 0
  code     : s.errcode.toNat ≤ 8
  none_ok  : s.noKey = true → s.errcode = 0 ∧ s.result = 0
  failed   : s.errcode ≠ 0 → s.result = 0
  count    : s.result.toNat ≤ 4096
  request  : s.rng ≠ .idle → ∃ w d, s.latch = some w ∧ decode w = .ok (.gensk d) ∧ d.toNat < 8
  held     : s.rstN = false →
    (∀ i, s.readP i = none) ∧ (∀ i, s.readS i = 0) ∧ s.cmdLo = 0 ∧ s.cmdHi = 0 ∧ s.latch = none ∧
      s.statusWord = 0 ∧ s.ie = false ∧ s.result = 0 ∧ s.rng = .idle

end Sys2Proof.Machine
end

