-- ==== Sys2Proof/Certificates/Slice0/Obligations.lean ====
section
/-! DEFINITION. The statements about the block that the provers are asked to prove. -/

open Sys2Proof Sys2Proof.Config Sys2Proof.Machine

/-! ## The command word -/

/-- Decoding the word the assembler writes for a command gives the command back, whatever its operands (R95,
R98). -/
def Obligations.EncodeThenDecode : Prop := ∀ i : Instr, decode (encode i) = .ok i

/-- A word that decodes is the word the assembler writes for the command it decodes to: no bit of it is free
(R95, R98). -/
def Obligations.DecodeThenEncode : Prop := ∀ (w : CmdWord) (i : Instr), decode w = .ok i → encode i = w

/-- A word spells the command of opcode `k` exactly when `w AND mask = match` for row `k` of the table, and no two
rows accept one word (R95). -/
def Obligations.DecodeFollowsMaskTable : Prop :=
  (∀ (w : CmdWord) (k : Nat) (r : OpcodeRow), opcodeRows[k]? = some r →
    (r.spells w = true ↔ ∃ i, decode w = .ok i ∧ i.opcode.toNat = k)) ∧
  (∀ (w : CmdWord) (i : Instr), decode w = .ok i → i.opcode.toNat < opcodeRows.length)

/-- The encoding examples of R101, each with its two halves where the spec gives them. -/
def Obligations.SpecWordsDecode : Prop :=
  decode 0x0000000000010102 = .ok (.pdec 1 1) ∧ encodeHalves (.pdec 1 1) = (0x00010102, 0x00000000) ∧
  decode 0x0000000301010205 = .ok (.init 2 3 1 1) ∧
  encodeHalves (.init 2 3 1 1) = (0x01010205, 0x00000003) ∧
  decode 0x000002000000040A = .ok (.pack 4 2) ∧ encodeHalves (.pack 4 2) = (0x0000040A, 0x00000200) ∧
  decode 0x0000020003040608 = .ok (.enc 6 4 3 2) ∧
  decode 0x00000200000A000B = .ok (.unpack 10 2) ∧
  decode 0x000000000000000C = .error .reservedOpcode ∧
  decode 0x0000000000000100 = .error .unusedField

/-! ## The engine -/

/-- Out of reset, the engine's move on a latched word that decodes to a command is that command's meaning (R261). That
the engine moves at a step with an empty schedule, the clause on `s.inputs = []`, is the model's choice (entry 3,
DESIGN CHOICE): R264 only says that it moves at some later time. -/
def Obligations.StepRunsLatchedCommand : Prop :=
  ∀ (s : State) (w : CmdWord) (i : Instr), s.rstN = true → s.latch = some w → decode w = .ok i →
    (s.inputs = [] → step s = exec i s) ∧ step (s.given .engine) = exec i s

/-- A latched word that matches no row of the opcode table completes with E_ILLEGAL_COMMAND (4) and has no other
effect, whatever the operands hold (R281, R96). -/
def Obligations.IllegalWordRaises : Prop :=
  ∀ (s : State) (w : CmdWord), s.rstN = true → s.latch = some w →
    (∀ r ∈ opcodeRows, r.spells w = false) → step (s.given .engine) = .next (s.ended 4)

/-- The block never stops: every step has a next state (R303), and the engine's move on a command either completes
it or is a GENSK that waits at the RNG port (R264, R332). -/
def Obligations.EveryStepAnswersNext : Prop :=
  (∀ s : State, ∃ t, step s = .next t) ∧
  (∀ (i : Instr) (s : State), ∃ t, exec i s = .next t ∧
    (t.latch = none ∧ t.done = true ∧ t.rng = .idle ∨
      ∃ d, i = .gensk d ∧ d.toNat < 8 ∧ t = { s with rng := .requested }))

/-! ## What each command does -/

/-- NOP: the zero word and no other spells it, and it completes with every other piece of state kept; STATUS then
reads 2 when nothing is left of an earlier command and the sticky bits are clear (R265). -/
def Obligations.NopCompletes : Prop :=
  (∀ w : CmdWord, decode w = .ok .nop ↔ w = 0) ∧
  (∀ w : CmdWord, w.extractLsb' 0 8 = 0 → w ≠ 0 → ∃ e, decode w = .error e) ∧
  (∀ s : State, exec .nop s = .next (s.ended 0)) ∧
  (∀ s : State, s.noKey = false → s.overrun = false → s.accErr = false → (s.ended 0).statusWord = 2)

/-- PENC on a register that holds a point completes: E[D] holds its x-coordinate, and every other byte, register
and bit is kept (R150). -/
def Obligations.PencWritesXCoordinate : Prop :=
  ∀ (s : State) (d : EField) (s1 : PField) (q : Point), s1.toNat < 8 → s.pointAt s1 = some q →
    ∃ t, exec (.penc d s1) s = .next t ∧ t = { s.ended 0 with mem := t.mem } ∧
      t.readE block d.toNat = q.x ∧ OtherBytesKept s t (eAddr d.toNat) (eAddr d.toNat + 32)

/-- PDEC on the x-coordinate of a point of G completes: P[D] holds that point, whichever of the two candidates it
is, and every other register, byte and bit is kept (R151). -/
def Obligations.PdecFindsSubgroupPoint : Prop :=
  ∀ (s : State) (d : PField) (s1 : EField) (y : Nat), d.toNat < 8 →
    SubgroupPoint block.curve ⟨s.elemAt s1.toNat, y⟩ →
    ∃ t q, exec (.pdec d s1) s = .next t ∧ t = { s.ended 0 with preg := t.preg } ∧
      t.pointAt d = some q ∧ toAff q = ⟨s.elemAt s1.toNat, y⟩ ∧
      ∀ j, j ≠ regNo d → t.readP j = s.readP j

/-- GENSK with an accepted value on the port completes: S[D] holds the value, and every other register, byte and
bit is kept (R170, R45). -/
def Obligations.GenskTakesAcceptedValue : Prop :=
  ∀ (s : State) (d : SField) (v : Word), d.toNat < 8 → s.rng = .delivered v → v.toNat < block.n →
    ∃ t, exec (.gensk d) s = .next t ∧ t = { s.ended 0 with sreg := t.sreg } ∧
      t.readS (regNo d) = v ∧ ∀ j, j ≠ regNo d → t.readS j = s.readS j

/-- A waiting GENSK and the RNG port: a delivered value below N ends the command with that value in S[D]; any other
is discarded and the request stands again, with nothing else changed (R45, R332). -/
def Obligations.GenskRedrawsUntilAccepted : Prop :=
  ∀ (s : State) (w : CmdWord) (d : SField) (v : Word), s.rstN = true → s.latch = some w →
    decode w = .ok (.gensk d) → d.toNat < 8 →
    (s.rng = .idle → step (s.given .engine) = .next { s with rng := .requested }) ∧
    (s.rng = .requested →
      step (s.given .engine) = .next s ∧
      ∃ u, step ((s.given .engine).given (.rngDeliver v)) = .next u ∧ u.latch = some w ∧
        ∃ t, step u = .next t ∧
          (v.toNat < block.n →
            t = { s.ended 0 with sreg := t.sreg } ∧ t.readS (regNo d) = v ∧
              ∀ j, j ≠ regNo d → t.readS j = s.readS j) ∧
          (block.n ≤ v.toNat → t = s))

/-- PUBKEY on a scalar below N completes: P[D] holds `[k]GEN`, and every other register, byte and bit is kept
(R171). -/
def Obligations.PubkeyWritesMultipleOfGen : Prop :=
  ∀ (s : State) (d : PField) (s1 : SField), d.toNat < 8 → s1.toNat < 8 → s.scalarAt s1 < block.n →
    ∃ t q, exec (.pubkey d s1) s = .next t ∧ t = { s.ended 0 with preg := t.preg } ∧
      t.pointAt d = some q ∧ toAff q = smul block.curve (s.scalarAt s1) block.gen ∧
      ∀ j, j ≠ regNo d → t.readP j = s.readP j

/-- INIT on a point Q and a scalar r below N completes: E[D] holds `x([r]GEN)`, E[D2] holds `x([r]Q)`, and every
other byte, register and bit is kept (R172). -/
def Obligations.InitWritesBothCoordinates : Prop :=
  ∀ (s : State) (d d2 : EField) (s1 : PField) (s2 : SField) (q : Point), s1.toNat < 8 → s2.toNat < 8 →
    d ≠ d2 → s.pointAt s1 = some q → s.scalarAt s2 < block.n →
    ∃ t, exec (.init d d2 s1 s2) s = .next t ∧ t = { s.ended 0 with mem := t.mem } ∧
      t.elemAt d.toNat = (smul block.curve (s.scalarAt s2) block.gen).x ∧
      t.elemAt d2.toNat = (smul block.curve (s.scalarAt s2) (toAff q)).x ∧
      ∀ a, ¬(eAddr d.toNat ≤ a ∧ a < eAddr d.toNat + 32) → ¬(eAddr d2.toNat ≤ a ∧ a < eAddr d2.toNat + 32) →
        t.readByte block a = s.readByte block a

/-- COMPL on a scalar sk below N and the x-coordinate of a point Q of G completes: E[D] holds `x([sk]Q)`, and every
other byte, register and bit is kept (R173). -/
def Obligations.ComplWritesSharedX : Prop :=
  ∀ (s : State) (d : EField) (s1 : SField) (s2 : EField) (y : Nat), s1.toNat < 8 →
    s.scalarAt s1 < block.n → SubgroupPoint block.curve ⟨s.elemAt s2.toNat, y⟩ →
    ∃ t, exec (.compl d s1 s2) s = .next t ∧ t = { s.ended 0 with mem := t.mem } ∧
      t.elemAt d.toNat = (smul block.curve (s.scalarAt s1) ⟨s.elemAt s2.toNat, y⟩).x ∧
      OtherBytesKept s t (eAddr d.toNat) (eAddr d.toNat + 32)

/-- COMPL on an x-coordinate of no point of G completes with ERRCODE 0 and NONE 1 and writes nothing else (R289). -/
def Obligations.ComplReportsNone : Prop :=
  ∀ (s : State) (d : EField) (s1 : SField) (s2 : EField), s1.toNat < 8 → s.scalarAt s1 < block.n →
    s.elemAt s2.toNat < block.p → NoSubgroupPoint block.curve (s.elemAt s2.toNat) →
    exec (.compl d s1 s2) s = .next { s.ended 0 with noKey := true }

/-- COMMIT on a key below p completes: E[D] holds the one element the sponge gives for the commitment tag and the
key, and every other byte, register and bit is kept (R205). -/
def Obligations.CommitWritesSponge : Prop :=
  ∀ (s : State) (d s1 : EField), s.elemAt s1.toNat < block.p →
    ∃ t, exec (.commit d s1) s = .next t ∧ t = { s.ended 0 with mem := t.mem } ∧
      sponge block [tagCommit block, s.elemAt s1.toNat] 1 = [t.elemAt d.toNat] ∧
      OtherBytesKept s t (eAddr d.toNat) (eAddr d.toNat + 32)

/-- ENC with ranges inside EMEM and canonical operands completes: each destination word is the sum modulo p of the
plaintext element and the keystream element, all operands as they stood before the command, and every byte
outside the destination range, every register and every other bit is kept (R206, R263). -/
def Obligations.EncAddsKeystream : Prop :=
  ∀ (s : State) (d s1 s2 : EField) (n : CountField), n.toNat ≤ 256 → s1.toNat + n.toNat ≤ 256 →
    d.toNat + n.toNat ≤ 256 → s.elemAt s2.toNat < block.p →
    (∀ k < n.toNat, s.elemAt (s1.toNat + k) < block.p) →
    ∃ t, exec (.enc d s1 s2 n) s = .next t ∧ t = { s.ended 0 with mem := t.mem } ∧
      (∀ k (h : k < (sponge block [tagEnc block, s.elemAt s2.toNat] n.toNat).length),
        t.elemAt (d.toNat + k) =
          (s.elemAt (s1.toNat + k) + (sponge block [tagEnc block, s.elemAt s2.toNat] n.toNat)[k]) % block.p) ∧
      (sponge block [tagEnc block, s.elemAt s2.toNat] n.toNat).length = n.toNat ∧
      OtherBytesKept s t (eAddr d.toNat) (eAddr (d.toNat + n.toNat))

/-- DEC with ranges inside EMEM and canonical operands completes: each destination word is the difference modulo p
of the ciphertext element and the keystream element, never negative, and every byte outside the destination range,
every register and every other bit is kept (R207, R263). -/
def Obligations.DecSubtractsKeystream : Prop :=
  ∀ (s : State) (d s1 s2 : EField) (n : CountField), n.toNat ≤ 256 → s1.toNat + n.toNat ≤ 256 →
    d.toNat + n.toNat ≤ 256 → s.elemAt s2.toNat < block.p →
    (∀ k < n.toNat, s.elemAt (s1.toNat + k) < block.p) →
    ∃ t, exec (.dec d s1 s2 n) s = .next t ∧ t = { s.ended 0 with mem := t.mem } ∧
      (∀ k (h : k < (sponge block [tagEnc block, s.elemAt s2.toNat] n.toNat).length),
        (t.elemAt (d.toNat + k) : Int) =
          ((s.elemAt (s1.toNat + k) : Int) - (sponge block [tagEnc block, s.elemAt s2.toNat] n.toNat)[k]) %
            block.p) ∧
      (sponge block [tagEnc block, s.elemAt s2.toNat] n.toNat).length = n.toNat ∧
      OtherBytesKept s t (eAddr d.toNat) (eAddr (d.toNat + n.toNat))

/-- PACK of N bytes whose elements fit completes: element k is bits k*C to k*C+C-1 of the message number, RESULT
counts the elements, and every byte outside them, every register and every other bit is kept (R236, R231). -/
def Obligations.PackWritesElements : Prop :=
  ∀ (s : State) (d : EField) (n : CountField), n.toNat ≤ 4096 → d.toNat + packedCount n.toNat ≤ 256 →
    ∃ t, exec (.pack d n) s = .next t ∧
      t = { s.ended 0 with mem := t.mem, result := BitVec.ofNat 13 (packedCount n.toNat) } ∧
      (∀ k < packedCount n.toNat, t.elemAt (d.toNat + k) =
        s.messageNumber n.toNat / 2 ^ (k * capacity block) % 2 ^ capacity block) ∧
      OtherBytesKept s t (eAddr d.toNat) (eAddr (d.toNat + packedCount n.toNat))

/-- UNPACK of canonical elements whose number V has its top bit at a multiple 8L of 8, L at most 4096, completes: B[j]
is byte j of V for j below L, RESULT is L, and every byte from B[L] on, every byte of EMEM, every register and
every other bit is kept (R237, R233). -/
def Obligations.UnpackWritesBytes : Prop :=
  ∀ (s : State) (s1 : EField) (n : CountField) (len : Nat), n.toNat ≤ 256 → s1.toNat + n.toNat ≤ 256 →
    (∀ k < n.toNat, s.elemAt (s1.toNat + k) < block.p) →
    s.elementsNumber s1.toNat n.toNat ≠ 0 → Nat.log2 (s.elementsNumber s1.toNat n.toNat) = 8 * len →
    len ≤ 4096 →
    ∃ t, exec (.unpack s1 n) s = .next t ∧
      t = { s.ended 0 with mem := t.mem, result := BitVec.ofNat 13 len } ∧
      (∀ j < len, (t.readB block j).toNat = s.elementsNumber s1.toNat n.toNat / 256 ^ j % 256) ∧
      OtherBytesKept s t (bAddr 0) (bAddr len)

/-! ## The errors -/

/-- E_OPERAND (5) exactly when a field names a register that does not exist, a count or a range does not fit, or
INIT has one destination for both results, whatever the operands hold (R282). -/
def Obligations.OperandErrorExactly : Prop :=
  ∀ (i : Instr) (s : State), exec i s = .next (s.ended 5) ↔
    match i with
    | .nop => False
    | .penc _ s1 => 8 ≤ s1.toNat
    | .pdec d _ => 8 ≤ d.toNat
    | .gensk d => 8 ≤ d.toNat
    | .pubkey d s1 => 8 ≤ d.toNat ∨ 8 ≤ s1.toNat
    | .init d d2 s1 s2 => 8 ≤ s1.toNat ∨ 8 ≤ s2.toNat ∨ d = d2
    | .compl _ s1 _ => 8 ≤ s1.toNat
    | .commit _ _ => False
    | .enc d s1 _ n => 256 < n.toNat ∨ 256 < s1.toNat + n.toNat ∨ 256 < d.toNat + n.toNat
    | .dec d s1 _ n => 256 < n.toNat ∨ 256 < s1.toNat + n.toNat ∨ 256 < d.toNat + n.toNat
    | .pack _ n => 4096 < n.toNat
    | .unpack s1 n => 256 < n.toNat ∨ 256 < s1.toNat + n.toNat

/-- E_EMPTY_POINT (7) exactly when a well-formed PENC or INIT names an Empty point register: after E_OPERAND, before
E_NONCANONICAL, and from no other command (R283). -/
def Obligations.EmptyPointErrorExactly : Prop :=
  ∀ (i : Instr) (s : State), exec i s = .next (s.ended 7) ↔ i.wellFormed = true ∧ readsEmptyPoint i s

/-- E_NONCANONICAL (6) exactly when a well-formed command that reads no Empty register reads an element not below p
or a scalar not below N (R284). -/
def Obligations.NonCanonicalErrorExactly : Prop :=
  ∀ (i : Instr) (s : State), exec i s = .next (s.ended 6) ↔
    i.wellFormed = true ∧ ¬readsEmptyPoint i s ∧ readsNonCanonical i s

/-- E_INVALID_ENCODING (1) exactly when a well-formed PDEC reads a canonical x-coordinate of no point of G; COMPL
never raises it (R285). -/
def Obligations.InvalidEncodingErrorExactly : Prop :=
  ∀ (i : Instr) (s : State), exec i s = .next (s.ended 1) ↔
    ∃ d s1, i = .pdec d s1 ∧ d.toNat < 8 ∧ s.elemAt s1.toNat < block.p ∧
      NoSubgroupPoint block.curve (s.elemAt s1.toNat)

/-- E_MALFORMED_CIPHERTEXT (3) exactly when a well-formed UNPACK reads canonical elements with no 1 among their
first CAPACITY bits; E_INVALID_MESSAGE_LENGTH (2) exactly when there is a 1 and the number of bits below the last
one is not a multiple of 8 (R286, R287). -/
def Obligations.UnpackErrorsExactly : Prop :=
  ∀ (i : Instr) (s : State),
    (exec i s = .next (s.ended 3) ↔
      ∃ s1 n, i = .unpack s1 n ∧ i.wellFormed = true ∧ ¬readsNonCanonical i s ∧
        s.elementsNumber s1.toNat n.toNat = 0) ∧
    (exec i s = .next (s.ended 2) ↔
      ∃ s1 n, i = .unpack s1 n ∧ i.wellFormed = true ∧ ¬readsNonCanonical i s ∧
        s.elementsNumber s1.toNat n.toNat ≠ 0 ∧
        Nat.log2 (s.elementsNumber s1.toNat n.toNat) % 8 ≠ 0)

/-- E_NOSPACE (8) exactly when the elements of a well-formed PACK pass E[255], or the message of a well-formed
UNPACK that raises nothing else is longer than 4096 bytes (R288). -/
def Obligations.NoSpaceErrorExactly : Prop :=
  ∀ (i : Instr) (s : State), exec i s = .next (s.ended 8) ↔
    (∃ d n, i = .pack d n ∧ i.wellFormed = true ∧ 256 < d.toNat + packedCount n.toNat) ∨
    (∃ s1 n, i = .unpack s1 n ∧ i.wellFormed = true ∧ ¬readsNonCanonical i s ∧
      s.elementsNumber s1.toNat n.toNat ≠ 0 ∧
      Nat.log2 (s.elementsNumber s1.toNat n.toNat) % 8 = 0 ∧
      4096 < Nat.log2 (s.elementsNumber s1.toNat n.toNat) / 8)

/-- A command that ends with an error code changes STATUS and nothing else: no word, byte, point, scalar or RESULT
(R262). -/
def Obligations.FailedCommandChangesOnlyStatus : Prop :=
  ∀ (i : Instr) (s t : State), exec i s = .next t → s.errcode = 0 → t.errcode ≠ 0 →
    t = s.ended t.errcode ∧ t.errcode.toNat ≤ 8

/-! ## The codec, the cipher and the key exchange as a whole -/

/-- Pack in integer form: chunk k of `M = int_le(b) + 2^(8L)`, each chunk canonical (R231). -/
def Obligations.PackIntegerForm : Prop :=
  ∀ (c : Params), c.scheme.Valid → ∀ bytes : List Byte,
    packBytes (capacity c) bytes =
      (List.range (ceilDiv (8 * bytes.length + 1) (capacity c))).map (fun k =>
        (intLE bytes + 2 ^ (8 * bytes.length)) / 2 ^ (k * capacity c) % 2 ^ capacity c) ∧
    2 ^ capacity c ≤ c.p ∧ ∀ e ∈ packBytes (capacity c) bytes, e < 2 ^ capacity c

/-- Unpack in integer form, for every chunk size above 0 (R233). -/
def Obligations.UnpackIntegerForm : Prop :=
  ∀ (cap : Nat) (elems : List Nat), 0 < cap →
    let v := codecNumber cap elems
    let t := Nat.log2 v
    unpackElems cap elems =
      if v = 0 then .error .malformed
      else if t % 8 ≠ 0 then .error .badLength
      else .ok ((List.range (t / 8)).map fun j => BitVec.ofNat 8 (v % 2 ^ t / 256 ^ j))

/-- The number of elements of a packed message, with the counts R234 lists for the capacities 252 and 9. -/
def Obligations.PackLength : Prop :=
  (∀ (cap : Nat) (bytes : List Byte), 0 < cap →
    (packBytes cap bytes).length * cap ≥ 8 * bytes.length + 1 ∧
    (packBytes cap bytes).length * cap < 8 * bytes.length + 1 + cap) ∧
  (∀ bytes : List Byte,
    (bytes.length ≤ 31 → (packBytes 252 bytes).length = 1) ∧
    (32 ≤ bytes.length → bytes.length ≤ 62 → (packBytes 252 bytes).length = 2) ∧
    (63 ≤ bytes.length → bytes.length ≤ 94 → (packBytes 252 bytes).length = 3) ∧
    (bytes.length = 95 → (packBytes 252 bytes).length = 4) ∧
    (4095 ≤ bytes.length → bytes.length ≤ 4096 → (packBytes 252 bytes).length = 131) ∧
    (bytes.length ≤ 1 → (packBytes 9 bytes).length = 1) ∧
    (bytes.length = 2 → (packBytes 9 bytes).length = 2) ∧
    (bytes.length = 3 → (packBytes 9 bytes).length = 3))

/-- Unpack is the left inverse of Pack on every byte string, for every chunk size above 0 (R235). -/
def Obligations.UnpackAfterPack : Prop :=
  ∀ (cap : Nat) (bytes : List Byte), 0 < cap → unpackElems cap (packBytes cap bytes) = .ok bytes

/-- ENC, then DEC of its output with the same key word and count, gives the plaintext back, for every sponge; the
key word is to survive the ENC (R209). -/
def Obligations.DecAfterEnc : Prop :=
  ∀ (s : State) (d s1 s2 d' : EField) (n : CountField), n.toNat ≤ 256 → s1.toNat + n.toNat ≤ 256 →
    d.toNat + n.toNat ≤ 256 → d'.toNat + n.toNat ≤ 256 → s.elemAt s2.toNat < block.p →
    (∀ k < n.toNat, s.elemAt (s1.toNat + k) < block.p) →
    ¬(d.toNat ≤ s2.toNat ∧ s2.toNat < d.toNat + n.toNat) →
    ∃ t u, exec (.enc d s1 s2 n) s = .next t ∧ exec (.dec d' d s2 n) t = .next u ∧
      u.errcode = 0 ∧ ∀ k < n.toNat, u.elemAt (d'.toNat + k) = s.elemAt (s1.toNat + k)

/-- The two sides of the exchange agree: with P[i] the public key of sk, INIT with r writes `x([r]GEN)` and
`x([r][sk]GEN)`, and COMPL with sk on the first word writes the second (R174). -/
def Obligations.ExchangeAgrees : Prop :=
  ∀ (s : State) (i : PField) (sk r : SField) (eR eK eK2 : EField), i.toNat < 8 → sk.toNat < 8 → r.toNat < 8 →
    s.scalarAt sk < block.n → s.scalarAt r < block.n → eR ≠ eK →
    ∃ t u v, exec (.pubkey i sk) s = .next t ∧ exec (.init eR eK i r) t = .next u ∧
      exec (.compl eK2 sk eR) u = .next v ∧
      u.elemAt eR.toNat = (smul block.curve (s.scalarAt r) block.gen).x ∧
      u.elemAt eK.toNat =
        (smul block.curve (s.scalarAt r) (smul block.curve (s.scalarAt sk) block.gen)).x ∧
      v.errcode = 0 ∧ v.noKey = s.noKey ∧ v.elemAt eK2.toNat = u.elemAt eK.toNat

/-- On the curve of every valid scheme the denominators `1 + t` and `1 - t` of the addition law are never 0, and
sums of points are points of the curve (R125). -/
def Obligations.AdditionIsComplete : Prop :=
  ∀ (c : Scheme), c.Valid → ∀ P Q : Aff, P.x < c.curve.p → P.y < c.curve.p → Q.x < c.curve.p →
    Q.y < c.curve.p → onCurve c.curve P = true → onCurve c.curve Q = true →
    let t := c.curve.d * P.x * Q.x * P.y * Q.y % c.curve.p
    (1 + t) % c.curve.p ≠ 0 ∧ (1 + (c.curve.p - t)) % c.curve.p ≠ 0 ∧
      onCurve c.curve (addPt c.curve P Q) = true

/-- The scalar multiplication laws, for every valid scheme and every point of G (R128). -/
def Obligations.ScalarMultiplicationLaws : Prop :=
  ∀ (c : Scheme), c.Valid → ∀ P : Aff, SubgroupPoint c.curve P → ∀ j k : Nat,
    smul c.curve j (smul c.curve k P) = smul c.curve k (smul c.curve j P) ∧
    SubgroupPoint c.curve (smul c.curve k P) ∧
    smul c.curve k identity = identity ∧ smul c.curve 0 P = identity ∧ smul c.curve c.curve.n P = identity

/-- At most one point with a given x-coordinate is in G: the points (x, y) and (x, -y) differ by T2, a point (x, 0)
has order 4, and the search finds the same point in either order (R133). -/
def Obligations.AtMostOneSubgroupPoint : Prop :=
  ∀ (c : Scheme), c.Valid →
    (∀ x y y' : Nat, SubgroupPoint c.curve ⟨x, y⟩ → SubgroupPoint c.curve ⟨x, y'⟩ → y = y') ∧
    (∀ P : Aff, P.x < c.curve.p → P.y < c.curve.p → onCurve c.curve P = true →
      (⟨P.x, fneg c.curve.p P.y⟩ : Aff) = addPt c.curve (negPt c.curve P) (pointT2 c.curve)) ∧
    (∀ x < c.curve.p, onCurve c.curve ⟨x, 0⟩ = true →
      smul c.curve 4 ⟨x, 0⟩ = identity ∧ smul c.curve 2 ⟨x, 0⟩ ≠ identity ∧
        ¬SubgroupPoint c.curve ⟨x, 0⟩) ∧
    (∀ x < c.curve.p,
      (((candidates c.curve x).reverse.find? fun y => inSubgroup c.curve ⟨x, y⟩).map fun y => (⟨x, y⟩ : Aff)) =
        decodeX c.curve x)

/-- DecodeX recovers every point of G from its x-coordinate; 0 recovers O, and the x-coordinate of -P recovers
-P (R134). -/
def Obligations.DecodeXRoundTrip : Prop :=
  ∀ (c : Scheme), c.Valid →
    (∀ P : Aff, SubgroupPoint c.curve P → decodeX c.curve P.x = some P ∧
      decodeX c.curve (fneg c.curve.p P.x) = some (negPt c.curve P)) ∧
    decodeX c.curve 0 = some identity

/-! ## What only some commands may write -/

/-- Every EMEM word that a command changes holds a canonical element afterwards (R22), once the point registers
hold points. -/
def Obligations.WrittenWordsAreCanonical : Prop :=
  ∀ (i : Instr) (s t : State), s.PointsInSubgroup → exec i s = .next t → ∀ k < 256,
    t.readE block k = s.readE block k ∨ t.elemAt k < block.p

/-- A point register changes only by PDEC, by PUBKEY and by reset, never by the host or the RNG (R24). -/
def Obligations.PointRegistersWrittenOnlyBy : Prop :=
  ∀ (s t : State) (j : Fin 8), step s = .next t → t.readP j ≠ s.readP j →
    (t.readP j = none ∧ (s.inputs.head? = some .rstLow ∨ s.inputs.head? = some .powerOn)) ∨
    ((s.inputs = [] ∨ s.inputs.head? = some .engine) ∧
      ∃ w i, s.latch = some w ∧ decode w = .ok i ∧
        ((∃ d s1, i = .pdec d s1 ∧ regNo d = j) ∨ ∃ d s1, i = .pubkey d s1 ∧ regNo d = j))

/-! ## The host port -/

/-- A host write of CMD_HI out of reset: with a command latched, the value is stored and OVERRUN set; with none, the
command `cat(CMD_HI, CMD_LO)` is latched, STATUS and RESULT are cleared of the last one, and IRQ is low
(R260). -/
def Obligations.IssueLatchesCommand : Prop :=
  ∀ (s : State) (v : BusWord), s.rstN = true →
    (s.busy = true →
      step (s.given (.hostWrite (block.blockBase + 0x004) 4 v)) =
        .next { s with cmdHi := v, overrun := true }) ∧
    (s.busy = false →
      ∃ t, step (s.given (.hostWrite (block.blockBase + 0x004) 4 v)) = .next t ∧
        t = { s with cmdHi := v, latch := some (v ++ s.cmdLo), done := false, errcode := 0, noKey := false,
                     result := 0 } ∧
        t.busy = true ∧ t.irq = false)

/-- CMD_LO takes a host write at any time, with no other effect; CMD_LO and CMD_HI read back what they hold; CTRL keeps
bit 0 of what is written, at any time, and reads back that bit; RESULT reads its value; CMD_LO and CTRL are 0 after
reset (R30, R40). -/
def Obligations.CommandAndControlRegisters : Prop :=
  State.reset.cmdLo = 0 ∧ State.reset.ie = false ∧
  ∀ (s : State) (v : BusWord), s.rstN = true →
    step (s.given (.hostWrite (block.blockBase + 0x000) 4 v)) = .next { s with cmdLo := v } ∧
    step (s.given (.hostRead (block.blockBase + 0x000) 4)) = .next { s with readData := s.cmdLo } ∧
    step (s.given (.hostRead (block.blockBase + 0x004) 4)) = .next { s with readData := s.cmdHi } ∧
    step (s.given (.hostWrite (block.blockBase + 0x00C) 4 v)) = .next { s with ie := v.getLsbD 0 } ∧
    step (s.given (.hostRead (block.blockBase + 0x00C) 4)) =
      .next { s with readData := if s.ie then 1 else 0 } ∧
    step (s.given (.hostRead (block.blockBase + 0x010) 4)) =
      .next { s with readData := BitVec.ofNat 32 s.result.toNat }

/-- STATUS: the place of every bit as the host reads it, the reserved bits 0, and a write clears DONE, OVERRUN and
ACCERR where it has a 1 and does nothing else (R32). -/
def Obligations.StatusLayoutAndAcknowledge : Prop :=
  State.reset.statusWord = 0 ∧
  ∀ (s : State) (v : BusWord), s.rstN = true →
    (∃ t, step (s.given (.hostRead (block.blockBase + 0x008) 4)) = .next t ∧
      t = { s with readData := t.readData } ∧
      t.readData.getLsbD 0 = s.latch.isSome ∧ t.readData.getLsbD 1 = s.done ∧
      t.readData.getLsbD 2 = decide (s.errcode ≠ 0) ∧ t.readData.getLsbD 3 = s.noKey ∧
      t.readData.getLsbD 4 = s.overrun ∧ t.readData.getLsbD 5 = s.accErr ∧
      t.readData.extractLsb' 6 2 = 0 ∧ t.readData.extractLsb' 8 8 = s.errcode ∧
      t.readData.extractLsb' 16 16 = 0) ∧
    step (s.given (.hostWrite (block.blockBase + 0x008) 4 v)) =
      .next { s with done := if v.getLsbD 1 then false else s.done,
                     overrun := if v.getLsbD 4 then false else s.overrun,
                     accErr := if v.getLsbD 5 then false else s.accErr }

/-- INFO and the four parameter windows read the constants of the scheme, in every state out of reset, and a write to
any of them only sets ACCERR (R42, R44). -/
def Obligations.ConstantsAreReadable : Prop :=
  ∀ (s : State) (k : Fin 8) (v : BusWord), s.rstN = true →
    (∃ t, step (s.given (.hostRead (block.blockBase + 0x014) 4)) = .next t ∧
      t = { s with readData := t.readData } ∧
      (t.readData.extractLsb' 0 16).toNat + 1 = modulusBits block ∧
      (t.readData.extractLsb' 16 16).toNat = modulusBits block) ∧
    step (s.given (.hostWrite (block.blockBase + 0x014) 4 v)) = .next { s with accErr := true } ∧
    ∀ entry ∈ [(0x040, tagCommit block), (0x060, tagEnc block), (0x080, block.gen.x), (0x0A0, block.gen.y)],
      step (s.given (.hostRead (block.blockBase + (entry.1 + 4 * k.val)) 4)) =
        .next { s with readData := BitVec.ofNat 32 (entry.2 / 2 ^ (32 * k.val)) } ∧
      step (s.given (.hostWrite (block.blockBase + (entry.1 + 4 * k.val)) 4 v)) =
        .next { s with accErr := true }

/-- The PREG window reads the coordinates of a point register, or 0 where it is Empty; PVALID reads which registers hold
points, also while a command is latched; writes to either only set ACCERR (R49, R43). -/
def Obligations.PregWindowAndPvalid : Prop :=
  State.reset.pvalidWord = 0 ∧
  ∀ (s : State) (i k : Fin 8) (v : BusWord), s.rstN = true →
    (s.busy = false →
      step (s.given (.hostRead (block.blockBase + (0x200 + 64 * i.val + 4 * k.val)) 4)) =
        .next { s with readData := match s.readP i with
                        | some q => q.x.extractLsb' (32 * k.val) 32
                        | none => 0 } ∧
      step (s.given (.hostRead (block.blockBase + (0x200 + 64 * i.val + 32 + 4 * k.val)) 4)) =
        .next { s with readData := match s.readP i with
                        | some q => q.y.extractLsb' (32 * k.val) 32
                        | none => 0 }) ∧
    step (s.given (.hostWrite (block.blockBase + (0x200 + 64 * i.val + 4 * k.val)) 4 v)) =
      .next { s with accErr := true } ∧
    step (s.given (.hostWrite (block.blockBase + (0x200 + 64 * i.val + 32 + 4 * k.val)) 4 v)) =
      .next { s with accErr := true } ∧
    (∃ t, step (s.given (.hostRead (block.blockBase + 0x018) 4)) = .next t ∧
      t = { s with readData := t.readData } ∧
      t.readData.getLsbD i.val = (s.readP i).isSome ∧ t.readData.extractLsb' 8 24 = 0) ∧
    step (s.given (.hostWrite (block.blockBase + 0x018) 4 v)) = .next { s with accErr := true }

/-- The SREG window while no command is latched: word k of S[i] reads bits 32k+31:32k, and a write replaces exactly
those bits and nothing else (R48). -/
def Obligations.SregWindow : Prop :=
  ∀ (s : State) (i k : Fin 8) (v : BusWord), s.rstN = true → s.busy = false →
    step (s.given (.hostRead (block.blockBase + (0x100 + 32 * i.val + 4 * k.val)) 4)) =
      .next { s with readData := (s.readS i).extractLsb' (32 * k.val) 32 } ∧
    ∃ t, step (s.given (.hostWrite (block.blockBase + (0x100 + 32 * i.val + 4 * k.val)) 4 v)) = .next t ∧
      t = { s with sreg := t.sreg } ∧ (∀ j, j ≠ i → t.readS j = s.readS j) ∧
      ∀ m < 256, (t.readS i).getLsbD m =
        if m / 32 = k.val then v.getLsbD (m % 32) else (s.readS i).getLsbD m

/-- The BMEM window while no command is latched: the word at 0x1000 + 4k is four bytes of BMEM, the first least
significant; a write sets those four and nothing else (R50). -/
def Obligations.BmemWindow : Prop :=
  ∀ (s : State) (k : Nat) (v : BusWord), k < 1024 → s.rstN = true → s.busy = false →
    step (s.given (.hostRead (block.blockBase + (0x1000 + 4 * k)) 4)) =
      .next { s with readData := s.readB block (4 * k + 3) ++ s.readB block (4 * k + 2) ++
                        s.readB block (4 * k + 1) ++ s.readB block (4 * k) } ∧
    ∃ t, step (s.given (.hostWrite (block.blockBase + (0x1000 + 4 * k)) 4 v)) = .next t ∧
      t = { s with mem := t.mem } ∧
      t.readB block (4 * k) = v.extractLsb' 0 8 ∧ t.readB block (4 * k + 1) = v.extractLsb' 8 8 ∧
      t.readB block (4 * k + 2) = v.extractLsb' 16 8 ∧ t.readB block (4 * k + 3) = v.extractLsb' 24 8 ∧
      OtherBytesKept s t (0x1000 + 4 * k) (0x1000 + 4 * k + 4)

/-- The EMEM window while no command is latched: word k of E[i] reads bits 32k+31:32k, and a write replaces exactly
those bits and nothing else (R51). -/
def Obligations.EmemWindow : Prop :=
  ∀ (s : State) (i : Nat) (k : Fin 8) (v : BusWord), i < 256 → s.rstN = true → s.busy = false →
    step (s.given (.hostRead (block.blockBase + (0x2000 + 32 * i + 4 * k.val)) 4)) =
      .next { s with readData := (s.readE block i).extractLsb' (32 * k.val) 32 } ∧
    ∃ t, step (s.given (.hostWrite (block.blockBase + (0x2000 + 32 * i + 4 * k.val)) 4 v)) = .next t ∧
      t = { s with mem := t.mem } ∧
      (∀ m < 256, (t.readE block i).getLsbD m =
        if m / 32 = k.val then v.getLsbD (m % 32) else (s.readE block i).getLsbD m) ∧
      OtherBytesKept s t (0x2000 + 32 * i + 4 * k.val) (0x2000 + 32 * i + 4 * k.val + 4)

/-- An access of a size other than 4, at an offset that is not a multiple of 4, or at a reserved offset: a read returns
0 and a write changes nothing, and either sets ACCERR (R62, R63, R52). -/
def Obligations.BadAccessesSetAccErr : Prop :=
  ∀ (s : State) (off size : Nat) (v : BusWord), s.rstN = true → off < 0x4000 →
    (size ≠ 4 ∨ off % 4 ≠ 0 ∨ 0x01C ≤ off ∧ off < 0x040 ∨ 0x0C0 ≤ off ∧ off < 0x100 ∨
      0x400 ≤ off ∧ off < 0x1000) →
    step (s.given (.hostRead (block.blockBase + off) size)) = .next { s with readData := 0, accErr := true } ∧
    step (s.given (.hostWrite (block.blockBase + off) size v)) = .next { s with accErr := true }

/-- A write to RESULT, INFO, PVALID, a parameter window or the PREG window sets ACCERR and changes nothing else
(R64). -/
def Obligations.ReadOnlyTargetsKeepTheirValue : Prop :=
  ∀ (s : State) (off : Nat) (v : BusWord), s.rstN = true →
    (off = 0x010 ∨ off = 0x014 ∨ off = 0x018 ∨ 0x040 ≤ off ∧ off < 0x0C0 ∨ 0x200 ≤ off ∧ off < 0x400) →
    step (s.given (.hostWrite (block.blockBase + off) 4 v)) = .next { s with accErr := true }

/-- While a command is latched, every access to the data windows reads 0 or writes nothing and sets ACCERR, and an
access to the control page is classified as it is with none latched (R66). -/
def Obligations.BusyLocksDataWindows : Prop :=
  ∀ (s : State) (off size : Nat) (v : BusWord), s.rstN = true → s.busy = true →
    (0x100 ≤ off → off < 0x4000 →
      step (s.given (.hostRead (block.blockBase + off) size)) =
        .next { s with readData := 0, accErr := true } ∧
      step (s.given (.hostWrite (block.blockBase + off) size v)) = .next { s with accErr := true }) ∧
    (off < 0x100 → ∀ write : Bool,
      classify true write (BitVec.ofNat 14 off) size = classify false write (BitVec.ofNat 14 off) size)

/-- No host access, at any address and of any size, changes the latched command, the storage or the outcome registers
while a command is latched (R66, R75, R78, R290). -/
def Obligations.HostCannotDisturbCommand : Prop :=
  ∀ (s t : State) (addr size : Nat) (v : BusWord), s.busy = true →
    (step (s.given (.hostRead addr size)) = .next t → t = { s with readData := t.readData, accErr := t.accErr }) ∧
    (step (s.given (.hostWrite addr size v)) = .next t →
      t = { s with cmdLo := t.cmdLo, cmdHi := t.cmdHi, done := t.done, overrun := t.overrun,
                   accErr := t.accErr, ie := t.ie })

/-- IRQ rises only when a command completes with CTRL.IE set, or when the host sets CTRL.IE with DONE pending; so
neither ACCERR nor OVERRUN raises it (R296, R290). -/
def Obligations.IrqRisesOnlyByCompletionOrEnable : Prop :=
  ∀ s t : State, step s = .next t → s.irq = false → t.irq = true →
    (s.busy = true ∧ t.busy = false ∧ t.done = true ∧ s.ie = true) ∨
    (s.done = true ∧ s.ie = false ∧
      ∃ v, s.inputs.head? = some (.hostWrite (block.blockBase + 0x00C) 4 v) ∧ v.getLsbD 0 = true)

/-! ## Reset -/

/-- RST_N going low abandons the latched command and its RNG request, empties the point registers, and sets the scalar
and control registers to 0; EMEM and BMEM keep their bytes. Power-on leaves the same registers (R320). That the read
data of the host port is kept when RST_N goes low is the model's choice (entry 5, DESIGN CHOICE), not R320's. -/
def Obligations.ResetActionClears : Prop :=
  ∀ s : State,
    (s.rstN = true → step (s.given .rstLow) =
      .next { mem := s.mem, preg := Vector.replicate 8 none, sreg := Vector.replicate 8 0, cmdLo := 0,
              cmdHi := 0, latch := none, done := false, noKey := false, overrun := false, accErr := false,
              errcode := 0, ie := false, result := 0, rng := .idle, rstN := false, readData := s.readData,
              inputs := s.inputs, powerUps := s.powerUps }) ∧
    ∃ t, step (s.given .powerOn) = .next t ∧
      (∀ i, t.readP i = none) ∧ (∀ i, t.readS i = 0) ∧ t.cmdLo = 0 ∧ t.cmdHi = 0 ∧ t.statusWord = 0 ∧
      t.ctrlWord = 0 ∧ t.irq = false ∧ t.resultWord = 0 ∧ t.latch = none ∧ t.rng = .idle

/-- While RST_N is low, host reads of the window return 0, host writes and RNG values are ignored, no command runs, and
when RST_N goes high the block is idle with the state it was held in (R321). -/
def Obligations.DuringResetNothingActs : Prop :=
  ∀ (s : State) (off size : Nat) (v : BusWord) (r : Word), s.rstN = false → s.ControlSound → off < 0x4000 →
    step (s.given (.hostRead (block.blockBase + off) size)) = .next { s with readData := 0 } ∧
    step (s.given (.hostWrite (block.blockBase + off) size v)) = .next s ∧
    step (s.given (.rngDeliver r)) = .next s ∧ step (s.given .engine) = .next s ∧
    step (s.given .rstHigh) = .next { s with rstN := true } ∧ s.busy = false

/-- The reset values the spec gives: Empty points, zero scalars, zero control registers, nothing latched, IRQ low
(R53). -/
def Obligations.ResetStateValues : Prop :=
  (∀ i, State.reset.readP i = none) ∧ (∀ i, State.reset.readS i = 0) ∧ State.reset.cmdLo = 0 ∧
    State.reset.cmdHi = 0 ∧ State.reset.statusWord = 0 ∧ State.reset.ctrlWord = 0 ∧
    State.reset.resultWord = 0 ∧ State.reset.pvalidWord = 0 ∧ State.reset.latch = none ∧
    State.reset.rng = .idle ∧ State.reset.irq = false

/-! ## Invariants -/

/-- The state after reset meets the three invariants below (R25, R53). -/
def Obligations.ResetMeetsInvariants : Prop :=
  State.reset.MemoryCanonical ∧ State.reset.PointsInSubgroup ∧ State.reset.ControlSound

/-- Every step keeps the points in the point registers in G: no command, host access or reset puts another point
there (R25). -/
def Obligations.PointsStayInSubgroup : Prop :=
  ∀ s t : State, s.PointsInSubgroup → step s = .next t → t.PointsInSubgroup

/-- Every step keeps memory in its one canonical form, so that equal contents are equal states. The form is the
model's own (entry 14). -/
def Obligations.MemoryStaysCanonical : Prop :=
  ∀ s t : State, s.MemoryCanonical → step s = .next t → t.MemoryCanonical

/-- Every step keeps the control registers sound: nothing of an earlier command while one is latched, only codes 0 to
8, NONE only without an error, RESULT 0 after an error and at most 4096, an RNG request only for a latched GENSK,
reset values while RST_N is low (R33, R36, R39, R41, R45, R321). -/
def Obligations.ControlStaysSound : Prop :=
  ∀ s t : State, s.ControlSound → step s = .next t → t.ControlSound
end

