-- ==== Sys2Proof/Laws/Memory.lean ====
section
/-! SUPPORT. What the memory operations of Machine/Ops.lean do: read after write, the frame of a write, and the
canonical form. -/

namespace Sys2Proof.Laws

open Sys2Proof.Machine Sys2Proof.Config

theorem find_put (m : Memory) (a b : Nat) (v : Byte) :
    Memory.find (Memory.put m a v) b = if b = a then some v else Memory.find m b := by
  induction m with
  | nil => simp only [Memory.put, Memory.find, eq_comm]
  | cons e m ih =>
    obtain ⟨k, w⟩ := e
    simp only [Memory.put]
    split
    · simp only [Memory.find, eq_comm]
    · split
      · next h => subst h; simp only [Memory.find, eq_comm]; split <;> simp_all
      · next h1 h2 =>
        simp only [Memory.find, ih]
        split
        · next h => subst h; rw [if_neg (fun h => h2 h.symm)]
        · rfl

theorem find_unlist (m : Memory) (a b : Nat) :
    Memory.find (Memory.unlist m a) b = if b = a then none else Memory.find m b := by
  induction m with
  | nil => simp [Memory.unlist, Memory.find]
  | cons e m ih =>
    obtain ⟨k, w⟩ := e
    simp only [Memory.unlist] at ih ⊢
    by_cases hk : k = a
    · subst hk
      rw [List.filter_cons_of_neg (by simp), ih]
      simp only [Memory.find]
      split
      · rfl
      · next h => rw [if_neg (fun h' => h h'.symm)]
    · rw [List.filter_cons_of_pos (by simpa using hk)]
      simp only [Memory.find, ih]
      split
      · next h => subst h; rw [if_neg hk]
      · rfl

/-- Read after write, and the frame of a write: the whole effect of `Memory.write`. -/
theorem read_write (bg : Nat → Byte) (m : Memory) (a b : Nat) (v : Byte) :
    Memory.read bg (Memory.write bg m a v) b = if b = a then v else Memory.read bg m b := by
  unfold Memory.read Memory.write
  split
  · next h =>
    rw [find_unlist]
    split
    · next hb => subst hb; simp [h]
    · rfl
  · rw [find_put]
    split <;> simp

/-- Byte `b` after writing `n` little-endian bytes from `a` on: the whole effect of `Memory.writeLE`. -/
theorem read_writeLE (bg : Nat → Byte) (n : Nat) : ∀ (m : Memory) (a v b : Nat),
    Memory.read bg (Memory.writeLE bg m a n v) b =
      if a ≤ b ∧ b < a + n then BitVec.ofNat 8 (v / 256 ^ (b - a)) else Memory.read bg m b := by
  induction n with
  | zero =>
    intro m a v b
    rw [if_neg (by omega)]
    rfl
  | succ n ih =>
    intro m a v b
    rw [Memory.writeLE, ih, read_write]
    by_cases hb : b = a
    · subst hb
      rw [if_neg (by omega), if_pos rfl, if_pos (by omega)]
      simp
    · rw [if_neg hb]
      by_cases hr : a + 1 ≤ b ∧ b < a + 1 + n
      · rw [if_pos hr, if_pos (by omega), Nat.div_div_eq_div_mul, ← pow_succ',
          show b - (a + 1) + 1 = b - a by omega]
      · rw [if_neg hr, if_neg (by omega)]

/-- A little-endian read depends on the bytes it reads and on nothing else. -/
theorem readLE_congr {bg bg' : Nat → Byte} {m m' : Memory} (n : Nat) : ∀ (a : Nat),
    (∀ b, a ≤ b → b < a + n → Memory.read bg m b = Memory.read bg' m' b) →
    Memory.readLE bg m a n = Memory.readLE bg' m' a n := by
  induction n with
  | zero => intro a _; rfl
  | succ n ih =>
    intro a h
    rw [Memory.readLE, Memory.readLE, h a (by omega) (by omega), ih (a + 1)]
    intro b h1 h2
    exact h b (by omega) (by omega)

theorem readLE_lt (bg : Nat → Byte) (m : Memory) (n : Nat) : ∀ a, Memory.readLE bg m a n < 256 ^ n := by
  induction n with
  | zero => intro a; simp [Memory.readLE]
  | succ n ih =>
    intro a
    have := ih (a + 1)
    have := (Memory.read bg m a).isLt
    rw [Memory.readLE, pow_succ']
    omega

/-- Byte `k` of a little-endian number is the byte it was read from. -/
theorem readLE_byte (bg : Nat → Byte) (m : Memory) (n : Nat) : ∀ (a k : Nat), k < n →
    Memory.readLE bg m a n / 256 ^ k % 256 = (Memory.read bg m (a + k)).toNat := by
  induction n with
  | zero => intro a k h; omega
  | succ n ih =>
    intro a k h
    have hb := (Memory.read bg m a).isLt
    rw [Memory.readLE]
    cases k with
    | zero =>
      rw [pow_zero, Nat.div_one]
      change _ = (Memory.read bg m a).toNat
      omega
    | succ k =>
      rw [pow_succ', ← Nat.div_div_eq_div_mul,
        show ((Memory.read bg m a).toNat + 256 * Memory.readLE bg m (a + 1) n) / 256 =
          Memory.readLE bg m (a + 1) n by omega, ih (a + 1) k (by omega)]
      congr 2
      omega

/-- Reading what was just written. -/
theorem readLE_writeLE (bg : Nat → Byte) (n : Nat) : ∀ (m : Memory) (a v : Nat),
    Memory.readLE bg (Memory.writeLE bg m a n v) a n = v % 256 ^ n := by
  induction n with
  | zero => intro m a v; simp [Memory.readLE, Nat.mod_one]
  | succ n ih =>
    intro m a v
    have h0 : Memory.read bg (Memory.writeLE bg m a (n + 1) v) a = BitVec.ofNat 8 v := by
      rw [read_writeLE, if_pos (by omega)]; simp
    rw [Memory.readLE, h0, Memory.writeLE, ih, pow_succ', BitVec.toNat_ofNat, Nat.mod_mul]

/-- A read that a write does not touch. -/
theorem readLE_writeLE_of_disjoint (bg : Nat → Byte) {m : Memory} {a n v b k : Nat}
    (h : b + k ≤ a ∨ a + n ≤ b) :
    Memory.readLE bg (Memory.writeLE bg m a n v) b k = Memory.readLE bg m b k := by
  apply readLE_congr
  intro x h1 h2
  rw [read_writeLE, if_neg (by omega)]

theorem mem_put {m : Memory} {a : Nat} {v : Byte} {e : Host.Cell} (h : e ∈ Memory.put m a v) :
    e = (a, v) ∨ e ∈ m := by
  induction m with
  | nil => simpa [Memory.put] using h
  | cons f m ih =>
    obtain ⟨k, w⟩ := f
    simp only [Memory.put] at h
    split at h
    · simpa using h
    · split at h
      · simp only [List.mem_cons] at h ⊢
        tauto
      · simp only [List.mem_cons] at h ⊢
        rcases h with h | h
        · exact .inr (.inl h)
        · rcases ih h with h | h
          · exact .inl h
          · exact .inr (.inr h)

theorem put_rising {m : Memory} (a : Nat) (v : Byte) (h : m.Pairwise fun e f => e.1 < f.1) :
    (Memory.put m a v).Pairwise fun e f => e.1 < f.1 := by
  induction m with
  | nil => simp [Memory.put]
  | cons f m ih =>
    obtain ⟨k, w⟩ := f
    obtain ⟨hk, hm⟩ := List.pairwise_cons.mp h
    simp only [Memory.put]
    split
    · next ha =>
      refine List.pairwise_cons.mpr ⟨?_, h⟩
      intro e he
      rcases List.mem_cons.mp he with rfl | he
      · exact ha
      · exact Nat.lt_trans ha (hk e he)
    · split
      · next h2 =>
        subst h2
        exact List.pairwise_cons.mpr ⟨hk, hm⟩
      · next h1 h2 =>
        refine List.pairwise_cons.mpr ⟨?_, ih hm⟩
        intro e he
        rcases mem_put he with rfl | he
        · simp only; omega
        · exact hk e he

/-- A byte write inside the two windows keeps the canonical form. -/
theorem write_wf {bg : Nat → Byte} {m : Memory} {a : Nat} {v : Byte} (h : Memory.wf bg m)
    (h1 : bmemBase ≤ a) (h2 : a < memEnd) : Memory.wf bg (Memory.write bg m a v) := by
  unfold Memory.write
  split
  · refine ⟨h.1.filter _, ?_⟩
    intro e he
    exact h.2 e (List.mem_filter.mp he).1
  · next hv =>
    refine ⟨put_rising a v h.1, ?_⟩
    intro e he
    rcases mem_put he with rfl | he
    · exact ⟨h1, h2, hv⟩
    · exact h.2 e he

/-- A little-endian write inside the two windows keeps the canonical form. -/
theorem writeLE_wf {bg : Nat → Byte} (n : Nat) : ∀ {m : Memory} {a v : Nat}, Memory.wf bg m →
    bmemBase ≤ a → a + n ≤ memEnd → Memory.wf bg (Memory.writeLE bg m a n v) := by
  induction n with
  | zero => intro m a v h _ _; exact h
  | succ n ih =>
    intro m a v h h1 h2
    exact ih (write_wf h h1 (by omega)) (by omega) (by omega)

/-- Two canonical memories that read alike everywhere are equal. -/
theorem wf_ext {bg : Nat → Byte} : ∀ {m m' : Memory}, Memory.wf bg m → Memory.wf bg m' →
    (∀ a, Memory.read bg m a = Memory.read bg m' a) → m = m' := by
  have find_none : ∀ {m : Memory} {a : Nat}, (∀ e ∈ m, a < e.1) → Memory.find m a = none := by
    intro m a
    induction m with
    | nil => intro _; rfl
    | cons e m ih =>
      intro h
      have he := h e (by simp)
      rw [show e = (e.1, e.2) from rfl, Memory.find, if_neg (by omega)]
      exact ih fun f hf => h f (by simp [hf])
  have head_reads : ∀ {m : Memory} {k : Nat} {w : Byte}, Memory.read bg ((k, w) :: m) k = w := by
    intro m k w
    simp [Memory.read, Memory.find]
  intro m
  induction m with
  | nil =>
    intro m' _ h' hr
    cases m' with
    | nil => rfl
    | cons e m' =>
      obtain ⟨k, w⟩ := e
      have := hr k
      rw [head_reads] at this
      exact absurd this.symm (h'.2 (k, w) (by simp)).2.2
  | cons e m ih =>
    obtain ⟨k, w⟩ := e
    intro m' h h' hr
    obtain ⟨hk, hm⟩ := List.pairwise_cons.mp h.1
    cases m' with
    | nil =>
      have := hr k
      rw [head_reads] at this
      exact absurd this (h.2 (k, w) (by simp)).2.2
    | cons e' m' =>
      obtain ⟨k', w'⟩ := e'
      obtain ⟨hk', hm'⟩ := List.pairwise_cons.mp h'.1
      have hkk : k = k' := by
        rcases Nat.lt_trichotomy k k' with hlt | heq | hgt
        · have := hr k
          rw [head_reads, Memory.read, find_none (by
            intro f hf
            rcases List.mem_cons.mp hf with rfl | hf
            · exact hlt
            · exact Nat.lt_trans hlt (hk' f hf))] at this
          exact absurd this (h.2 (k, w) (by simp)).2.2
        · exact heq
        · have := hr k'
          rw [head_reads, Memory.read, find_none (by
            intro f hf
            rcases List.mem_cons.mp hf with rfl | hf
            · exact hgt
            · exact Nat.lt_trans hgt (hk f hf))] at this
          exact absurd this.symm (h'.2 (k', w') (by simp)).2.2
      subst hkk
      have hw : w = w' := by
        have := hr k
        rwa [head_reads, head_reads] at this
      subst hw
      congr 1
      apply ih ⟨hm, fun e he => h.2 e (by simp [he])⟩ ⟨hm', fun e he => h'.2 e (by simp [he])⟩
      intro a
      by_cases ha : a = k
      · subst ha
        simp only [Memory.read]
        rw [find_none hk, find_none hk']
      · have := hr a
        simp only [Memory.read, Memory.find] at this
        rw [if_neg (fun h => ha h.symm), if_neg (fun h => ha h.symm)] at this
        exact this

end Sys2Proof.Laws
end

