-- ==== Sys2Proof/Laws/State.lean ====
section
/-! SUPPORT. Each field of the state after each named update: what the update sets, and that it leaves the
rest alone. -/

namespace Sys2Proof.Laws

open Sys2Proof.Machine Sys2Proof.Config

variable (s : State)

/-! `State.writeBus` -/

@[simp] theorem writeBus_mem (c : Params) (a : Nat) (v : BusWord) :
    (s.writeBus c a v).mem = Memory.writeLE (s.background c) s.mem a 4 v.toNat := rfl
@[simp] theorem writeBus_preg (c : Params) (a : Nat) (v : BusWord) :
    (s.writeBus c a v).preg = s.preg := rfl
@[simp] theorem writeBus_sreg (c : Params) (a : Nat) (v : BusWord) :
    (s.writeBus c a v).sreg = s.sreg := rfl
@[simp] theorem writeBus_cmdLo (c : Params) (a : Nat) (v : BusWord) :
    (s.writeBus c a v).cmdLo = s.cmdLo := rfl
@[simp] theorem writeBus_cmdHi (c : Params) (a : Nat) (v : BusWord) :
    (s.writeBus c a v).cmdHi = s.cmdHi := rfl
@[simp] theorem writeBus_latch (c : Params) (a : Nat) (v : BusWord) :
    (s.writeBus c a v).latch = s.latch := rfl
@[simp] theorem writeBus_done (c : Params) (a : Nat) (v : BusWord) :
    (s.writeBus c a v).done = s.done := rfl
@[simp] theorem writeBus_noKey (c : Params) (a : Nat) (v : BusWord) :
    (s.writeBus c a v).noKey = s.noKey := rfl
@[simp] theorem writeBus_overrun (c : Params) (a : Nat) (v : BusWord) :
    (s.writeBus c a v).overrun = s.overrun := rfl
@[simp] theorem writeBus_accErr (c : Params) (a : Nat) (v : BusWord) :
    (s.writeBus c a v).accErr = s.accErr := rfl
@[simp] theorem writeBus_errcode (c : Params) (a : Nat) (v : BusWord) :
    (s.writeBus c a v).errcode = s.errcode := rfl
@[simp] theorem writeBus_ie (c : Params) (a : Nat) (v : BusWord) :
    (s.writeBus c a v).ie = s.ie := rfl
@[simp] theorem writeBus_result (c : Params) (a : Nat) (v : BusWord) :
    (s.writeBus c a v).result = s.result := rfl
@[simp] theorem writeBus_rng (c : Params) (a : Nat) (v : BusWord) :
    (s.writeBus c a v).rng = s.rng := rfl
@[simp] theorem writeBus_rstN (c : Params) (a : Nat) (v : BusWord) :
    (s.writeBus c a v).rstN = s.rstN := rfl
@[simp] theorem writeBus_readData (c : Params) (a : Nat) (v : BusWord) :
    (s.writeBus c a v).readData = s.readData := rfl
@[simp] theorem writeBus_inputs (c : Params) (a : Nat) (v : BusWord) :
    (s.writeBus c a v).inputs = s.inputs := rfl
@[simp] theorem writeBus_powerUps (c : Params) (a : Nat) (v : BusWord) :
    (s.writeBus c a v).powerUps = s.powerUps := rfl

/-! `State.writeE` -/

@[simp] theorem writeE_mem (c : Params) (i : Nat) (v : Word) :
    (s.writeE c i v).mem = Memory.writeLE (s.background c) s.mem (eAddr i) 32 v.toNat := rfl
@[simp] theorem writeE_preg (c : Params) (i : Nat) (v : Word) :
    (s.writeE c i v).preg = s.preg := rfl
@[simp] theorem writeE_sreg (c : Params) (i : Nat) (v : Word) :
    (s.writeE c i v).sreg = s.sreg := rfl
@[simp] theorem writeE_cmdLo (c : Params) (i : Nat) (v : Word) :
    (s.writeE c i v).cmdLo = s.cmdLo := rfl
@[simp] theorem writeE_cmdHi (c : Params) (i : Nat) (v : Word) :
    (s.writeE c i v).cmdHi = s.cmdHi := rfl
@[simp] theorem writeE_latch (c : Params) (i : Nat) (v : Word) :
    (s.writeE c i v).latch = s.latch := rfl
@[simp] theorem writeE_done (c : Params) (i : Nat) (v : Word) :
    (s.writeE c i v).done = s.done := rfl
@[simp] theorem writeE_noKey (c : Params) (i : Nat) (v : Word) :
    (s.writeE c i v).noKey = s.noKey := rfl
@[simp] theorem writeE_overrun (c : Params) (i : Nat) (v : Word) :
    (s.writeE c i v).overrun = s.overrun := rfl
@[simp] theorem writeE_accErr (c : Params) (i : Nat) (v : Word) :
    (s.writeE c i v).accErr = s.accErr := rfl
@[simp] theorem writeE_errcode (c : Params) (i : Nat) (v : Word) :
    (s.writeE c i v).errcode = s.errcode := rfl
@[simp] theorem writeE_ie (c : Params) (i : Nat) (v : Word) : (s.writeE c i v).ie = s.ie := rfl
@[simp] theorem writeE_result (c : Params) (i : Nat) (v : Word) :
    (s.writeE c i v).result = s.result := rfl
@[simp] theorem writeE_rng (c : Params) (i : Nat) (v : Word) : (s.writeE c i v).rng = s.rng := rfl
@[simp] theorem writeE_rstN (c : Params) (i : Nat) (v : Word) :
    (s.writeE c i v).rstN = s.rstN := rfl
@[simp] theorem writeE_readData (c : Params) (i : Nat) (v : Word) :
    (s.writeE c i v).readData = s.readData := rfl
@[simp] theorem writeE_inputs (c : Params) (i : Nat) (v : Word) :
    (s.writeE c i v).inputs = s.inputs := rfl
@[simp] theorem writeE_powerUps (c : Params) (i : Nat) (v : Word) :
    (s.writeE c i v).powerUps = s.powerUps := rfl

/-! `State.writeB` -/

@[simp] theorem writeB_mem (c : Params) (i : Nat) (v : Byte) :
    (s.writeB c i v).mem = Memory.write (s.background c) s.mem (bAddr i) v := rfl
@[simp] theorem writeB_preg (c : Params) (i : Nat) (v : Byte) :
    (s.writeB c i v).preg = s.preg := rfl
@[simp] theorem writeB_sreg (c : Params) (i : Nat) (v : Byte) :
    (s.writeB c i v).sreg = s.sreg := rfl
@[simp] theorem writeB_cmdLo (c : Params) (i : Nat) (v : Byte) :
    (s.writeB c i v).cmdLo = s.cmdLo := rfl
@[simp] theorem writeB_cmdHi (c : Params) (i : Nat) (v : Byte) :
    (s.writeB c i v).cmdHi = s.cmdHi := rfl
@[simp] theorem writeB_latch (c : Params) (i : Nat) (v : Byte) :
    (s.writeB c i v).latch = s.latch := rfl
@[simp] theorem writeB_done (c : Params) (i : Nat) (v : Byte) :
    (s.writeB c i v).done = s.done := rfl
@[simp] theorem writeB_noKey (c : Params) (i : Nat) (v : Byte) :
    (s.writeB c i v).noKey = s.noKey := rfl
@[simp] theorem writeB_overrun (c : Params) (i : Nat) (v : Byte) :
    (s.writeB c i v).overrun = s.overrun := rfl
@[simp] theorem writeB_accErr (c : Params) (i : Nat) (v : Byte) :
    (s.writeB c i v).accErr = s.accErr := rfl
@[simp] theorem writeB_errcode (c : Params) (i : Nat) (v : Byte) :
    (s.writeB c i v).errcode = s.errcode := rfl
@[simp] theorem writeB_ie (c : Params) (i : Nat) (v : Byte) : (s.writeB c i v).ie = s.ie := rfl
@[simp] theorem writeB_result (c : Params) (i : Nat) (v : Byte) :
    (s.writeB c i v).result = s.result := rfl
@[simp] theorem writeB_rng (c : Params) (i : Nat) (v : Byte) : (s.writeB c i v).rng = s.rng := rfl
@[simp] theorem writeB_rstN (c : Params) (i : Nat) (v : Byte) :
    (s.writeB c i v).rstN = s.rstN := rfl
@[simp] theorem writeB_readData (c : Params) (i : Nat) (v : Byte) :
    (s.writeB c i v).readData = s.readData := rfl
@[simp] theorem writeB_inputs (c : Params) (i : Nat) (v : Byte) :
    (s.writeB c i v).inputs = s.inputs := rfl
@[simp] theorem writeB_powerUps (c : Params) (i : Nat) (v : Byte) :
    (s.writeB c i v).powerUps = s.powerUps := rfl

/-! `State.writeP` -/

@[simp] theorem writeP_mem (i : Fin 8) (q : Point) : (s.writeP i q).mem = s.mem := rfl
@[simp] theorem writeP_preg (i : Fin 8) (q : Point) :
    (s.writeP i q).preg = s.preg.set i (some q) := rfl
@[simp] theorem writeP_sreg (i : Fin 8) (q : Point) : (s.writeP i q).sreg = s.sreg := rfl
@[simp] theorem writeP_cmdLo (i : Fin 8) (q : Point) : (s.writeP i q).cmdLo = s.cmdLo := rfl
@[simp] theorem writeP_cmdHi (i : Fin 8) (q : Point) : (s.writeP i q).cmdHi = s.cmdHi := rfl
@[simp] theorem writeP_latch (i : Fin 8) (q : Point) : (s.writeP i q).latch = s.latch := rfl
@[simp] theorem writeP_done (i : Fin 8) (q : Point) : (s.writeP i q).done = s.done := rfl
@[simp] theorem writeP_noKey (i : Fin 8) (q : Point) : (s.writeP i q).noKey = s.noKey := rfl
@[simp] theorem writeP_overrun (i : Fin 8) (q : Point) : (s.writeP i q).overrun = s.overrun := rfl
@[simp] theorem writeP_accErr (i : Fin 8) (q : Point) : (s.writeP i q).accErr = s.accErr := rfl
@[simp] theorem writeP_errcode (i : Fin 8) (q : Point) : (s.writeP i q).errcode = s.errcode := rfl
@[simp] theorem writeP_ie (i : Fin 8) (q : Point) : (s.writeP i q).ie = s.ie := rfl
@[simp] theorem writeP_result (i : Fin 8) (q : Point) : (s.writeP i q).result = s.result := rfl
@[simp] theorem writeP_rng (i : Fin 8) (q : Point) : (s.writeP i q).rng = s.rng := rfl
@[simp] theorem writeP_rstN (i : Fin 8) (q : Point) : (s.writeP i q).rstN = s.rstN := rfl
@[simp] theorem writeP_readData (i : Fin 8) (q : Point) :
    (s.writeP i q).readData = s.readData := rfl
@[simp] theorem writeP_inputs (i : Fin 8) (q : Point) : (s.writeP i q).inputs = s.inputs := rfl
@[simp] theorem writeP_powerUps (i : Fin 8) (q : Point) :
    (s.writeP i q).powerUps = s.powerUps := rfl

/-! `State.writeS` -/

@[simp] theorem writeS_mem (i : Fin 8) (v : Word) : (s.writeS i v).mem = s.mem := rfl
@[simp] theorem writeS_preg (i : Fin 8) (v : Word) : (s.writeS i v).preg = s.preg := rfl
@[simp] theorem writeS_sreg (i : Fin 8) (v : Word) : (s.writeS i v).sreg = s.sreg.set i v := rfl
@[simp] theorem writeS_cmdLo (i : Fin 8) (v : Word) : (s.writeS i v).cmdLo = s.cmdLo := rfl
@[simp] theorem writeS_cmdHi (i : Fin 8) (v : Word) : (s.writeS i v).cmdHi = s.cmdHi := rfl
@[simp] theorem writeS_latch (i : Fin 8) (v : Word) : (s.writeS i v).latch = s.latch := rfl
@[simp] theorem writeS_done (i : Fin 8) (v : Word) : (s.writeS i v).done = s.done := rfl
@[simp] theorem writeS_noKey (i : Fin 8) (v : Word) : (s.writeS i v).noKey = s.noKey := rfl
@[simp] theorem writeS_overrun (i : Fin 8) (v : Word) : (s.writeS i v).overrun = s.overrun := rfl
@[simp] theorem writeS_accErr (i : Fin 8) (v : Word) : (s.writeS i v).accErr = s.accErr := rfl
@[simp] theorem writeS_errcode (i : Fin 8) (v : Word) : (s.writeS i v).errcode = s.errcode := rfl
@[simp] theorem writeS_ie (i : Fin 8) (v : Word) : (s.writeS i v).ie = s.ie := rfl
@[simp] theorem writeS_result (i : Fin 8) (v : Word) : (s.writeS i v).result = s.result := rfl
@[simp] theorem writeS_rng (i : Fin 8) (v : Word) : (s.writeS i v).rng = s.rng := rfl
@[simp] theorem writeS_rstN (i : Fin 8) (v : Word) : (s.writeS i v).rstN = s.rstN := rfl
@[simp] theorem writeS_readData (i : Fin 8) (v : Word) : (s.writeS i v).readData = s.readData := rfl
@[simp] theorem writeS_inputs (i : Fin 8) (v : Word) : (s.writeS i v).inputs = s.inputs := rfl
@[simp] theorem writeS_powerUps (i : Fin 8) (v : Word) : (s.writeS i v).powerUps = s.powerUps := rfl

/-! `State.setNoKey` -/

@[simp] theorem setNoKey_mem : s.setNoKey.mem = s.mem := rfl
@[simp] theorem setNoKey_preg : s.setNoKey.preg = s.preg := rfl
@[simp] theorem setNoKey_sreg : s.setNoKey.sreg = s.sreg := rfl
@[simp] theorem setNoKey_cmdLo : s.setNoKey.cmdLo = s.cmdLo := rfl
@[simp] theorem setNoKey_cmdHi : s.setNoKey.cmdHi = s.cmdHi := rfl
@[simp] theorem setNoKey_latch : s.setNoKey.latch = s.latch := rfl
@[simp] theorem setNoKey_done : s.setNoKey.done = s.done := rfl
@[simp] theorem setNoKey_noKey : s.setNoKey.noKey = true := rfl
@[simp] theorem setNoKey_overrun : s.setNoKey.overrun = s.overrun := rfl
@[simp] theorem setNoKey_accErr : s.setNoKey.accErr = s.accErr := rfl
@[simp] theorem setNoKey_errcode : s.setNoKey.errcode = s.errcode := rfl
@[simp] theorem setNoKey_ie : s.setNoKey.ie = s.ie := rfl
@[simp] theorem setNoKey_result : s.setNoKey.result = s.result := rfl
@[simp] theorem setNoKey_rng : s.setNoKey.rng = s.rng := rfl
@[simp] theorem setNoKey_rstN : s.setNoKey.rstN = s.rstN := rfl
@[simp] theorem setNoKey_readData : s.setNoKey.readData = s.readData := rfl
@[simp] theorem setNoKey_inputs : s.setNoKey.inputs = s.inputs := rfl
@[simp] theorem setNoKey_powerUps : s.setNoKey.powerUps = s.powerUps := rfl

/-! `State.setResult` -/

@[simp] theorem setResult_mem (k : Nat) : (s.setResult k).mem = s.mem := rfl
@[simp] theorem setResult_preg (k : Nat) : (s.setResult k).preg = s.preg := rfl
@[simp] theorem setResult_sreg (k : Nat) : (s.setResult k).sreg = s.sreg := rfl
@[simp] theorem setResult_cmdLo (k : Nat) : (s.setResult k).cmdLo = s.cmdLo := rfl
@[simp] theorem setResult_cmdHi (k : Nat) : (s.setResult k).cmdHi = s.cmdHi := rfl
@[simp] theorem setResult_latch (k : Nat) : (s.setResult k).latch = s.latch := rfl
@[simp] theorem setResult_done (k : Nat) : (s.setResult k).done = s.done := rfl
@[simp] theorem setResult_noKey (k : Nat) : (s.setResult k).noKey = s.noKey := rfl
@[simp] theorem setResult_overrun (k : Nat) : (s.setResult k).overrun = s.overrun := rfl
@[simp] theorem setResult_accErr (k : Nat) : (s.setResult k).accErr = s.accErr := rfl
@[simp] theorem setResult_errcode (k : Nat) : (s.setResult k).errcode = s.errcode := rfl
@[simp] theorem setResult_ie (k : Nat) : (s.setResult k).ie = s.ie := rfl
@[simp] theorem setResult_result (k : Nat) : (s.setResult k).result = BitVec.ofNat 13 k := rfl
@[simp] theorem setResult_rng (k : Nat) : (s.setResult k).rng = s.rng := rfl
@[simp] theorem setResult_rstN (k : Nat) : (s.setResult k).rstN = s.rstN := rfl
@[simp] theorem setResult_readData (k : Nat) : (s.setResult k).readData = s.readData := rfl
@[simp] theorem setResult_inputs (k : Nat) : (s.setResult k).inputs = s.inputs := rfl
@[simp] theorem setResult_powerUps (k : Nat) : (s.setResult k).powerUps = s.powerUps := rfl

/-! `State.requestRng` -/

@[simp] theorem requestRng_mem : s.requestRng.mem = s.mem := rfl
@[simp] theorem requestRng_preg : s.requestRng.preg = s.preg := rfl
@[simp] theorem requestRng_sreg : s.requestRng.sreg = s.sreg := rfl
@[simp] theorem requestRng_cmdLo : s.requestRng.cmdLo = s.cmdLo := rfl
@[simp] theorem requestRng_cmdHi : s.requestRng.cmdHi = s.cmdHi := rfl
@[simp] theorem requestRng_latch : s.requestRng.latch = s.latch := rfl
@[simp] theorem requestRng_done : s.requestRng.done = s.done := rfl
@[simp] theorem requestRng_noKey : s.requestRng.noKey = s.noKey := rfl
@[simp] theorem requestRng_overrun : s.requestRng.overrun = s.overrun := rfl
@[simp] theorem requestRng_accErr : s.requestRng.accErr = s.accErr := rfl
@[simp] theorem requestRng_errcode : s.requestRng.errcode = s.errcode := rfl
@[simp] theorem requestRng_ie : s.requestRng.ie = s.ie := rfl
@[simp] theorem requestRng_result : s.requestRng.result = s.result := rfl
@[simp] theorem requestRng_rng : s.requestRng.rng = .requested := rfl
@[simp] theorem requestRng_rstN : s.requestRng.rstN = s.rstN := rfl
@[simp] theorem requestRng_readData : s.requestRng.readData = s.readData := rfl
@[simp] theorem requestRng_inputs : s.requestRng.inputs = s.inputs := rfl
@[simp] theorem requestRng_powerUps : s.requestRng.powerUps = s.powerUps := rfl

/-! `State.issue` -/

@[simp] theorem issue_mem : s.issue.mem = s.mem := rfl
@[simp] theorem issue_preg : s.issue.preg = s.preg := rfl
@[simp] theorem issue_sreg : s.issue.sreg = s.sreg := rfl
@[simp] theorem issue_cmdLo : s.issue.cmdLo = s.cmdLo := rfl
@[simp] theorem issue_cmdHi : s.issue.cmdHi = s.cmdHi := rfl
@[simp] theorem issue_latch : s.issue.latch = some (s.cmdHi ++ s.cmdLo) := rfl
@[simp] theorem issue_done : s.issue.done = false := rfl
@[simp] theorem issue_noKey : s.issue.noKey = false := rfl
@[simp] theorem issue_overrun : s.issue.overrun = s.overrun := rfl
@[simp] theorem issue_accErr : s.issue.accErr = s.accErr := rfl
@[simp] theorem issue_errcode : s.issue.errcode = 0 := rfl
@[simp] theorem issue_ie : s.issue.ie = s.ie := rfl
@[simp] theorem issue_result : s.issue.result = 0 := rfl
@[simp] theorem issue_rng : s.issue.rng = s.rng := rfl
@[simp] theorem issue_rstN : s.issue.rstN = s.rstN := rfl
@[simp] theorem issue_readData : s.issue.readData = s.readData := rfl
@[simp] theorem issue_inputs : s.issue.inputs = s.inputs := rfl
@[simp] theorem issue_powerUps : s.issue.powerUps = s.powerUps := rfl

/-! `State.finish` -/

@[simp] theorem finish_mem (code : BitVec 8) : (s.finish code).mem = s.mem := rfl
@[simp] theorem finish_preg (code : BitVec 8) : (s.finish code).preg = s.preg := rfl
@[simp] theorem finish_sreg (code : BitVec 8) : (s.finish code).sreg = s.sreg := rfl
@[simp] theorem finish_cmdLo (code : BitVec 8) : (s.finish code).cmdLo = s.cmdLo := rfl
@[simp] theorem finish_cmdHi (code : BitVec 8) : (s.finish code).cmdHi = s.cmdHi := rfl
@[simp] theorem finish_latch (code : BitVec 8) : (s.finish code).latch = none := rfl
@[simp] theorem finish_done (code : BitVec 8) : (s.finish code).done = true := rfl
@[simp] theorem finish_noKey (code : BitVec 8) : (s.finish code).noKey = s.noKey := rfl
@[simp] theorem finish_overrun (code : BitVec 8) : (s.finish code).overrun = s.overrun := rfl
@[simp] theorem finish_accErr (code : BitVec 8) : (s.finish code).accErr = s.accErr := rfl
@[simp] theorem finish_errcode (code : BitVec 8) : (s.finish code).errcode = code := rfl
@[simp] theorem finish_ie (code : BitVec 8) : (s.finish code).ie = s.ie := rfl
@[simp] theorem finish_result (code : BitVec 8) : (s.finish code).result = s.result := rfl
@[simp] theorem finish_rng (code : BitVec 8) : (s.finish code).rng = .idle := rfl
@[simp] theorem finish_rstN (code : BitVec 8) : (s.finish code).rstN = s.rstN := rfl
@[simp] theorem finish_readData (code : BitVec 8) : (s.finish code).readData = s.readData := rfl
@[simp] theorem finish_inputs (code : BitVec 8) : (s.finish code).inputs = s.inputs := rfl
@[simp] theorem finish_powerUps (code : BitVec 8) : (s.finish code).powerUps = s.powerUps := rfl

/-! `State.ackStatus` -/

@[simp] theorem ackStatus_mem (v : BusWord) : (s.ackStatus v).mem = s.mem := rfl
@[simp] theorem ackStatus_preg (v : BusWord) : (s.ackStatus v).preg = s.preg := rfl
@[simp] theorem ackStatus_sreg (v : BusWord) : (s.ackStatus v).sreg = s.sreg := rfl
@[simp] theorem ackStatus_cmdLo (v : BusWord) : (s.ackStatus v).cmdLo = s.cmdLo := rfl
@[simp] theorem ackStatus_cmdHi (v : BusWord) : (s.ackStatus v).cmdHi = s.cmdHi := rfl
@[simp] theorem ackStatus_latch (v : BusWord) : (s.ackStatus v).latch = s.latch := rfl
@[simp] theorem ackStatus_done (v : BusWord) :
    (s.ackStatus v).done = (s.done && !v.getLsbD 1) := rfl
@[simp] theorem ackStatus_noKey (v : BusWord) : (s.ackStatus v).noKey = s.noKey := rfl
@[simp] theorem ackStatus_overrun (v : BusWord) :
    (s.ackStatus v).overrun = (s.overrun && !v.getLsbD 4) := rfl
@[simp] theorem ackStatus_accErr (v : BusWord) :
    (s.ackStatus v).accErr = (s.accErr && !v.getLsbD 5) := rfl
@[simp] theorem ackStatus_errcode (v : BusWord) : (s.ackStatus v).errcode = s.errcode := rfl
@[simp] theorem ackStatus_ie (v : BusWord) : (s.ackStatus v).ie = s.ie := rfl
@[simp] theorem ackStatus_result (v : BusWord) : (s.ackStatus v).result = s.result := rfl
@[simp] theorem ackStatus_rng (v : BusWord) : (s.ackStatus v).rng = s.rng := rfl
@[simp] theorem ackStatus_rstN (v : BusWord) : (s.ackStatus v).rstN = s.rstN := rfl
@[simp] theorem ackStatus_readData (v : BusWord) : (s.ackStatus v).readData = s.readData := rfl
@[simp] theorem ackStatus_inputs (v : BusWord) : (s.ackStatus v).inputs = s.inputs := rfl
@[simp] theorem ackStatus_powerUps (v : BusWord) : (s.ackStatus v).powerUps = s.powerUps := rfl

/-! `State.setAccErr` -/

@[simp] theorem setAccErr_mem : s.setAccErr.mem = s.mem := rfl
@[simp] theorem setAccErr_preg : s.setAccErr.preg = s.preg := rfl
@[simp] theorem setAccErr_sreg : s.setAccErr.sreg = s.sreg := rfl
@[simp] theorem setAccErr_cmdLo : s.setAccErr.cmdLo = s.cmdLo := rfl
@[simp] theorem setAccErr_cmdHi : s.setAccErr.cmdHi = s.cmdHi := rfl
@[simp] theorem setAccErr_latch : s.setAccErr.latch = s.latch := rfl
@[simp] theorem setAccErr_done : s.setAccErr.done = s.done := rfl
@[simp] theorem setAccErr_noKey : s.setAccErr.noKey = s.noKey := rfl
@[simp] theorem setAccErr_overrun : s.setAccErr.overrun = s.overrun := rfl
@[simp] theorem setAccErr_accErr : s.setAccErr.accErr = true := rfl
@[simp] theorem setAccErr_errcode : s.setAccErr.errcode = s.errcode := rfl
@[simp] theorem setAccErr_ie : s.setAccErr.ie = s.ie := rfl
@[simp] theorem setAccErr_result : s.setAccErr.result = s.result := rfl
@[simp] theorem setAccErr_rng : s.setAccErr.rng = s.rng := rfl
@[simp] theorem setAccErr_rstN : s.setAccErr.rstN = s.rstN := rfl
@[simp] theorem setAccErr_readData : s.setAccErr.readData = s.readData := rfl
@[simp] theorem setAccErr_inputs : s.setAccErr.inputs = s.inputs := rfl
@[simp] theorem setAccErr_powerUps : s.setAccErr.powerUps = s.powerUps := rfl

/-! `State.setReadData` -/

@[simp] theorem setReadData_mem (v : BusWord) : (s.setReadData v).mem = s.mem := rfl
@[simp] theorem setReadData_preg (v : BusWord) : (s.setReadData v).preg = s.preg := rfl
@[simp] theorem setReadData_sreg (v : BusWord) : (s.setReadData v).sreg = s.sreg := rfl
@[simp] theorem setReadData_cmdLo (v : BusWord) : (s.setReadData v).cmdLo = s.cmdLo := rfl
@[simp] theorem setReadData_cmdHi (v : BusWord) : (s.setReadData v).cmdHi = s.cmdHi := rfl
@[simp] theorem setReadData_latch (v : BusWord) : (s.setReadData v).latch = s.latch := rfl
@[simp] theorem setReadData_done (v : BusWord) : (s.setReadData v).done = s.done := rfl
@[simp] theorem setReadData_noKey (v : BusWord) : (s.setReadData v).noKey = s.noKey := rfl
@[simp] theorem setReadData_overrun (v : BusWord) : (s.setReadData v).overrun = s.overrun := rfl
@[simp] theorem setReadData_accErr (v : BusWord) : (s.setReadData v).accErr = s.accErr := rfl
@[simp] theorem setReadData_errcode (v : BusWord) : (s.setReadData v).errcode = s.errcode := rfl
@[simp] theorem setReadData_ie (v : BusWord) : (s.setReadData v).ie = s.ie := rfl
@[simp] theorem setReadData_result (v : BusWord) : (s.setReadData v).result = s.result := rfl
@[simp] theorem setReadData_rng (v : BusWord) : (s.setReadData v).rng = s.rng := rfl
@[simp] theorem setReadData_rstN (v : BusWord) : (s.setReadData v).rstN = s.rstN := rfl
@[simp] theorem setReadData_readData (v : BusWord) : (s.setReadData v).readData = v := rfl
@[simp] theorem setReadData_inputs (v : BusWord) : (s.setReadData v).inputs = s.inputs := rfl
@[simp] theorem setReadData_powerUps (v : BusWord) : (s.setReadData v).powerUps = s.powerUps := rfl

/-! `State.rstRise` -/

@[simp] theorem rstRise_mem : s.rstRise.mem = s.mem := rfl
@[simp] theorem rstRise_preg : s.rstRise.preg = s.preg := rfl
@[simp] theorem rstRise_sreg : s.rstRise.sreg = s.sreg := rfl
@[simp] theorem rstRise_cmdLo : s.rstRise.cmdLo = s.cmdLo := rfl
@[simp] theorem rstRise_cmdHi : s.rstRise.cmdHi = s.cmdHi := rfl
@[simp] theorem rstRise_latch : s.rstRise.latch = s.latch := rfl
@[simp] theorem rstRise_done : s.rstRise.done = s.done := rfl
@[simp] theorem rstRise_noKey : s.rstRise.noKey = s.noKey := rfl
@[simp] theorem rstRise_overrun : s.rstRise.overrun = s.overrun := rfl
@[simp] theorem rstRise_accErr : s.rstRise.accErr = s.accErr := rfl
@[simp] theorem rstRise_errcode : s.rstRise.errcode = s.errcode := rfl
@[simp] theorem rstRise_ie : s.rstRise.ie = s.ie := rfl
@[simp] theorem rstRise_result : s.rstRise.result = s.result := rfl
@[simp] theorem rstRise_rng : s.rstRise.rng = s.rng := rfl
@[simp] theorem rstRise_rstN : s.rstRise.rstN = true := rfl
@[simp] theorem rstRise_readData : s.rstRise.readData = s.readData := rfl
@[simp] theorem rstRise_inputs : s.rstRise.inputs = s.inputs := rfl
@[simp] theorem rstRise_powerUps : s.rstRise.powerUps = s.powerUps := rfl

/-! `State.resetAction` -/

@[simp] theorem resetAction_mem : s.resetAction.mem = s.mem := rfl
@[simp] theorem resetAction_preg : s.resetAction.preg = Vector.replicate 8 none := rfl
@[simp] theorem resetAction_sreg : s.resetAction.sreg = Vector.replicate 8 0 := rfl
@[simp] theorem resetAction_cmdLo : s.resetAction.cmdLo = 0 := rfl
@[simp] theorem resetAction_cmdHi : s.resetAction.cmdHi = 0 := rfl
@[simp] theorem resetAction_latch : s.resetAction.latch = none := rfl
@[simp] theorem resetAction_done : s.resetAction.done = false := rfl
@[simp] theorem resetAction_noKey : s.resetAction.noKey = false := rfl
@[simp] theorem resetAction_overrun : s.resetAction.overrun = false := rfl
@[simp] theorem resetAction_accErr : s.resetAction.accErr = false := rfl
@[simp] theorem resetAction_errcode : s.resetAction.errcode = 0 := rfl
@[simp] theorem resetAction_ie : s.resetAction.ie = false := rfl
@[simp] theorem resetAction_result : s.resetAction.result = 0 := rfl
@[simp] theorem resetAction_rng : s.resetAction.rng = .idle := rfl
@[simp] theorem resetAction_rstN : s.resetAction.rstN = s.rstN := rfl
@[simp] theorem resetAction_readData : s.resetAction.readData = s.readData := rfl
@[simp] theorem resetAction_inputs : s.resetAction.inputs = s.inputs := rfl
@[simp] theorem resetAction_powerUps : s.resetAction.powerUps = s.powerUps := rfl

/-! `State.powerOn` -/

@[simp] theorem powerOn_mem : s.powerOn.mem = [] := rfl
@[simp] theorem powerOn_preg : s.powerOn.preg = Vector.replicate 8 none := rfl
@[simp] theorem powerOn_sreg : s.powerOn.sreg = Vector.replicate 8 0 := rfl
@[simp] theorem powerOn_cmdLo : s.powerOn.cmdLo = 0 := rfl
@[simp] theorem powerOn_cmdHi : s.powerOn.cmdHi = 0 := rfl
@[simp] theorem powerOn_latch : s.powerOn.latch = none := rfl
@[simp] theorem powerOn_done : s.powerOn.done = false := rfl
@[simp] theorem powerOn_noKey : s.powerOn.noKey = false := rfl
@[simp] theorem powerOn_overrun : s.powerOn.overrun = false := rfl
@[simp] theorem powerOn_accErr : s.powerOn.accErr = false := rfl
@[simp] theorem powerOn_errcode : s.powerOn.errcode = 0 := rfl
@[simp] theorem powerOn_ie : s.powerOn.ie = false := rfl
@[simp] theorem powerOn_result : s.powerOn.result = 0 := rfl
@[simp] theorem powerOn_rng : s.powerOn.rng = .idle := rfl
@[simp] theorem powerOn_rstN : s.powerOn.rstN = s.rstN := rfl
@[simp] theorem powerOn_readData : s.powerOn.readData = s.readData := rfl
@[simp] theorem powerOn_inputs : s.powerOn.inputs = s.inputs := rfl
@[simp] theorem powerOn_powerUps : s.powerOn.powerUps = s.powerUps + 1 := rfl

end Sys2Proof.Laws
end

