-- ==== Sys2Proof/Laws/Ops.lean ====
section
/-! SUPPORT. What each shared operation over registers, memory and operands can answer. -/

namespace Sys2Proof.Laws

open Sys2Proof.Machine Sys2Proof.Config

/-! Raising an error and going on -/

@[simp] theorem ok_bind {α β : Type} (a : α) (f : α → Except ErrCode β) :
    (Except.ok a >>= f) = f a := rfl

@[simp] theorem error_bind {α β : Type} (e : ErrCode) (f : α → Except ErrCode β) :
    ((Except.error e : Except ErrCode α) >>= f) = .error e := rfl

@[simp] theorem pure_eq_ok {α : Type} (a : α) : (pure a : Except ErrCode α) = .ok a := rfl

/-- A sequence of operand checks answers only what its last part answers. -/
theorem bind_eq_ok {α β : Type} {x : Except ErrCode α} {f : α → Except ErrCode β} {b : β}
    (h : (x >>= f) = .ok b) : ∃ a, x = .ok a ∧ f a = .ok b := by
  cases x with
  | error e => cases h
  | ok a => exact ⟨a, rfl, h⟩

theorem bind_eq_error {α β : Type} {x : Except ErrCode α} {f : α → Except ErrCode β} {e : ErrCode}
    (h : (x >>= f) = .error e) : x = .error e ∨ ∃ a, x = .ok a ∧ f a = .error e := by
  cases x with
  | error e' =>
    cases h
    exact .inl rfl
  | ok a => exact .inr ⟨a, rfl, h⟩

@[simp] theorem complete_error (s : State) (e : ErrCode) :
    s.complete (.error e) = s.finish (errNumber e) := rfl

@[simp] theorem complete_ok (s t : State) : s.complete (.ok t) = t.finish 0 := rfl

theorem require_eq (b : Bool) (e : ErrCode) :
    require b e = if b then .ok () else .error e := rfl

theorem regIndex_of_lt {f : BitVec 8} (h : f.toNat < 8) : regIndex f = .ok ⟨f.toNat, h⟩ := dif_pos h

theorem regIndex_of_ge {f : BitVec 8} (h : ¬f.toNat < 8) : regIndex f = .error .operand := dif_neg h

theorem requireRange_of_fits {b : EField} {n : CountField} (h : b.toNat + n.toNat ≤ 256) :
    requireRange b n = .ok () := by
  rw [requireRange, require_eq, if_pos]
  simp
  omega

theorem requireRange_of_not {b : EField} {n : CountField} (h : ¬b.toNat + n.toNat ≤ 256) :
    requireRange b n = .error .operand := by
  rw [requireRange, require_eq, if_neg]
  simp
  omega

theorem readPoint_eq (s : State) (i : Fin 8) :
    readPoint s i = match s.readP i with
      | some q => .ok q
      | none => .error .emptyPoint := rfl

theorem readPoint_some {s : State} {i : Fin 8} {q : Point} (h : s.readP i = some q) :
    readPoint s i = .ok q := by rw [readPoint_eq, h]

theorem readPoint_none {s : State} {i : Fin 8} (h : s.readP i = none) :
    readPoint s i = .error .emptyPoint := by rw [readPoint_eq, h]

theorem readScalar_of_lt {c : Params} {s : State} {i : Fin 8} (h : (s.readS i).toNat < c.n) :
    readScalar c s i = .ok (s.readS i).toNat := if_pos h

theorem readScalar_of_ge {c : Params} {s : State} {i : Fin 8} (h : ¬(s.readS i).toNat < c.n) :
    readScalar c s i = .error .nonCanonical := if_neg h

theorem readElem_of_lt {c : Params} {s : State} {i : Nat} (h : (s.readE c i).toNat < c.p) :
    readElem c s i = .ok (s.readE c i).toNat := by rw [readElem, if_pos h]

theorem readElem_of_ge {c : Params} {s : State} {i : Nat} (h : ¬(s.readE c i).toNat < c.p) :
    readElem c s i = .error .nonCanonical := by rw [readElem, if_neg h]

/-- All elements canonical: the sequence is read as it stands (R69). -/
theorem readElems_of_lt {c : Params} {s : State} (n : Nat) : ∀ {i : Nat},
    (∀ k < n, (s.readE c (i + k)).toNat < c.p) →
    readElems c s i n = .ok ((List.range n).map fun k => (s.readE c (i + k)).toNat) := by
  induction n with
  | zero => intro i _; rfl
  | succ n ih =>
    intro i h
    have h0 : (s.readE c i).toNat < c.p := by
      have := h 0 (Nat.succ_pos n)
      rwa [Nat.add_zero] at this
    have hshift : ∀ k, i + 1 + k = i + (k + 1) := fun k => by omega
    have ht := ih (i := i + 1) fun k hk => by
      rw [hshift]
      exact h (k + 1) (Nat.succ_lt_succ hk)
    rw [readElems, readElem_of_lt h0, ok_bind, ht, ok_bind, pure_eq_ok, List.range_succ_eq_map,
      List.map_cons, List.map_map]
    simp only [Function.comp_def, hshift, Nat.add_zero, Nat.succ_eq_add_one]

/-- Some element not canonical: E_NONCANONICAL, whichever it is (R284). -/
theorem readElems_of_ge {c : Params} {s : State} (n : Nat) : ∀ {i : Nat},
    (∃ k < n, ¬(s.readE c (i + k)).toNat < c.p) → readElems c s i n = .error .nonCanonical := by
  induction n with
  | zero => rintro i ⟨k, hk, -⟩; omega
  | succ n ih =>
    rintro i ⟨k, hk, hbad⟩
    rw [readElems]
    by_cases h0 : (s.readE c i).toNat < c.p
    · rw [readElem_of_lt h0, ok_bind, ih, error_bind]
      cases k with
      | zero => exact absurd h0 hbad
      | succ k => exact ⟨k, by omega, by rwa [show i + 1 + k = i + (k + 1) by omega]⟩
    · rw [readElem_of_ge h0, error_bind]

/-! Registers -/

@[simp] theorem readP_writeP (s : State) (i : Fin 8) (q : Point) :
    (s.writeP i q).readP i = some q := by
  simp [State.readP, State.writeP]

theorem readP_writeP_ne (s : State) {i j : Fin 8} (q : Point) (h : j ≠ i) :
    (s.writeP i q).readP j = s.readP j := by
  have : i.val ≠ j.val := fun e => h (Fin.ext e.symm)
  simp [State.readP, State.writeP, this]

@[simp] theorem readS_writeS (s : State) (i : Fin 8) (v : Word) : (s.writeS i v).readS i = v := by
  simp [State.readS, State.writeS]

theorem readS_writeS_ne (s : State) {i j : Fin 8} (v : Word) (h : j ≠ i) :
    (s.writeS i v).readS j = s.readS j := by
  have : i.val ≠ j.val := fun e => h (Fin.ext e.symm)
  simp [State.readS, State.writeS, this]

/-! Element memory -/

@[simp] theorem background_withMem (c : Params) (s : State) (m : Memory) :
    ({ s with mem := m } : State).background c = s.background c := rfl

@[simp] theorem background_writeE (c : Params) (s : State) (i : Nat) (v : Word) :
    (s.writeE c i v).background c = s.background c := rfl

@[simp] theorem background_writeB (c : Params) (s : State) (i : Nat) (v : Byte) :
    (s.writeB c i v).background c = s.background c := rfl

/-- The bytes of element memory after a word write: the whole effect of `writeE`. -/
theorem readByte_writeE (c : Params) (s : State) (i : Nat) (v : Word) (a : Nat) :
    (s.writeE c i v).readByte c a =
      if eAddr i ≤ a ∧ a < eAddr i + 32 then BitVec.ofNat 8 (v.toNat / 256 ^ (a - eAddr i))
      else s.readByte c a := by
  simp [State.readByte, read_writeLE]

@[simp] theorem readE_writeE (c : Params) (s : State) (i : Nat) (v : Word) :
    (s.writeE c i v).readE c i = v := by
  apply BitVec.eq_of_toNat_eq
  have := v.isLt
  simp only [State.readE, background_writeE, writeE_mem, readLE_writeLE, BitVec.toNat_ofNat]
  rw [show (256 : Nat) ^ 32 = 2 ^ 256 by norm_num, Nat.mod_mod, Nat.mod_eq_of_lt this]

theorem readE_writeE_ne (c : Params) (s : State) {i j : Nat} (v : Word) (h : j ≠ i) :
    (s.writeE c i v).readE c j = s.readE c j := by
  simp only [State.readE, background_writeE, writeE_mem]
  rw [readLE_writeLE_of_disjoint]
  unfold eAddr
  omega

/-- An EMEM word depends on its 32 bytes and on nothing else (R51). -/
theorem readE_congr {c : Params} {s t : State} {i : Nat}
    (h : ∀ a, eAddr i ≤ a → a < eAddr i + 32 → t.readByte c a = s.readByte c a) :
    t.readE c i = s.readE c i := by
  unfold State.readE
  rw [readLE_congr]
  exact h

/-- The whole effect of `writeEs`: only memory changes; the words are written in order, and every byte
outside them stays. -/
theorem writeEs_spec (c : Params) : ∀ (vs : List Nat) (s : State) (i : Nat),
    State.writeEs c s i vs = { s with mem := (State.writeEs c s i vs).mem } ∧
    (∀ k (h : k < vs.length), (State.writeEs c s i vs).readE c (i + k) = BitVec.ofNat 256 vs[k]) ∧
    (∀ a, ¬(eAddr i ≤ a ∧ a < eAddr (i + vs.length)) →
      (State.writeEs c s i vs).readByte c a = s.readByte c a) := by
  intro vs
  induction vs with
  | nil => intro s i; exact ⟨rfl, fun k h => absurd h (by simp), fun a _ => rfl⟩
  | cons v vs ih =>
    intro s i
    obtain ⟨h1, h2, h3⟩ := ih (s.writeE c i (BitVec.ofNat 256 v)) (i + 1)
    have hframe : ∀ a, ¬(eAddr (i + 1) ≤ a ∧ a < eAddr (i + 1 + vs.length)) →
        (State.writeEs c s i (v :: vs)).readByte c a =
          (s.writeE c i (BitVec.ofNat 256 v)).readByte c a := h3
    refine ⟨h1, ?_, ?_⟩
    · intro k h
      cases k with
      | zero =>
        have : (State.writeEs c s i (v :: vs)).readE c i =
            (s.writeE c i (BitVec.ofNat 256 v)).readE c i := by
          apply readE_congr
          intro a ha1 ha2
          apply hframe
          unfold eAddr at *
          omega
        simpa using this
      | succ k =>
        have := h2 k (by simpa using h)
        rw [show i + 1 + k = i + (k + 1) by omega] at this
        exact this
    · intro a ha
      rw [hframe a (by unfold eAddr at *; simp only [List.length_cons] at ha; omega), readByte_writeE,
        if_neg (by unfold eAddr at *; simp only [List.length_cons] at ha; omega)]

/-- Words inside EMEM keep the canonical form. -/
theorem writeEs_wf (c : Params) : ∀ (vs : List Nat) (s : State) (i : Nat),
    Memory.wf (s.background c) s.mem → i + vs.length ≤ 256 →
    Memory.wf (s.background c) (State.writeEs c s i vs).mem := by
  intro vs
  induction vs with
  | nil => intro s i h _; exact h
  | cons v vs ih =>
    intro s i h hi
    simp only [List.length_cons] at hi
    refine ih (s.writeE c i (BitVec.ofNat 256 v)) (i + 1) ?_ (by omega)
    exact writeLE_wf 32 h (by unfold eAddr bmemBase ememBase; omega)
      (by unfold eAddr ememBase memEnd; omega)

theorem writeE_wf {c : Params} {s : State} {i : Nat} (v : Word)
    (h : Memory.wf (s.background c) s.mem) (hi : i < 256) :
    Memory.wf (s.background c) (s.writeE c i v).mem :=
  writeLE_wf 32 h (by unfold eAddr bmemBase ememBase; omega) (by unfold eAddr ememBase memEnd; omega)

/-! Byte memory -/

theorem readByte_writeB (c : Params) (s : State) (i : Nat) (v : Byte) (a : Nat) :
    (s.writeB c i v).readByte c a = if a = bAddr i then v else s.readByte c a := by
  simp [State.readByte, read_write]

/-- The whole effect of `writeBs`: only memory changes; the bytes are written in order, and every other byte
stays. -/
theorem writeBs_spec (c : Params) : ∀ (vs : List Byte) (s : State) (i : Nat),
    State.writeBs c s i vs = { s with mem := (State.writeBs c s i vs).mem } ∧
    (∀ k (h : k < vs.length), (State.writeBs c s i vs).readB c (i + k) = vs[k]) ∧
    (∀ a, ¬(bAddr i ≤ a ∧ a < bAddr (i + vs.length)) →
      (State.writeBs c s i vs).readByte c a = s.readByte c a) := by
  intro vs
  induction vs with
  | nil => intro s i; exact ⟨rfl, fun k h => absurd h (by simp), fun a _ => rfl⟩
  | cons v vs ih =>
    intro s i
    obtain ⟨h1, h2, h3⟩ := ih (s.writeB c i v) (i + 1)
    have hframe : ∀ a, ¬(bAddr (i + 1) ≤ a ∧ a < bAddr (i + 1 + vs.length)) →
        (State.writeBs c s i (v :: vs)).readByte c a = (s.writeB c i v).readByte c a := h3
    refine ⟨h1, ?_, ?_⟩
    · intro k h
      cases k with
      | zero =>
        rw [State.readB, Nat.add_zero, hframe _ (by unfold bAddr; omega), readByte_writeB, if_pos rfl]
        rfl
      | succ k =>
        have := h2 k (by simpa using h)
        rw [show i + 1 + k = i + (k + 1) by omega] at this
        exact this
    · intro a ha
      rw [hframe a (by unfold bAddr at *; simp only [List.length_cons] at ha; omega), readByte_writeB,
        if_neg (by unfold bAddr at *; simp only [List.length_cons] at ha; omega)]

/-- Bytes inside BMEM keep the canonical form. -/
theorem writeBs_wf (c : Params) : ∀ (vs : List Byte) (s : State) (i : Nat),
    Memory.wf (s.background c) s.mem → i + vs.length ≤ 4096 →
    Memory.wf (s.background c) (State.writeBs c s i vs).mem := by
  intro vs
  induction vs with
  | nil => intro s i h _; exact h
  | cons v vs ih =>
    intro s i h hi
    simp only [List.length_cons] at hi
    refine ih (s.writeB c i v) (i + 1) ?_ (by omega)
    exact write_wf h (by unfold bAddr bmemBase; omega) (by unfold bAddr bmemBase memEnd; omega)

/-- A bus write inside the two windows keeps the canonical form. -/
theorem writeBus_wf {c : Params} {s : State} {a : Nat} (v : BusWord)
    (h : Memory.wf (s.background c) s.mem) (h1 : bmemBase ≤ a) (h2 : a + 4 ≤ memEnd) :
    Memory.wf (s.background c) (s.writeBus c a v).mem :=
  writeLE_wf 4 h h1 h2

/-! What completion and RESULT leave alone -/

@[simp] theorem readE_finish (c : Params) (s : State) (e : BitVec 8) (i : Nat) :
    (s.finish e).readE c i = s.readE c i := rfl

@[simp] theorem readByte_finish (c : Params) (s : State) (e : BitVec 8) (a : Nat) :
    (s.finish e).readByte c a = s.readByte c a := rfl

@[simp] theorem readB_finish (c : Params) (s : State) (e : BitVec 8) (i : Nat) :
    (s.finish e).readB c i = s.readB c i := rfl

@[simp] theorem readP_finish (s : State) (e : BitVec 8) (i : Fin 8) : (s.finish e).readP i = s.readP i := rfl

@[simp] theorem readS_finish (s : State) (e : BitVec 8) (i : Fin 8) : (s.finish e).readS i = s.readS i := rfl

@[simp] theorem readE_setResult (c : Params) (s : State) (k i : Nat) :
    (s.setResult k).readE c i = s.readE c i := rfl

@[simp] theorem readByte_setResult (c : Params) (s : State) (k a : Nat) :
    (s.setResult k).readByte c a = s.readByte c a := rfl

@[simp] theorem readB_setResult (c : Params) (s : State) (k i : Nat) :
    (s.setResult k).readB c i = s.readB c i := rfl

end Sys2Proof.Laws
end

