-- ==== Sys2Proof/Laws/Bus.lean ====
section
/-! SUPPORT. What a host transaction can do: where it lands, how it is classified, and what the windows' targets are
(R29, R60-R66). -/

namespace Sys2Proof.Laws

open Sys2Proof.Machine Sys2Proof.Config

theorem portOffset_of_lt {base off : Nat} (h : off < 0x4000) :
    portOffset base (base + off) = some (BitVec.ofNat 14 off) := by
  rw [portOffset, if_pos ⟨Nat.le_add_right _ _, by omega⟩, Nat.add_sub_cancel_left]

theorem toNat_offset {off : Nat} (h : off < 0x4000) : (BitVec.ofNat 14 off).toNat = off := by
  rw [BitVec.toNat_ofNat, Nat.mod_eq_of_lt h]

/-- A host read of the window out of reset (R60). -/
theorem hostRead_window (c : Params) {s : State} {off : Nat} (size : Nat) (h : off < 0x4000)
    (hr : s.rstN = true) : hostRead c s (c.blockBase + off) size = busRead c s (BitVec.ofNat 14 off) size := by
  rw [hostRead, portOffset_of_lt h]
  simp only [hr, if_true]

/-- A host write of the window out of reset (R60). -/
theorem hostWrite_window (c : Params) {s : State} {off : Nat} (size : Nat) (v : BusWord) (h : off < 0x4000)
    (hr : s.rstN = true) :
    hostWrite c s (c.blockBase + off) size v = busWrite c s (BitVec.ofNat 14 off) size v := by
  rw [hostWrite, portOffset_of_lt h]
  simp only [hr, if_true]

/-- A read is legal and returns the target's value, or returns 0 and sets ACCERR; nothing else changes (R61,
R65). -/
theorem busRead_cases (c : Params) (s : State) (off : BitVec 14) (size : Nat) :
    (classify s.busy false off size = .legal ∧
      busRead c s off size = s.setReadData (readTarget c s (target off.toNat))) ∨
    (classify s.busy false off size ≠ .legal ∧ busRead c s off size = s.setAccErr.setReadData 0) := by
  unfold busRead
  cases classify s.busy false off size <;> simp

/-- A write is legal and has the target's effect, or sets ACCERR and changes nothing else (R61, R65). -/
theorem busWrite_cases (c : Params) (s : State) (off : BitVec 14) (size : Nat) (v : BusWord) :
    (classify s.busy true off size = .legal ∧
      busWrite c s off size v = writeTarget c s v (target off.toNat)) ∨
    (classify s.busy true off size ≠ .legal ∧ busWrite c s off size v = s.setAccErr) := by
  unfold busWrite
  cases classify s.busy true off size <;> simp

/-- An access is legal exactly when none of the five conditions of R65 holds. -/
theorem classify_legal_iff (busy isWrite : Bool) (off : BitVec 14) (size : Nat) :
    classify busy isWrite off size = .legal ↔
      size = 4 ∧ off.toNat % 4 = 0 ∧ target off.toNat ≠ .reserved ∧
        (inDataWindow (target off.toNat) && busy) = false ∧
        (isWrite && readOnlyTarget (target off.toNat)) = false := by
  unfold classify
  split_ifs <;> simp_all

theorem target_sreg {i k : Fin 8} : target (0x100 + 32 * i.val + 4 * k.val) = .sreg i k := by
  revert i k
  decide

theorem target_pregX {i k : Fin 8} : target (0x200 + 64 * i.val + 4 * k.val) = .pregX i k := by
  revert i k
  decide

theorem target_pregY {i k : Fin 8} : target (0x200 + 64 * i.val + 32 + 4 * k.val) = .pregY i k := by
  revert i k
  decide

theorem target_memory {off : Nat} (h : 0x1000 ≤ off) : target off = .memory off := by
  unfold target
  repeat rw [if_neg (by omega)]

/-- From 0x100 on the map has four windows and one reserved range (R29). -/
theorem target_of_ge {off : Nat} (h : 0x100 ≤ off) :
    target off =
      if off < 0x200 then .sreg (Fin.ofNat 8 ((off - 0x100) / 32)) (wordIndex off)
      else if off < 0x400 then
        if off % 64 < 32 then .pregX (Fin.ofNat 8 ((off - 0x200) / 64)) (wordIndex off)
        else .pregY (Fin.ofNat 8 ((off - 0x200) / 64)) (wordIndex off)
      else if off < 0x1000 then .reserved
      else .memory off := by
  unfold target
  repeat rw [if_neg (show ¬off = _ by omega)]
  rw [if_neg (show ¬off < 0x040 by omega), if_neg (show ¬off < 0x060 by omega),
    if_neg (show ¬off < 0x080 by omega), if_neg (show ¬off < 0x0A0 by omega),
    if_neg (show ¬off < 0x0C0 by omega), if_neg (show ¬off < 0x100 by omega)]

/-- No offset of the control page is in a data window (R29). -/
theorem inDataWindow_of_lt {off : Nat} (h : off < 0x100) : inDataWindow (target off) = false := by
  revert off
  decide +kernel

/-- Every offset from 0x100 on that is not reserved is in a data window (R29). -/
theorem inDataWindow_of_ge {off : Nat} (h : 0x100 ≤ off) (hr : target off ≠ .reserved) :
    inDataWindow (target off) = true := by
  rw [target_of_ge h] at hr ⊢
  split
  · rfl
  · split
    · split <;> rfl
    · split
      · next h1 h2 h3 => rw [if_neg h1, if_neg h2, if_pos h3] at hr; exact absurd rfl hr
      · rfl

/-- The reserved offsets of R52, at multiples of 4. -/
theorem target_reserved_iff {off : Nat} (ha : off % 4 = 0) :
    target off = .reserved ↔
      0x01C ≤ off ∧ off < 0x040 ∨ 0x0C0 ≤ off ∧ off < 0x100 ∨ 0x400 ≤ off ∧ off < 0x1000 := by
  by_cases h : off < 0x100
  · revert ha
    revert off
    decide +kernel
  · rw [target_of_ge (by omega)]
    split
    · simp only [reduceCtorEq, false_iff]; omega
    · split
      · split <;> simp only [reduceCtorEq, false_iff] <;> omega
      · split
        · simp only [true_iff]; omega
        · simp only [reduceCtorEq, false_iff]; omega

end Sys2Proof.Laws
end

