-- ==== Sys2Proof/Laws/Codec.lean ====
section
/-! SUPPORT. Bit lists as numbers: what the message codec's cutting and joining of bits does to the numbers they
stand for (R230-R233 of 44_message_codec.md). -/

namespace Sys2Proof.Laws

open Sys2Proof.Machine

@[simp] theorem bitsToNat_nil : bitsToNat [] = 0 := rfl

theorem bitsToNat_cons (b : Bool) (bs : List Bool) : bitsToNat (b :: bs) = b.toNat + 2 * bitsToNat bs := rfl

theorem bitsToNat_lt (bs : List Bool) : bitsToNat bs < 2 ^ bs.length := by
  induction bs with
  | nil => simp
  | cons b bs ih =>
    rw [bitsToNat_cons, List.length_cons, Nat.pow_succ]
    have := Bool.toNat_le b
    omega

theorem bitsToNat_append (as bs : List Bool) :
    bitsToNat (as ++ bs) = bitsToNat as + 2 ^ as.length * bitsToNat bs := by
  induction as with
  | nil => simp
  | cons a as ih =>
    rw [List.cons_append, bitsToNat_cons, bitsToNat_cons, ih, List.length_cons, Nat.pow_succ]
    ring

theorem bitsToNat_drop (bs : List Bool) (k : Nat) : bitsToNat (bs.drop k) = bitsToNat bs / 2 ^ k := by
  rcases Nat.le_total k bs.length with hk | hk
  · conv_rhs => rw [← List.take_append_drop k bs, bitsToNat_append]
    have hlt := bitsToNat_lt (bs.take k)
    rw [List.length_take, Nat.min_eq_left hk] at hlt ⊢
    rw [Nat.add_mul_div_left _ _ (by positivity), Nat.div_eq_of_lt hlt, Nat.zero_add]
  · have hlt := bitsToNat_lt bs
    rw [List.drop_eq_nil_of_le hk, bitsToNat_nil, Nat.div_eq_of_lt]
    exact lt_of_lt_of_le hlt (Nat.pow_le_pow_right (by norm_num) hk)

theorem bitsToNat_take (bs : List Bool) (k : Nat) : bitsToNat (bs.take k) = bitsToNat bs % 2 ^ k := by
  rcases Nat.le_total k bs.length with hk | hk
  · conv_rhs => rw [← List.take_append_drop k bs, bitsToNat_append]
    have hlt := bitsToNat_lt (bs.take k)
    rw [List.length_take, Nat.min_eq_left hk] at hlt ⊢
    rw [Nat.add_mul_mod_self_left, Nat.mod_eq_of_lt hlt]
  · rw [List.take_of_length_le hk, Nat.mod_eq_of_lt]
    exact lt_of_lt_of_le (bitsToNat_lt bs) (Nat.pow_le_pow_right (by norm_num) hk)

/-- Bit k of the number is entry k of the list. -/
theorem testBit_bitsToNat (bs : List Bool) : ∀ k, (bitsToNat bs).testBit k = bs.getD k false := by
  induction bs with
  | nil => simp
  | cons b bs ih =>
    intro k
    rw [bitsToNat_cons]
    cases k with
    | zero => cases b <;> simp
    | succ k =>
      rw [Nat.testBit_add_one, show (b.toNat + 2 * bitsToNat bs) / 2 = bitsToNat bs by
        have := Bool.toNat_le b; omega, ih]
      simp

/-- The list of the first n bits of a number stands for the number modulo 2^n. -/
theorem bitsToNat_testBits (v n : Nat) : bitsToNat ((List.range n).map v.testBit) = v % 2 ^ n := by
  apply Nat.eq_of_testBit_eq
  intro i
  rw [testBit_bitsToNat, Nat.testBit_mod_two_pow, List.getD_eq_getElem?_getD]
  by_cases h : i < n
  · simp [h]
  · simp [h]

@[simp] theorem length_byteBits (b : Byte) : (byteBits b).length = 8 := by simp [byteBits]

theorem bitsToNat_byteBits (b : Byte) : bitsToNat (byteBits b) = b.toNat := by
  have := bitsToNat_testBits b.toNat 8
  rw [Nat.mod_eq_of_lt b.isLt] at this
  exact this

theorem length_flatMap_byteBits (bytes : List Byte) : (bytes.flatMap byteBits).length = 8 * bytes.length := by
  induction bytes with
  | nil => rfl
  | cons b bs ih => rw [List.flatMap_cons, List.length_append, length_byteBits, ih, List.length_cons]; ring

theorem bitsToNat_flatMap_byteBits (bytes : List Byte) : bitsToNat (bytes.flatMap byteBits) = intLE bytes := by
  induction bytes with
  | nil => rfl
  | cons b bs ih =>
    rw [List.flatMap_cons, bitsToNat_append, bitsToNat_byteBits, length_byteBits, ih]
    rfl

theorem intLE_lt (bytes : List Byte) : intLE bytes < 2 ^ (8 * bytes.length) := by
  have := bitsToNat_lt (bytes.flatMap byteBits)
  rwa [bitsToNat_flatMap_byteBits, length_flatMap_byteBits] at this

/-- The message bits with their terminator stand for `int_le(b) + 2^(8L)` (R231). -/
theorem bitsToNat_packBits (bytes : List Byte) :
    bitsToNat (packBits bytes) = intLE bytes + 2 ^ (8 * bytes.length) := by
  rw [packBits, bitsToNat_append, bitsToNat_flatMap_byteBits, length_flatMap_byteBits]
  simp [bitsToNat]

theorem length_packBits (bytes : List Byte) : (packBits bytes).length = 8 * bytes.length + 1 := by
  rw [packBits, List.length_append, length_flatMap_byteBits, List.length_singleton]

theorem length_packBytes (cap : Nat) (bytes : List Byte) :
    (packBytes cap bytes).length = ceilDiv (8 * bytes.length + 1) cap := by
  simp [packBytes, length_packBits]

@[simp] theorem length_elemBits (cap e : Nat) : (elemBits cap e).length = cap := by simp [elemBits]

theorem bitsToNat_elemBits (cap e : Nat) : bitsToNat (elemBits cap e) = e % 2 ^ cap := bitsToNat_testBits e cap

theorem bitsToNat_flatMap_elemBits_cons (cap e : Nat) (es : List Nat) :
    bitsToNat ((e :: es).flatMap (elemBits cap)) =
      e % 2 ^ cap + 2 ^ cap * bitsToNat (es.flatMap (elemBits cap)) := by
  rw [List.flatMap_cons, bitsToNat_append, bitsToNat_elemBits, length_elemBits]

/-- There is no last 1 exactly when the number is 0, and else it is the number's top bit (R232, R233). -/
theorem lastOne_eq (bs : List Bool) :
    lastOne bs = if bitsToNat bs = 0 then none else some (Nat.log2 (bitsToNat bs)) := by
  induction bs with
  | nil => rfl
  | cons b bs ih =>
    rw [lastOne, ih, bitsToNat_cons]
    by_cases h : bitsToNat bs = 0
    · rw [if_pos h, h]
      cases b
      · rfl
      · exact congrArg some (show 0 = Nat.log2 1 by decide)
    · have hpos := Nat.pos_of_ne_zero h
      have hb := Bool.toNat_le b
      have hdiv : (b.toNat + 2 * bitsToNat bs) / 2 = bitsToNat bs := by omega
      have hlog : Nat.log2 (b.toNat + 2 * bitsToNat bs) = Nat.log2 (bitsToNat bs) + 1 := by
        rw [Nat.log2_def, if_pos (by omega), hdiv]
      have hne : ¬b.toNat + 2 * bitsToNat bs = 0 := by omega
      rw [if_neg h, if_neg hne, hlog]

end Sys2Proof.Laws
end

