-- ==== Sys2Proof/Laws/Commands.lean ====
section
/-! SUPPORT. What each command can do when it completes without an error: one lemma for each meaning, which says all of
it. -/

namespace Sys2Proof.Laws

open Sys2Proof.Machine Sys2Proof.Config

/-! What a passed check says -/

theorem regIndex_ok {f : BitVec 8} {i : Fin 8} (h : regIndex f = .ok i) : f.toNat = i.val := by
  unfold regIndex at h
  split at h
  · cases h
    rfl
  · cases h

theorem require_ok {b : Bool} {e : ErrCode} {u : Unit} (h : require b e = .ok u) : b = true := by
  unfold require at h
  split at h
  · assumption
  · cases h

theorem requireRange_ok {b : EField} {n : CountField} {u : Unit} (h : requireRange b n = .ok u) :
    b.toNat + n.toNat ≤ 256 := by
  have := require_ok h
  simp only [Bool.and_eq_true, decide_eq_true_eq] at this
  exact this.2

theorem readPoint_ok {s : State} {i : Fin 8} {q : Point} (h : readPoint s i = .ok q) :
    s.readP i = some q := by
  rw [readPoint_eq] at h
  split at h
  · cases h
    assumption
  · cases h

theorem readScalar_ok {c : Params} {s : State} {i : Fin 8} {k : Nat} (h : readScalar c s i = .ok k) :
    k = (s.readS i).toNat ∧ k < c.n := by
  unfold readScalar at h
  split at h
  · cases h
    exact ⟨rfl, by assumption⟩
  · cases h

theorem readElem_ok {c : Params} {s : State} {i v : Nat} (h : readElem c s i = .ok v) :
    v = (s.readE c i).toNat ∧ v < c.p := by
  unfold readElem at h
  split at h
  · next hlt =>
    injection h with h
    exact ⟨h.symm, h ▸ hlt⟩
  · cases h

theorem readElems_ok {c : Params} {s : State} {n : Nat} : ∀ {i : Nat} {vs : List Nat},
    readElems c s i n = .ok vs → vs.length = n ∧ ∀ v ∈ vs, v < c.p := by
  induction n with
  | zero =>
    intro i vs h
    cases h
    simp
  | succ n ih =>
    intro i vs h
    rw [readElems] at h
    obtain ⟨v, h1, h⟩ := bind_eq_ok h
    obtain ⟨ws, h2, h⟩ := bind_eq_ok h
    cases h
    obtain ⟨hl, hlt⟩ := ih h2
    refine ⟨by simp [hl], ?_⟩
    intro w hw
    rcases List.mem_cons.mp hw with rfl | hw
    · exact (readElem_ok h1).2
    · exact hlt w hw

/-! The commands -/

theorem nopBody_ok {s t : State} (h : nopBody s = .ok t) : t = s := by
  cases h
  rfl

theorem pencBody_ok {c : Params} {d : EField} {s1 : PField} {s t : State} (h : pencBody c d s1 s = .ok t) :
    ∃ i q, regIndex s1 = .ok i ∧ s.readP i = some q ∧ t = s.writeE c d.toNat q.x := by
  obtain ⟨i, h1, h⟩ := bind_eq_ok h
  obtain ⟨q, h2, h⟩ := bind_eq_ok h
  cases h
  exact ⟨i, q, h1, readPoint_ok h2, rfl⟩

theorem pdecBody_ok {c : Params} {d : PField} {s1 : EField} {s t : State} (h : pdecBody c d s1 s = .ok t) :
    ∃ i q, regIndex d = .ok i ∧ (s.readE c s1.toNat).toNat < c.p ∧
      decodeX c.curve (s.readE c s1.toNat).toNat = some q ∧ t = s.writeP i (ofAff q) := by
  obtain ⟨i, h1, h⟩ := bind_eq_ok h
  obtain ⟨x, h2, h⟩ := bind_eq_ok h
  obtain ⟨hx, h3⟩ := readElem_ok h2
  rw [hx] at h h3
  split at h
  · cases h
  · next q hq => exact ⟨i, q, h1, h3, hq, (Except.ok.inj h).symm⟩

/-- GENSK completes with an accepted value, refuses its index, or waits with a request outstanding. -/
theorem genskBody_cases (c : Params) (d : SField) (s : State) :
    (8 ≤ d.toNat ∧ genskBody c d s = s.finish (errNumber .operand)) ∨
    (∃ i v, regIndex d = .ok i ∧ s.rng = .delivered v ∧ v.toNat < c.n ∧
      genskBody c d s = (s.writeS i v).finish 0) ∨
    (d.toNat < 8 ∧ (∀ v, s.rng = .delivered v → c.n ≤ v.toNat) ∧ genskBody c d s = s.requestRng) := by
  unfold genskBody
  by_cases h : d.toNat < 8
  · right
    rw [regIndex_of_lt h]
    cases hr : s.rng with
    | idle => exact .inr ⟨h, by simp, rfl⟩
    | requested => exact .inr ⟨h, by simp, rfl⟩
    | delivered v =>
      by_cases hv : v.toNat < c.n
      · exact .inl ⟨_, v, rfl, rfl, hv, by simp only [if_pos hv, complete_ok]⟩
      · refine .inr ⟨h, ?_, by simp only [if_neg hv]⟩
        intro w hw
        cases hw
        omega
  · left
    rw [regIndex_of_ge h]
    exact ⟨by omega, rfl⟩

theorem pubkeyBody_ok {c : Params} {d : PField} {s1 : SField} {s t : State}
    (h : pubkeyBody c d s1 s = .ok t) :
    ∃ i j, regIndex d = .ok i ∧ regIndex s1 = .ok j ∧ (s.readS j).toNat < c.n ∧
      t = s.writeP i (ofAff (smul c.curve (s.readS j).toNat c.gen)) := by
  obtain ⟨i, h1, h⟩ := bind_eq_ok h
  obtain ⟨j, h2, h⟩ := bind_eq_ok h
  obtain ⟨k, h3, h⟩ := bind_eq_ok h
  obtain ⟨rfl, h4⟩ := readScalar_ok h3
  cases h
  exact ⟨i, j, h1, h2, h4, rfl⟩

theorem initBody_ok {c : Params} {d d2 : EField} {s1 : PField} {s2 : SField} {s t : State}
    (h : initBody c d d2 s1 s2 s = .ok t) :
    ∃ i j q, regIndex s1 = .ok i ∧ regIndex s2 = .ok j ∧ d ≠ d2 ∧ s.readP i = some q ∧
      (s.readS j).toNat < c.n ∧
      t = (s.writeE c d.toNat (BitVec.ofNat 256 (smul c.curve (s.readS j).toNat c.gen).x)).writeE c d2.toNat
        (BitVec.ofNat 256 (smul c.curve (s.readS j).toNat (toAff q)).x) := by
  obtain ⟨i, h1, h⟩ := bind_eq_ok h
  obtain ⟨j, h2, h⟩ := bind_eq_ok h
  obtain ⟨u, h3, h⟩ := bind_eq_ok h
  obtain ⟨q, h4, h⟩ := bind_eq_ok h
  obtain ⟨k, h5, h⟩ := bind_eq_ok h
  obtain ⟨rfl, h6⟩ := readScalar_ok h5
  cases h
  exact ⟨i, j, q, h1, h2, by simpa using require_ok h3, readPoint_ok h4, h6, rfl⟩

theorem complBody_ok {c : Params} {d : EField} {s1 : SField} {s2 : EField} {s t : State}
    (h : complBody c d s1 s2 s = .ok t) :
    ∃ j, regIndex s1 = .ok j ∧ (s.readS j).toNat < c.n ∧ (s.readE c s2.toNat).toNat < c.p ∧
      ((decodeX c.curve (s.readE c s2.toNat).toNat = none ∧ t = s.setNoKey) ∨
        ∃ q, decodeX c.curve (s.readE c s2.toNat).toNat = some q ∧
          t = s.writeE c d.toNat (BitVec.ofNat 256 (smul c.curve (s.readS j).toNat q).x)) := by
  obtain ⟨j, h1, h⟩ := bind_eq_ok h
  obtain ⟨k, h2, h⟩ := bind_eq_ok h
  obtain ⟨x, h3, h⟩ := bind_eq_ok h
  obtain ⟨rfl, h4⟩ := readScalar_ok h2
  obtain ⟨hx, h5⟩ := readElem_ok h3
  rw [hx] at h h5
  refine ⟨j, h1, h4, h5, ?_⟩
  split at h
  · next hn => exact .inl ⟨hn, (Except.ok.inj h).symm⟩
  · next q hq => exact .inr ⟨q, hq, (Except.ok.inj h).symm⟩

theorem commitBody_ok {c : Params} {d s1 : EField} {s t : State} (h : commitBody c d s1 s = .ok t) :
    (s.readE c s1.toNat).toNat < c.p ∧
      t = s.writeE c d.toNat (BitVec.ofNat 256 (commitment c (s.readE c s1.toNat).toNat)) := by
  obtain ⟨k, h1, h⟩ := bind_eq_ok h
  obtain ⟨hk, h2⟩ := readElem_ok h1
  rw [hk] at h h2
  exact ⟨h2, (Except.ok.inj h).symm⟩

theorem streamBody_ok {f : Nat → Nat → Nat} {c : Params} {d s1 s2 : EField} {n : CountField} {s t : State}
    (h : streamBody f c d s1 s2 n s = .ok t) :
    s1.toNat + n.toNat ≤ 256 ∧ d.toNat + n.toNat ≤ 256 ∧ (s.readE c s2.toNat).toNat < c.p ∧
      ∃ m, readElems c s s1.toNat n.toNat = .ok m ∧
        t = s.writeEs c d.toNat (List.zipWith f m (keystream c (s.readE c s2.toNat).toNat n.toNat)) := by
  obtain ⟨u1, h1, h⟩ := bind_eq_ok h
  obtain ⟨u2, h2, h⟩ := bind_eq_ok h
  obtain ⟨k, h3, h⟩ := bind_eq_ok h
  obtain ⟨m, h4, h⟩ := bind_eq_ok h
  obtain ⟨hk, h5⟩ := readElem_ok h3
  rw [hk] at h h5
  exact ⟨requireRange_ok h1, requireRange_ok h2, h5, m, h4, (Except.ok.inj h).symm⟩

theorem packBody_ok {c : Params} {d : EField} {n : CountField} {s t : State} (h : packBody c d n s = .ok t) :
    n.toNat ≤ 4096 ∧ d.toNat + (packBytes (capacity c) (s.readBs c n.toNat)).length ≤ 256 ∧
      t = (s.writeEs c d.toNat (packBytes (capacity c) (s.readBs c n.toNat))).setResult
        (packBytes (capacity c) (s.readBs c n.toNat)).length := by
  obtain ⟨u1, h1, h⟩ := bind_eq_ok h
  obtain ⟨u2, h2, h⟩ := bind_eq_ok h
  cases h
  exact ⟨by simpa using require_ok h1, by simpa using require_ok h2, rfl⟩

theorem unpackBody_ok {c : Params} {s1 : EField} {n : CountField} {s t : State}
    (h : unpackBody c s1 n s = .ok t) :
    s1.toNat + n.toNat ≤ 256 ∧ ∃ el bytes, readElems c s s1.toNat n.toNat = .ok el ∧
      unpackElems (capacity c) el = .ok bytes ∧ bytes.length ≤ 4096 ∧
      t = (s.writeBs c 0 bytes).setResult bytes.length := by
  obtain ⟨u1, h1, h⟩ := bind_eq_ok h
  obtain ⟨el, h2, h⟩ := bind_eq_ok h
  refine ⟨requireRange_ok h1, el, ?_⟩
  split at h
  · cases h
  · cases h
  · next bytes hb =>
    obtain ⟨u2, h3, h⟩ := bind_eq_ok h
    cases h
    exact ⟨bytes, h2, hb, by simpa using require_ok h3, rfl⟩

/-- The three ways a command ends its move: an error, a success, or a GENSK that waits. -/
theorem exec_cases (i : Instr) (s : State) :
    (∃ e, exec i s = .next (s.finish (errNumber e))) ∨
    (∃ u, exec i s = .next (u.finish 0) ∧
      match i with
      | .nop => nopBody s = .ok u
      | .penc d s1 => pencBody block d s1 s = .ok u
      | .pdec d s1 => pdecBody block d s1 s = .ok u
      | .gensk d => ∃ j v, regIndex d = .ok j ∧ s.rng = .delivered v ∧ v.toNat < block.n ∧ u = s.writeS j v
      | .pubkey d s1 => pubkeyBody block d s1 s = .ok u
      | .init d d2 s1 s2 => initBody block d d2 s1 s2 s = .ok u
      | .compl d s1 s2 => complBody block d s1 s2 s = .ok u
      | .commit d s1 => commitBody block d s1 s = .ok u
      | .enc d s1 s2 n => streamBody (fadd block.p) block d s1 s2 n s = .ok u
      | .dec d s1 s2 n => streamBody (fsub block.p) block d s1 s2 n s = .ok u
      | .pack d n => packBody block d n s = .ok u
      | .unpack s1 n => unpackBody block s1 n s = .ok u) ∨
    (∃ d, i = .gensk d ∧ d.toNat < 8 ∧ (∀ v, s.rng = .delivered v → block.n ≤ v.toNat) ∧
      exec i s = .next s.requestRng) := by
  have key : ∀ b : Except ErrCode State,
      (∃ e, Host.Outcome.next (s.complete b) = (.next (s.finish (errNumber e)) : Host.Outcome State Fault Refusal)) ∨
      ∃ u, Host.Outcome.next (s.complete b) = (.next (u.finish 0) : Host.Outcome State Fault Refusal) ∧ b = .ok u := by
    intro b
    cases b with
    | error e => exact .inl ⟨e, rfl⟩
    | ok u => exact .inr ⟨u, rfl, rfl⟩
  cases i with
  | gensk d =>
    rcases genskBody_cases block d s with ⟨-, h⟩ | ⟨j, v, h1, h2, h3, h⟩ | ⟨h1, h2, h⟩
    · exact .inl ⟨.operand, congrArg _ h⟩
    · exact .inr (.inl ⟨s.writeS j v, congrArg _ h, j, v, h1, h2, h3, rfl⟩)
    · exact .inr (.inr ⟨d, rfl, h1, h2, congrArg _ h⟩)
  | nop => exact (key _).imp id .inl
  | penc d s1 => exact (key _).imp id .inl
  | pdec d s1 => exact (key _).imp id .inl
  | pubkey d s1 => exact (key _).imp id .inl
  | init d d2 s1 s2 => exact (key _).imp id .inl
  | compl d s1 s2 => exact (key _).imp id .inl
  | commit d s1 => exact (key _).imp id .inl
  | enc d s1 s2 n => exact (key _).imp id .inl
  | dec d s1 s2 n => exact (key _).imp id .inl
  | pack d n => exact (key _).imp id .inl
  | unpack s1 n => exact (key _).imp id .inl

end Sys2Proof.Laws
end

