-- ==== Sys2Proof/Laws/Edwards.lean ====
section
/-! SUPPORT. The twisted Edwards law over a field: completeness, closure and associativity (R125, R126 of
40_field_curve.md), as polynomial identities. -/

namespace Sys2Proof.Laws.Edwards

variable {F : Type} [Field F]

/-- The curve equation (R122). -/
def On (a d x y : F) : Prop := a * x * x + y * y = 1 + d * x * x * y * y

/-- The product `t` of the addition law (R124). -/
def tOf (d x₁ y₁ x₂ y₂ : F) : F := d * x₁ * x₂ * y₁ * y₂

/-- The first coordinate of a sum (R124). -/
def addX (d x₁ y₁ x₂ y₂ : F) : F := (x₁ * y₂ + y₁ * x₂) * (1 + tOf d x₁ y₁ x₂ y₂)⁻¹

/-- The second coordinate of a sum (R124). -/
def addY (a d x₁ y₁ x₂ y₂ : F) : F := (y₁ * y₂ - a * x₁ * x₂) * (1 - tOf d x₁ y₁ x₂ y₂)⁻¹

theorem tOf_sq_ne_one {a d α x₁ y₁ x₂ y₂ : F} (hα : α * α = a) (hd : ∀ r, r * r ≠ d)
    (h2 : (2 : F) ≠ 0) (hα0 : α ≠ 0) (h₁ : On a d x₁ y₁) (h₂ : On a d x₂ y₂) :
    tOf d x₁ y₁ x₂ y₂ * tOf d x₁ y₁ x₂ y₂ ≠ 1 := by
  intro ht
  unfold On at h₁ h₂
  have hxy : x₁ ≠ 0 ∧ y₁ ≠ 0 ∧ x₂ ≠ 0 ∧ y₂ ≠ 0 ∧ d ≠ 0 := by
    refine ⟨?_, ?_, ?_, ?_, ?_⟩ <;> rintro rfl <;> simp [tOf] at ht
  obtain ⟨hx₁, hy₁, hx₂, hy₂, -⟩ := hxy
  have key : ∀ e : F, e * e = 1 →
      (α * x₁ + e * tOf d x₁ y₁ x₂ y₂ * y₁) * (α * x₁ + e * tOf d x₁ y₁ x₂ y₂ * y₁) =
        d * (x₁ * y₁ * (α * x₂ + e * y₂)) * (x₁ * y₁ * (α * x₂ + e * y₂)) := by
    intro e he
    unfold tOf at *
    linear_combination (x₁ ^ 2 - d * x₁ ^ 2 * y₁ ^ 2 * x₂ ^ 2) * hα +
      ((d * x₁ * x₂ * y₁ * y₂) ^ 2 * y₁ ^ 2 - d * x₁ ^ 2 * y₁ ^ 2 * y₂ ^ 2) * he +
      (y₁ ^ 2 - 1) * ht + h₁ - d * x₁ ^ 2 * y₁ ^ 2 * h₂
  have square_d : ∀ e : F, e * e = 1 → α * x₂ + e * y₂ = 0 := by
    intro e he
    by_contra hne
    have hm : x₁ * y₁ * (α * x₂ + e * y₂) ≠ 0 := mul_ne_zero (mul_ne_zero hx₁ hy₁) hne
    apply hd ((α * x₁ + e * tOf d x₁ y₁ x₂ y₂ * y₁) / (x₁ * y₁ * (α * x₂ + e * y₂)))
    rw [div_mul_div_comm, key e he]
    field_simp
  have hp := square_d 1 (by ring)
  have hm := square_d (-1) (by ring)
  have : 2 * (α * x₂) = 0 := by linear_combination hp + hm
  exact mul_ne_zero h2 (mul_ne_zero hα0 hx₂) this

theorem one_add_tOf_ne {t : F} (h : t * t ≠ 1) : 1 + t ≠ 0 := fun e => h (by
  have : t = -1 := by linear_combination e
  rw [this]; ring)

theorem one_sub_tOf_ne {t : F} (h : t * t ≠ 1) : 1 - t ≠ 0 := fun e => h (by
  have : t = 1 := by linear_combination -e
  rw [this]; ring)

theorem closure_identity {a d x₁ y₁ x₂ y₂ : F} (h₁ : On a d x₁ y₁) (h₂ : On a d x₂ y₂) :
    a * (x₁ * y₂ + y₁ * x₂) ^ 2 * (1 - tOf d x₁ y₁ x₂ y₂) ^ 2 +
      (y₁ * y₂ - a * x₁ * x₂) ^ 2 * (1 + tOf d x₁ y₁ x₂ y₂) ^ 2 =
      (1 + tOf d x₁ y₁ x₂ y₂) ^ 2 * (1 - tOf d x₁ y₁ x₂ y₂) ^ 2 +
        d * (x₁ * y₂ + y₁ * x₂) ^ 2 * (y₁ * y₂ - a * x₁ * x₂) ^ 2 := by
  unfold On at h₁ h₂
  unfold tOf
  grind

/-- The first coordinates of `(P₁ + P₂) + P₃` and `P₁ + (P₂ + P₃)`, cross-multiplied. -/
theorem assoc_identity_x {a d x₁ y₁ x₂ y₂ x₃ y₃ : F}
    (h₁ : On a d x₁ y₁) (h₂ : On a d x₂ y₂) (h₃ : On a d x₃ y₃) :
    ((x₁ * y₂ + y₁ * x₂) * (1 - tOf d x₁ y₁ x₂ y₂) * y₃ +
        (y₁ * y₂ - a * x₁ * x₂) * (1 + tOf d x₁ y₁ x₂ y₂) * x₃) *
      ((1 - tOf d x₂ y₂ x₃ y₃ ^ 2) + d * x₁ * y₁ * (x₂ * y₃ + y₂ * x₃) * (y₂ * y₃ - a * x₂ * x₃)) =
    (x₁ * (y₂ * y₃ - a * x₂ * x₃) * (1 + tOf d x₂ y₂ x₃ y₃) +
        y₁ * (x₂ * y₃ + y₂ * x₃) * (1 - tOf d x₂ y₂ x₃ y₃)) *
      ((1 - tOf d x₁ y₁ x₂ y₂ ^ 2) + d * (x₁ * y₂ + y₁ * x₂) * (y₁ * y₂ - a * x₁ * x₂) * x₃ * y₃) := by
  unfold On at h₁ h₂ h₃
  unfold tOf
  grind

/-- The second coordinates of `(P₁ + P₂) + P₃` and `P₁ + (P₂ + P₃)`, cross-multiplied. -/
theorem assoc_identity_y {a d x₁ y₁ x₂ y₂ x₃ y₃ : F}
    (h₁ : On a d x₁ y₁) (h₂ : On a d x₂ y₂) (h₃ : On a d x₃ y₃) :
    ((y₁ * y₂ - a * x₁ * x₂) * (1 + tOf d x₁ y₁ x₂ y₂) * y₃ -
        a * (x₁ * y₂ + y₁ * x₂) * (1 - tOf d x₁ y₁ x₂ y₂) * x₃) *
      ((1 - tOf d x₂ y₂ x₃ y₃ ^ 2) - d * x₁ * y₁ * (x₂ * y₃ + y₂ * x₃) * (y₂ * y₃ - a * x₂ * x₃)) =
    (y₁ * (y₂ * y₃ - a * x₂ * x₃) * (1 + tOf d x₂ y₂ x₃ y₃) -
        a * x₁ * (x₂ * y₃ + y₂ * x₃) * (1 - tOf d x₂ y₂ x₃ y₃)) *
      ((1 - tOf d x₁ y₁ x₂ y₂ ^ 2) - d * (x₁ * y₂ + y₁ * x₂) * (y₁ * y₂ - a * x₁ * x₂) * x₃ * y₃) := by
  unfold On at h₁ h₂ h₃
  unfold tOf
  grind

theorem add_on {a d x₁ y₁ x₂ y₂ : F} (h₁ : On a d x₁ y₁) (h₂ : On a d x₂ y₂)
    (ht : tOf d x₁ y₁ x₂ y₂ * tOf d x₁ y₁ x₂ y₂ ≠ 1) :
    On a d (addX d x₁ y₁ x₂ y₂) (addY a d x₁ y₁ x₂ y₂) := by
  have hp := one_add_tOf_ne ht
  have hm := one_sub_tOf_ne ht
  have key := closure_identity h₁ h₂
  unfold On addX addY
  generalize tOf d x₁ y₁ x₂ y₂ = t at *
  field_simp
  linear_combination key

/-- Dividing a cross-multiplied identity by its denominators. -/
theorem div_eq_of_cross {n₁ d₁ n₂ d₂ : F} (h₁ : d₁ ≠ 0) (h₂ : d₂ ≠ 0) (h : n₁ * d₂ = n₂ * d₁) :
    n₁ * d₁⁻¹ = n₂ * d₂⁻¹ := by
  field_simp
  linear_combination h

/-- The two sums of three points agree in both coordinates, no product `t` on the way being 1 or -1. -/
theorem add_assoc {a d x₁ y₁ x₂ y₂ x₃ y₃ : F}
    (h₁ : On a d x₁ y₁) (h₂ : On a d x₂ y₂) (h₃ : On a d x₃ y₃)
    (h12 : tOf d x₁ y₁ x₂ y₂ * tOf d x₁ y₁ x₂ y₂ ≠ 1)
    (h23 : tOf d x₂ y₂ x₃ y₃ * tOf d x₂ y₂ x₃ y₃ ≠ 1)
    (hl : tOf d (addX d x₁ y₁ x₂ y₂) (addY a d x₁ y₁ x₂ y₂) x₃ y₃ *
      tOf d (addX d x₁ y₁ x₂ y₂) (addY a d x₁ y₁ x₂ y₂) x₃ y₃ ≠ 1)
    (hr : tOf d x₁ y₁ (addX d x₂ y₂ x₃ y₃) (addY a d x₂ y₂ x₃ y₃) *
      tOf d x₁ y₁ (addX d x₂ y₂ x₃ y₃) (addY a d x₂ y₂ x₃ y₃) ≠ 1) :
    addX d (addX d x₁ y₁ x₂ y₂) (addY a d x₁ y₁ x₂ y₂) x₃ y₃ =
        addX d x₁ y₁ (addX d x₂ y₂ x₃ y₃) (addY a d x₂ y₂ x₃ y₃) ∧
      addY a d (addX d x₁ y₁ x₂ y₂) (addY a d x₁ y₁ x₂ y₂) x₃ y₃ =
        addY a d x₁ y₁ (addX d x₂ y₂ x₃ y₃) (addY a d x₂ y₂ x₃ y₃) := by
  have p12 := one_add_tOf_ne h12
  have m12 := one_sub_tOf_ne h12
  have p23 := one_add_tOf_ne h23
  have m23 := one_sub_tOf_ne h23
  have pl := one_add_tOf_ne hl
  have ml := one_sub_tOf_ne hl
  have pr := one_add_tOf_ne hr
  have mr := one_sub_tOf_ne hr
  have kx := assoc_identity_x h₁ h₂ h₃
  have ky := assoc_identity_y h₁ h₂ h₃
  -- write each outer product over the two inner denominators
  have el : tOf d (addX d x₁ y₁ x₂ y₂) (addY a d x₁ y₁ x₂ y₂) x₃ y₃ *
      ((1 + tOf d x₁ y₁ x₂ y₂) * (1 - tOf d x₁ y₁ x₂ y₂)) =
      d * (x₁ * y₂ + y₁ * x₂) * (y₁ * y₂ - a * x₁ * x₂) * x₃ * y₃ := by
    unfold addX addY
    generalize tOf d x₁ y₁ x₂ y₂ = t at *
    unfold tOf
    field_simp
  have er : tOf d x₁ y₁ (addX d x₂ y₂ x₃ y₃) (addY a d x₂ y₂ x₃ y₃) *
      ((1 + tOf d x₂ y₂ x₃ y₃) * (1 - tOf d x₂ y₂ x₃ y₃)) =
      d * x₁ * y₁ * (x₂ * y₃ + y₂ * x₃) * (y₂ * y₃ - a * x₂ * x₃) := by
    unfold addX addY
    generalize tOf d x₂ y₂ x₃ y₃ = t at *
    unfold tOf
    field_simp
  constructor
  · rw [addX.eq_1 d (addX d x₁ y₁ x₂ y₂), addX.eq_1 d x₁ y₁ (addX d x₂ y₂ x₃ y₃)]
    apply div_eq_of_cross pl pr
    generalize tOf d (addX d x₁ y₁ x₂ y₂) (addY a d x₁ y₁ x₂ y₂) x₃ y₃ = l at *
    generalize tOf d x₁ y₁ (addX d x₂ y₂ x₃ y₃) (addY a d x₂ y₂ x₃ y₃) = r at *
    unfold addX addY
    generalize tOf d x₁ y₁ x₂ y₂ = t at *
    generalize tOf d x₂ y₂ x₃ y₃ = u at *
    field_simp
    linear_combination kx +
      ((x₁ * y₂ + y₁ * x₂) * (1 - t) * y₃ + (y₁ * y₂ - a * x₁ * x₂) * (1 + t) * x₃) * er -
      (x₁ * (y₂ * y₃ - a * x₂ * x₃) * (1 + u) + y₁ * (x₂ * y₃ + y₂ * x₃) * (1 - u)) * el
  · rw [addY.eq_1 a d (addX d x₁ y₁ x₂ y₂), addY.eq_1 a d x₁ y₁ (addX d x₂ y₂ x₃ y₃)]
    apply div_eq_of_cross ml mr
    generalize tOf d (addX d x₁ y₁ x₂ y₂) (addY a d x₁ y₁ x₂ y₂) x₃ y₃ = l at *
    generalize tOf d x₁ y₁ (addX d x₂ y₂ x₃ y₃) (addY a d x₂ y₂ x₃ y₃) = r at *
    unfold addX addY
    generalize tOf d x₁ y₁ x₂ y₂ = t at *
    generalize tOf d x₂ y₂ x₃ y₃ = u at *
    field_simp
    linear_combination ky -
      ((y₁ * y₂ - a * x₁ * x₂) * (1 + t) * y₃ - a * (x₁ * y₂ + y₁ * x₂) * (1 - t) * x₃) * er +
      (y₁ * (y₂ * y₃ - a * x₂ * x₃) * (1 + u) - a * x₁ * (x₂ * y₃ + y₂ * x₃) * (1 - u)) * el

end Sys2Proof.Laws.Edwards
end

