-- ==== Sys2Proof/Laws/Field.lean ====
section
/-! SUPPORT. The arithmetic of Machine/Field.lean read in `ZMod p`, where it is the field's (R11, R120). -/

namespace Sys2Proof.Laws

open Sys2Proof.Machine Sys2Proof.Config

theorem fadd_lt {p : Nat} (hp : 0 < p) (a b : Nat) : fadd p a b < p := Nat.mod_lt _ hp

theorem fsub_lt {p : Nat} (hp : 0 < p) (a b : Nat) : fsub p a b < p := Nat.mod_lt _ hp

theorem fmul_lt {p : Nat} (hp : 0 < p) (a b : Nat) : fmul p a b < p := Nat.mod_lt _ hp

theorem fneg_lt {p : Nat} (hp : 0 < p) (a : Nat) : fneg p a < p := Nat.mod_lt _ hp

theorem finv_lt {p : Nat} (hp : 0 < p) (a : Nat) : finv p a < p := Nat.mod_lt _ hp

@[simp] theorem cast_fadd (p a b : Nat) : ((fadd p a b : Nat) : ZMod p) = a + b := by simp [fadd]

@[simp] theorem cast_fmul (p a b : Nat) : ((fmul p a b : Nat) : ZMod p) = a * b := by simp [fmul]

theorem cast_fneg {p : Nat} (hp : 0 < p) (a : Nat) : ((fneg p a : Nat) : ZMod p) = -a := by
  have h : a % p ≤ p := (Nat.mod_lt a hp).le
  simp [fneg, Nat.cast_sub h]

theorem cast_fsub {p : Nat} (hp : 0 < p) (a b : Nat) : ((fsub p a b : Nat) : ZMod p) = a - b := by
  have h : b % p ≤ p := (Nat.mod_lt b hp).le
  simp [fsub, Nat.cast_sub h, sub_eq_add_neg]

theorem cast_finv {p : Nat} (hp : p.Prime) (h2 : 2 < p) (a : Nat) :
    ((finv p a : Nat) : ZMod p) = (a : ZMod p)⁻¹ := by
  have : Fact p.Prime := ⟨hp⟩
  by_cases h0 : (a : ZMod p) = 0
  · simp [finv, h0, show p - 2 ≠ 0 by omega]
  · have h : (a : ZMod p) ^ (p - 2) * a = 1 := by
      rw [← pow_succ, show p - 2 + 1 = p - 1 by omega]
      exact ZMod.pow_card_sub_one_eq_one h0
    simpa [finv] using (eq_inv_of_mul_eq_one_left h)

/-- Two canonical integers with the same residue are equal (R11). -/
theorem eq_of_cast_eq {p a b : Nat} (ha : a < p) (hb : b < p) (h : (a : ZMod p) = b) : a = b := by
  have := (ZMod.natCast_eq_natCast_iff' a b p).mp h
  rwa [Nat.mod_eq_of_lt ha, Nat.mod_eq_of_lt hb] at this

/-- `inv(a)` is the inverse (R11, R120). -/
theorem fmul_finv {p : Nat} (hp : p.Prime) (h2 : 2 < p) {a : Nat} (ha : a % p ≠ 0) :
    fmul p a (finv p a) = 1 := by
  have : Fact p.Prime := ⟨hp⟩
  apply eq_of_cast_eq (fmul_lt hp.pos _ _) hp.one_lt
  have h0 : (a : ZMod p) ≠ 0 := fun h => ha (by
    have := (ZMod.natCast_eq_zero_iff a p).mp h
    exact Nat.mod_eq_zero_of_dvd this)
  rw [cast_fmul, cast_finv hp h2]
  simp [h0]

/-- What the square-root search answers (R120, R130). -/
theorem fsqrt_eq_some {p v r : Nat} (h : fsqrt p v = some r) : r < p ∧ fmul p r r = v := by
  have hm := List.mem_of_find?_eq_some h
  have hr := List.find?_some h
  exact ⟨by simpa using hm, by simpa using hr⟩

theorem fsqrt_eq_none {p v : Nat} (h : fsqrt p v = none) : ∀ r < p, fmul p r r ≠ v := by
  intro r hr
  have := List.find?_eq_none.mp h r (by simpa using hr)
  simpa using this

theorem Valid.two_lt {s : Scheme} (h : s.Valid) : 2 < s.curve.p := by
  have := h.p_prime.two_le
  have := h.p_odd
  omega

end Sys2Proof.Laws
end

