-- ==== Sys2Proof/Laws/Curve.lean ====
section
/-! SUPPORT. The points of a valid scheme's curve form a commutative group under the addition law (R124-R126 of
40_field_curve.md). -/

namespace Sys2Proof.Laws

open Sys2Proof.Machine Sys2Proof.Config

/-- Both coordinates are canonical (R11). -/
def Canon (c : Curve) (P : Aff) : Prop := P.x < c.p ∧ P.y < c.p

/-- A canonical point of the curve. -/
def OnC (c : Curve) (P : Aff) : Prop := Canon c P ∧ onCurve c P = true

theorem Canon.ext {c : Curve} {P Q : Aff} (hP : Canon c P) (hQ : Canon c Q)
    (hx : (P.x : ZMod c.p) = Q.x) (hy : (P.y : ZMod c.p) = Q.y) : P = Q := by
  obtain ⟨px, py⟩ := P
  obtain ⟨qx, qy⟩ := Q
  simp only [Aff.mk.injEq]
  exact ⟨eq_of_cast_eq hP.1 hQ.1 hx, eq_of_cast_eq hP.2 hQ.2 hy⟩

theorem onCurve_iff {c : Curve} [Fact c.p.Prime] (P : Aff) :
    onCurve c P = true ↔ Edwards.On (c.a : ZMod c.p) c.d P.x P.y := by
  have hp : 0 < c.p := (Fact.out : c.p.Prime).pos
  unfold onCurve Edwards.On
  rw [beq_iff_eq]
  constructor
  · intro h
    have := congrArg (Nat.cast : Nat → ZMod c.p) h
    simpa using this
  · intro h
    apply eq_of_cast_eq (fadd_lt hp _ _) (fadd_lt hp _ _)
    simpa using h

theorem addPt_canon {c : Curve} (hp : 0 < c.p) (P Q : Aff) : Canon c (addPt c P Q) :=
  ⟨fmul_lt hp _ _, fmul_lt hp _ _⟩

theorem cast_addPt_x {c : Curve} [hp : Fact c.p.Prime] (h2 : 2 < c.p) (P Q : Aff) :
    ((addPt c P Q).x : ZMod c.p) = Edwards.addX (c.d : ZMod c.p) P.x P.y Q.x Q.y := by
  simp [addPt, Edwards.addX, Edwards.tOf, cast_finv hp.out h2]

theorem cast_addPt_y {c : Curve} [hp : Fact c.p.Prime] (h2 : 2 < c.p) (P Q : Aff) :
    ((addPt c P Q).y : ZMod c.p) = Edwards.addY (c.a : ZMod c.p) c.d P.x P.y Q.x Q.y := by
  simp [addPt, Edwards.addY, Edwards.tOf, cast_finv hp.out h2, cast_fsub hp.out.pos]

theorem identity_onC {c : Curve} [Fact c.p.Prime] (h2 : 2 < c.p) : OnC c identity := by
  refine ⟨⟨by simp [identity]; omega, by simp [identity]; omega⟩, ?_⟩
  rw [onCurve_iff]
  simp [Edwards.On, identity]

theorem pointT2_onC {c : Curve} [Fact c.p.Prime] (h2 : 2 < c.p) : OnC c (pointT2 c) := by
  refine ⟨⟨by simp [pointT2]; omega, by simp [pointT2]; omega⟩, ?_⟩
  rw [onCurve_iff]
  have : ((c.p - 1 : Nat) : ZMod c.p) = -1 := by
    rw [Nat.cast_sub (by omega)]; simp
  simp [Edwards.On, pointT2, this]

theorem addPt_comm (c : Curve) (P Q : Aff) : addPt c P Q = addPt c Q P := by
  simp only [addPt, fmul, fadd, fsub, Aff.mk.injEq]
  have e1 : ∀ a b k : Nat, (a * b % k) = (b * a % k) := fun a b k => by rw [mul_comm]
  have ht : ∀ p d a b x y : Nat,
      d * a % p * b % p * x % p * y % p = d * b % p * a % p * y % p * x % p := by
    intro p d a b x y
    simp only [Nat.mod_mul_mod]
    congr 1
    ring
  rw [ht c.p c.d P.x Q.x P.y Q.y]
  refine ⟨?_, ?_⟩
  · rw [e1 P.x Q.y, e1 P.y Q.x, add_comm (Q.y * P.x % c.p)]
  · have : c.a * P.x % c.p * Q.x % c.p = c.a * Q.x % c.p * P.x % c.p := by
      rw [Nat.mod_mul_mod, Nat.mod_mul_mod, mul_right_comm]
    rw [this, e1 P.y Q.y]

/-- The facts of a valid scheme that the completeness of the addition law needs, in `ZMod p` (R125). -/
theorem Valid.tOf_sq_ne_one {s : Scheme} [Fact s.curve.p.Prime] (h : s.Valid) {P Q : Aff}
    (hP : onCurve s.curve P = true) (hQ : onCurve s.curve Q = true) :
    Edwards.tOf (s.curve.d : ZMod s.curve.p) P.x P.y Q.x Q.y *
      Edwards.tOf (s.curve.d : ZMod s.curve.p) P.x P.y Q.x Q.y ≠ 1 := by
  have h2 := Valid.two_lt h
  have hp := h.p_prime
  obtain ⟨r, -, hr⟩ := h.a_square
  have hα : (r : ZMod s.curve.p) * r = s.curve.a := by
    have := congrArg (Nat.cast : Nat → ZMod s.curve.p) hr
    simpa using this
  refine Edwards.tOf_sq_ne_one (α := (r : ZMod s.curve.p)) hα ?_ ?_ ?_
    ((onCurve_iff P).mp hP) ((onCurve_iff Q).mp hQ)
  · intro z hz
    apply h.d_nonsquare z.val (ZMod.val_lt z)
    apply eq_of_cast_eq (fmul_lt hp.pos _ _) h.d_lt
    simpa using hz
  · intro h0
    have : ((2 : Nat) : ZMod s.curve.p) = ((0 : Nat) : ZMod s.curve.p) := by simpa using h0
    exact absurd (eq_of_cast_eq h2 hp.pos this) (by decide)
  · rintro h0
    rw [h0] at hα
    have : ((s.curve.a : Nat) : ZMod s.curve.p) = ((0 : Nat) : ZMod s.curve.p) := by simpa using hα.symm
    exact h.a_ne (eq_of_cast_eq h.a_lt hp.pos this)

/-- The sum of two points of the curve is on the curve (R125). -/
theorem addPt_onC {s : Scheme} (h : s.Valid) {P Q : Aff} (hP : OnC s.curve P) (hQ : OnC s.curve Q) :
    OnC s.curve (addPt s.curve P Q) := by
  have hp := h.p_prime
  have : Fact s.curve.p.Prime := ⟨hp⟩
  refine ⟨addPt_canon hp.pos _ _, ?_⟩
  rw [onCurve_iff, cast_addPt_x (Valid.two_lt h), cast_addPt_y (Valid.two_lt h)]
  exact Edwards.add_on ((onCurve_iff P).mp hP.2) ((onCurve_iff Q).mp hQ.2)
    (Valid.tOf_sq_ne_one h hP.2 hQ.2)

/-- The addition law is associative on the points of the curve (R126). -/
theorem addPt_assoc {s : Scheme} (h : s.Valid) {P Q R : Aff}
    (hP : OnC s.curve P) (hQ : OnC s.curve Q) (hR : OnC s.curve R) :
    addPt s.curve (addPt s.curve P Q) R = addPt s.curve P (addPt s.curve Q R) := by
  have hp := h.p_prime
  have h2 := Valid.two_lt h
  have : Fact s.curve.p.Prime := ⟨hp⟩
  have hl := Valid.tOf_sq_ne_one h (addPt_onC h hP hQ).2 hR.2
  have hr := Valid.tOf_sq_ne_one h hP.2 (addPt_onC h hQ hR).2
  rw [cast_addPt_x h2, cast_addPt_y h2] at hl hr
  have key := Edwards.add_assoc ((onCurve_iff P).mp hP.2) ((onCurve_iff Q).mp hQ.2)
    ((onCurve_iff R).mp hR.2) (Valid.tOf_sq_ne_one h hP.2 hQ.2)
    (Valid.tOf_sq_ne_one h hQ.2 hR.2) hl hr
  apply Canon.ext (addPt_canon hp.pos _ _) (addPt_canon hp.pos _ _)
  · simpa [cast_addPt_x h2, cast_addPt_y h2] using key.1
  · simpa [cast_addPt_x h2, cast_addPt_y h2] using key.2

theorem identity_addPt {s : Scheme} (h : s.Valid) {P : Aff} (hP : Canon s.curve P) :
    addPt s.curve identity P = P := by
  have hp := h.p_prime
  have : Fact s.curve.p.Prime := ⟨hp⟩
  have h2 := Valid.two_lt h
  apply Canon.ext (addPt_canon hp.pos _ _) hP
  · rw [cast_addPt_x h2]; simp [Edwards.addX, Edwards.tOf, identity]
  · rw [cast_addPt_y h2]; simp [Edwards.addY, Edwards.tOf, identity]

theorem addPt_identity {s : Scheme} (h : s.Valid) {P : Aff} (hP : Canon s.curve P) :
    addPt s.curve P identity = P := by
  rw [addPt_comm, identity_addPt h hP]

theorem Valid.identity_onC {s : Scheme} (h : s.Valid) : OnC s.curve identity :=
  have : Fact s.curve.p.Prime := ⟨h.p_prime⟩
  Laws.identity_onC (Valid.two_lt h)

theorem Valid.pointT2_onC {s : Scheme} (h : s.Valid) : OnC s.curve (pointT2 s.curve) :=
  have : Fact s.curve.p.Prime := ⟨h.p_prime⟩
  Laws.pointT2_onC (Valid.two_lt h)

theorem smul_onC {s : Scheme} (h : s.Valid) {P : Aff} (hP : OnC s.curve P) (k : Nat) :
    OnC s.curve (smul s.curve k P) := by
  induction k with
  | zero => exact Valid.identity_onC h
  | succ k ih => exact addPt_onC h ih hP

theorem smul_identity {s : Scheme} (h : s.Valid) (k : Nat) : smul s.curve k identity = identity := by
  induction k with
  | zero => rfl
  | succ k ih =>
    rw [smul, ih, identity_addPt h (Valid.identity_onC h).1]

/-- `[j + k]P = [j]P + [k]P`. -/
theorem smul_add {s : Scheme} (h : s.Valid) {P : Aff} (hP : OnC s.curve P) (j k : Nat) :
    smul s.curve (j + k) P = addPt s.curve (smul s.curve j P) (smul s.curve k P) := by
  induction k with
  | zero => exact (addPt_identity h (smul_onC h hP j).1).symm
  | succ k ih =>
    rw [← Nat.add_assoc, smul, ih, addPt_assoc h (smul_onC h hP j) (smul_onC h hP k) hP, smul]

/-- `[k](P + Q) = [k]P + [k]Q`. -/
theorem smul_addPt {s : Scheme} (h : s.Valid) {P Q : Aff} (hP : OnC s.curve P) (hQ : OnC s.curve Q)
    (k : Nat) : smul s.curve k (addPt s.curve P Q) =
      addPt s.curve (smul s.curve k P) (smul s.curve k Q) := by
  induction k with
  | zero => exact (addPt_identity h (Valid.identity_onC h).1).symm
  | succ k ih =>
    have hPk := smul_onC h hP k
    have hQk := smul_onC h hQ k
    rw [smul, ih, smul, smul, addPt_assoc h hPk hQk (addPt_onC h hP hQ), ← addPt_assoc h hQk hP hQ,
      addPt_comm _ _ P, addPt_assoc h hP hQk hQ, ← addPt_assoc h hPk hP (addPt_onC h hQk hQ)]

end Sys2Proof.Laws
end

