-- ==== Sys2Proof/Laws/Decode.lean ====
section
/-! SUPPORT. Splitting a command word into fields and assembling it from them are inverse to each other (R90 of
30_encoding.md). -/

namespace Sys2Proof.Laws

theorem fieldsOf_wordOf (f : Fields) : fieldsOf (wordOf f) = f := by
  rcases f with ⟨op, d, s1, s2, d2, n, rsv⟩
  simp only [fieldsOf, wordOf, Fields.mk.injEq]
  refine ⟨?_, ?_, ?_, ?_, ?_, ?_, ?_⟩ <;>
  · ext i hi
    simp [BitVec.getElem_extractLsb']
    try grind

theorem wordOf_fieldsOf (w : CmdWord) : wordOf (fieldsOf w) = w := by
  ext i hi
  simp [fieldsOf, wordOf]
  grind

/-- Words are equal exactly when their fields are. -/
theorem wordOf_inj {f g : Fields} : wordOf f = wordOf g ↔ f = g :=
  ⟨fun h => by rw [← fieldsOf_wordOf f, h, fieldsOf_wordOf], fun h => by rw [h]⟩

end Sys2Proof.Laws
end

