-- ==== Sys2Proof/Laws/Decoding.lean ====
section
/-! SUPPORT. What y-recovery answers (R130 of 40_field_curve.md, R152 of 41_point_codec.md). -/

namespace Sys2Proof.Laws

open Sys2Proof.Machine Sys2Proof.Config

/-- On a valid scheme the denominator of y-recovery is never 0, and a y is a candidate's square root exactly
when the point is on the curve (R130). -/
theorem onCurve_iff_square {s : Scheme} (h : s.Valid) {x y : Nat} (_hy : y < s.curve.p) :
    (fsub s.curve.p 1 (fmul s.curve.p (fmul s.curve.p s.curve.d x) x) ≠ 0) ∧
    (onCurve s.curve ⟨x, y⟩ = true ↔
      fmul s.curve.p y y =
        fmul s.curve.p (fsub s.curve.p 1 (fmul s.curve.p (fmul s.curve.p s.curve.a x) x))
          (finv s.curve.p (fsub s.curve.p 1 (fmul s.curve.p (fmul s.curve.p s.curve.d x) x)))) := by
  have hp := h.p_prime
  have h2 := Valid.two_lt h
  have : Fact s.curve.p.Prime := ⟨hp⟩
  have hden : (1 : ZMod s.curve.p) - s.curve.d * x * x ≠ 0 := by
    intro h0
    have hx : (x : ZMod s.curve.p) ≠ 0 := by
      intro hx
      rw [hx] at h0
      simp at h0
    apply h.d_nonsquare ((x : ZMod s.curve.p)⁻¹).val (ZMod.val_lt _)
    apply eq_of_cast_eq (fmul_lt hp.pos _ _) h.d_lt
    rw [cast_fmul, ZMod.natCast_zmod_val]
    field_simp
    linear_combination h0
  have hcd : ((fsub s.curve.p 1 (fmul s.curve.p (fmul s.curve.p s.curve.d x) x) : Nat) :
      ZMod s.curve.p) = 1 - s.curve.d * x * x := by
    rw [cast_fsub hp.pos]; simp
  have hca : ((fsub s.curve.p 1 (fmul s.curve.p (fmul s.curve.p s.curve.a x) x) : Nat) :
      ZMod s.curve.p) = 1 - s.curve.a * x * x := by
    rw [cast_fsub hp.pos]; simp
  constructor
  · intro h0
    apply hden
    rw [← hcd, h0]
    simp
  · rw [onCurve_iff]
    constructor
    · intro hon
      apply eq_of_cast_eq (fmul_lt hp.pos _ _) (fmul_lt hp.pos _ _)
      rw [cast_fmul, cast_fmul, cast_finv hp h2, hcd, hca]
      unfold Edwards.On at hon
      rw [eq_mul_inv_iff_mul_eq₀ hden]
      linear_combination hon
    · intro hsq
      have := congrArg (Nat.cast : Nat → ZMod s.curve.p) hsq
      rw [cast_fmul, cast_fmul, cast_finv hp h2, hcd, hca] at this
      unfold Edwards.On
      rw [eq_mul_inv_iff_mul_eq₀ hden] at this
      linear_combination this

/-- `Candidates(x)` lists exactly the y-coordinates of the points of the curve with this x (R130). -/
theorem mem_candidates {s : Scheme} (h : s.Valid) {x y : Nat} :
    y ∈ candidates s.curve x ↔ y < s.curve.p ∧ onCurve s.curve ⟨x, y⟩ = true := by
  have hp := h.p_prime
  have h2 := Valid.two_lt h
  have : Fact s.curve.p.Prime := ⟨hp⟩
  have hden := (onCurve_iff_square h (x := x) hp.pos).1
  unfold candidates
  simp only [if_neg hden]
  set v := fmul s.curve.p (fsub s.curve.p 1 (fmul s.curve.p (fmul s.curve.p s.curve.a x) x))
    (finv s.curve.p (fsub s.curve.p 1 (fmul s.curve.p (fmul s.curve.p s.curve.d x) x))) with hv
  have hon : ∀ z < s.curve.p, onCurve s.curve ⟨x, z⟩ = true ↔ fmul s.curve.p z z = v :=
    fun z hz => (onCurve_iff_square h hz).2
  have hvp : v < s.curve.p := fmul_lt hp.pos _ _
  cases hr : fsqrt s.curve.p v with
  | none =>
    simp only [List.not_mem_nil, false_iff, not_and]
    intro hy hc
    exact fsqrt_eq_none hr y hy ((hon y hy).mp hc)
  | some r =>
    obtain ⟨hrp, hrr⟩ := fsqrt_eq_some hr
    have hroots : ∀ z < s.curve.p, fmul s.curve.p z z = v →
        (z : ZMod s.curve.p) = r ∨ (z : ZMod s.curve.p) = -r := by
      intro z _ hzv
      have := congrArg (Nat.cast : Nat → ZMod s.curve.p) (hzv.trans hrr.symm)
      rw [cast_fmul, cast_fmul] at this
      exact mul_self_eq_mul_self_iff.mp this
    by_cases hv0 : v = 0
    · simp only [if_pos hv0, List.mem_singleton]
      have hr0 : (r : ZMod s.curve.p) = 0 := by
        have := congrArg (Nat.cast : Nat → ZMod s.curve.p) (hrr.trans hv0)
        rw [cast_fmul] at this
        simpa using this
      constructor
      · rintro rfl
        refine ⟨hp.pos, (hon 0 hp.pos).mpr ?_⟩
        rw [hv0]
        simp [fmul]
      · rintro ⟨hy, hc⟩
        apply eq_of_cast_eq hy hp.pos
        rcases hroots y hy ((hon y hy).mp hc) with h' | h' <;> rw [h', hr0] <;> simp
    · simp only [if_neg hv0, List.mem_cons, List.not_mem_nil, or_false]
      have hr0 : r ≠ 0 := by
        rintro rfl
        exact hv0 (by rw [← hrr]; simp [fmul])
      have hneg : ((s.curve.p - r : Nat) : ZMod s.curve.p) = -r := by
        rw [Nat.cast_sub hrp.le]; simp
      have hmm : (y = min r (s.curve.p - r) ∨ y = max r (s.curve.p - r)) ↔
          (y = r ∨ y = s.curve.p - r) := by
        rcases Nat.le_total r (s.curve.p - r) with hle | hle
        · rw [min_eq_left hle, max_eq_right hle]
        · rw [min_eq_right hle, max_eq_left hle, or_comm]
      rw [hmm]
      constructor
      · rintro (rfl | rfl)
        · exact ⟨hrp, (hon _ hrp).mpr hrr⟩
        · have hlt : s.curve.p - r < s.curve.p := by omega
          refine ⟨hlt, (hon _ hlt).mpr ?_⟩
          apply eq_of_cast_eq (fmul_lt hp.pos _ _) hvp
          rw [← hrr, cast_fmul, cast_fmul, hneg]
          ring
      · rintro ⟨hy, hc⟩
        rcases hroots y hy ((hon y hy).mp hc) with h' | h'
        · exact .inl (eq_of_cast_eq hy hrp h')
        · refine .inr (eq_of_cast_eq hy (by omega) ?_)
          rw [hneg, h']

/-- A point that `DecodeX` answers has this x and passed both checks (R152). -/
theorem decodeX_some {s : Scheme} (h : s.Valid) {x : Nat} {q : Aff}
    (hq : decodeX s.curve x = some q) :
    q.x = x ∧ q.y < s.curve.p ∧ onCurve s.curve q = true ∧ inSubgroup s.curve q = true := by
  unfold decodeX at hq
  obtain ⟨y, hy, rfl⟩ := Option.map_eq_some_iff.mp hq
  have hm := (mem_candidates h).mp (List.mem_of_find?_eq_some hy)
  exact ⟨rfl, hm.1, hm.2, List.find?_some (p := fun y => inSubgroup s.curve ⟨x, y⟩) hy⟩

/-- `DecodeX` fails exactly when no point of the curve with this x is in the subgroup (R152). -/
theorem decodeX_eq_none_iff {s : Scheme} (h : s.Valid) {x : Nat} :
    decodeX s.curve x = none ↔
      ∀ y < s.curve.p, onCurve s.curve ⟨x, y⟩ = true → ¬inSubgroup s.curve ⟨x, y⟩ = true := by
  unfold decodeX
  rw [Option.map_eq_none_iff, List.find?_eq_none]
  constructor
  · intro hn y hy hc
    exact hn y ((mem_candidates h).mpr ⟨hy, hc⟩)
  · intro hn y hy
    have := (mem_candidates h).mp hy
    exact hn y this.1 this.2

end Sys2Proof.Laws
end

