-- ==== Sys2Proof/Laws/Step.lean ====
section
/-! SUPPORT. What one step can do: the inputs, the engine's move and the host transactions, each with all its
outcomes (R74 of 20_memory.md). -/

namespace Sys2Proof.Laws

open Sys2Proof.Machine Sys2Proof.Config

/-- A step is the engine's move when nothing is scheduled, and else the effect of the next input. -/
theorem step_cases {s t : State} (h : step s = .next t) :
    (s.inputs = [] ∧ engineMove s = .next t) ∨
    ∃ i r, s.inputs = i :: r ∧ takeInput i { s with inputs := r } = .next t := by
  unfold step at h
  split at h
  · next hi => exact .inl ⟨hi, h⟩
  · next i r hi => exact .inr ⟨i, r, hi, h⟩

/-- The engine is idle, refuses an illegal word, or runs the command the word spells. -/
theorem engineMove_cases {s t : State} (h : engineMove s = .next t) :
    t = s ∨
    (s.rstN = true ∧ (∃ w, s.latch = some w) ∧ t = s.finish (errNumber .illegalCommand)) ∨
    ∃ w i, s.rstN = true ∧ s.latch = some w ∧ decode w = .ok i ∧ exec i s = .next t := by
  unfold engineMove at h
  split at h
  · next hr =>
    split at h
    · cases h
      exact .inl rfl
    · next w hw =>
      unfold runWord at h
      split at h
      · cases h
        exact .inr (.inl ⟨hr, ⟨w, hw⟩, rfl⟩)
      · next i hi => exact .inr (.inr ⟨w, i, hr, hw, hi, h⟩)
  · cases h
    exact .inl rfl

/-- A host read changes the read data and ACCERR at most, and in reset the read data only. -/
theorem hostRead_cases (c : Params) (s : State) (addr size : Nat) :
    hostRead c s addr size = s ∨
    ∃ v b, hostRead c s addr size = { s with readData := v, accErr := b } ∧
      (s.rstN = false → v = 0 ∧ b = s.accErr) := by
  unfold hostRead
  split
  · exact .inl rfl
  · next off h =>
    split
    · next hr =>
      rcases busRead_cases c s off size with ⟨-, h⟩ | ⟨-, h⟩
      · exact .inr ⟨_, s.accErr, h, by simp [hr]⟩
      · exact .inr ⟨_, true, h, by simp [hr]⟩
    · exact .inr ⟨0, s.accErr, rfl, by simp⟩

/-- A host write does nothing, sets ACCERR, or is a legal write of its target. -/
theorem hostWrite_cases (c : Params) (s : State) (addr size : Nat) (v : BusWord) :
    hostWrite c s addr size v = s ∨
    (s.rstN = true ∧ hostWrite c s addr size v = s.setAccErr) ∨
    ∃ off : BitVec 14, s.rstN = true ∧ addr = c.blockBase + off.toNat ∧ size = 4 ∧
      classify s.busy true off size = .legal ∧
      hostWrite c s addr size v = writeTarget c s v (target off.toNat) := by
  unfold hostWrite
  split
  · exact .inl rfl
  · next off h =>
    split
    · next hr =>
      rcases busWrite_cases c s off size v with ⟨hc, h'⟩ | ⟨-, h'⟩
      · refine .inr (.inr ⟨off, hr, ?_, ((classify_legal_iff _ _ _ _).mp hc).1, hc, h'⟩)
        unfold portOffset at h
        split at h
        · injection h with h
          subst h
          rw [toNat_offset (by omega)]
          omega
        · cases h
      · exact .inr (.inl ⟨hr, h'⟩)
    · exact .inl rfl

/-- Each input's effect. -/
theorem takeInput_cases {s t : State} {i : Input} (h : takeInput i s = .next t) :
    (∃ a n, i = .hostRead a n ∧ t = hostRead block s a n) ∨
    (∃ a n v, i = .hostWrite a n v ∧ t = hostWrite block s a n v) ∨
    (∃ v, i = .rngDeliver v ∧ t = rngDeliver s v) ∨ (i = .engine ∧ engineMove s = .next t) ∨
    (i = .rstLow ∧ t = s.rstFall) ∨ (i = .rstHigh ∧ t = s.rstRise) ∨ (i = .powerOn ∧ t = s.powerOn) := by
  cases i <;> simp [takeInput] at h ⊢ <;> first | exact h.symm | exact h

/-- A delivery answers an outstanding request and nothing else (R45). -/
theorem rngDeliver_cases (s : State) (v : Word) :
    (s.rng = .requested ∧ rngDeliver s v = { s with rng := .delivered v }) ∨
    (s.rng ≠ .requested ∧ rngDeliver s v = s) := by
  unfold rngDeliver
  cases s.rng <;> simp

end Sys2Proof.Laws
end

