-- ==== Sys2Proof/Machine/Assembler.lean ====
section
/-! DEFINITION. The assembler's syntax (R98, R99 of 30_encoding.md): one command a line, `;` starts a comment. Lines are
lists of characters (entry 19). -/

namespace Sys2Proof.Machine

/-- What one line assembles to. -/
inductive AsmLine where
  /-- A blank line or a comment. -/
  | blank
  /-- A command. -/
  | command (i : Instr)
  /-- A pseudo-instruction (R99). -/
  | pseudo (q : Pseudo)
  /-- `.cmd W`. -/
  | raw (w : CmdWord)
deriving DecidableEq, Repr

/-- A blank character. -/
def isBlank (ch : Char) : Bool := ch == ' ' || ch == '\t'

/-- Drop blanks at both ends. -/
def trimBlanks (cs : List Char) : List Char :=
  ((cs.dropWhile isBlank).reverse.dropWhile isBlank).reverse

/-- Cut at every comma. -/
def splitCommas : List Char → List (List Char)
  | [] => [[]]
  | ch :: cs =>
    if ch == ',' then [] :: splitCommas cs
    else
      match splitCommas cs with
      | [] => [[ch]]
      | f :: fs => (ch :: f) :: fs

/-- The value of a hexadecimal digit. -/
def digitValue (ch : Char) : Option Nat :=
  if '0' ≤ ch ∧ ch ≤ '9' then some (ch.toNat - '0'.toNat)
  else if 'a' ≤ ch ∧ ch ≤ 'f' then some (ch.toNat - 'a'.toNat + 10)
  else if 'A' ≤ ch ∧ ch ≤ 'F' then some (ch.toNat - 'A'.toNat + 10)
  else none

/-- Digits of base `b`, the most significant first, after the number `acc`. -/
def digitsValue (b : Nat) : (acc : Nat) → List Char → Option Nat
  | acc, [] => some acc
  | acc, ch :: cs =>
    match digitValue ch with
    | none => none
    | some v => if v < b then digitsValue b (acc * b + v) cs else none

/-- A number in decimal or `0x` hexadecimal (R98). -/
def numberOf : List Char → Option Nat
  | [] => none
  | '0' :: 'x' :: [] => none
  | '0' :: 'x' :: ch :: cs => digitsValue 16 0 (ch :: cs)
  | ch :: cs => digitsValue 10 0 (ch :: cs)

/-- An operand of the kind written with the letter `kind`, below `bound` (R98). -/
def operandOf (kind : Char) (bound : Nat) : List Char → Option Nat
  | [] => none
  | ch :: cs => if ch == kind then (numberOf cs).filter (· < bound) else none

/-- `e<n>`, n in 0..255. -/
def eOperand (cs : List Char) : Option EField := (operandOf 'e' 256 cs).map (BitVec.ofNat 8)

/-- `p<n>`, n in 0..7. -/
def pOperand (cs : List Char) : Option PField := (operandOf 'p' 8 cs).map (BitVec.ofNat 8)

/-- `s<n>`, n in 0..7. -/
def sOperand (cs : List Char) : Option SField := (operandOf 's' 8 cs).map (BitVec.ofNat 8)

/-- `#<n>`, n in 0..max. -/
def countOperand (max : Nat) (cs : List Char) : Option CountField :=
  (operandOf '#' (max + 1) cs).map (BitVec.ofNat 13)

/-- A mnemonic with its operands (the tables of R98 and R99). -/
def assembleLine (mnemonic : List Char) (ops : List (List Char)) : Option AsmLine :=
  match mnemonic, ops with
  | ['N', 'O', 'P'], [] => some (.command .nop)
  | ['P', 'E', 'N', 'C'], [a, b] => do
    some (.command (.penc (← eOperand a) (← pOperand b)))
  | ['P', 'D', 'E', 'C'], [a, b] => do
    some (.command (.pdec (← pOperand a) (← eOperand b)))
  | ['G', 'E', 'N', 'S', 'K'], [a] => do
    some (.command (.gensk (← sOperand a)))
  | ['P', 'U', 'B', 'K', 'E', 'Y'], [a, b] => do
    some (.command (.pubkey (← pOperand a) (← sOperand b)))
  | ['I', 'N', 'I', 'T'], [a, b, x, y] => do
    some (.command (.init (← eOperand a) (← eOperand b) (← pOperand x) (← sOperand y)))
  | ['C', 'O', 'M', 'P', 'L'], [a, b, x] => do
    some (.command (.compl (← eOperand a) (← sOperand b) (← eOperand x)))
  | ['C', 'O', 'M', 'M', 'I', 'T'], [a, b] => do
    some (.command (.commit (← eOperand a) (← eOperand b)))
  | ['E', 'N', 'C'], [a, b, x, y] => do
    some (.command (.enc (← eOperand a) (← eOperand b) (← eOperand x) (← countOperand 256 y)))
  | ['D', 'E', 'C'], [a, b, x, y] => do
    some (.command (.dec (← eOperand a) (← eOperand b) (← eOperand x) (← countOperand 256 y)))
  | ['P', 'A', 'C', 'K'], [a, b] => do
    some (.command (.pack (← eOperand a) (← countOperand 4096 b)))
  | ['U', 'N', 'P', 'A', 'C', 'K'], [a, b] => do
    some (.command (.unpack (← eOperand a) (← countOperand 256 b)))
  | ['K', 'E', 'Y', 'G', 'E', 'N'], [a, b] => do
    some (.pseudo (.keygen (← pOperand a) (← sOperand b)))
  | ['E', 'X', 'C', 'H', 'A', 'N', 'G', 'E'], [a, b, x, y] => do
    some (.pseudo (.exchange (← eOperand a) (← eOperand b) (← pOperand x) (← sOperand y)))
  | ['P', 'K', 'E', 'X', 'P', 'O', 'R', 'T'], [a, b] => do
    some (.pseudo (.pkexport (← eOperand a) (← pOperand b)))
  | ['.', 'c', 'm', 'd'], [a] => ((numberOf a).filter (· < 2 ^ 64)).map fun w => .raw (BitVec.ofNat 64 w)
  | _, _ => none

/-- Assemble one line (R98). -/
def parseLine (line : List Char) : Option AsmLine :=
  let code := trimBlanks (line.takeWhile (· != ';'))
  let mnemonic := code.takeWhile (!isBlank ·)
  let rest := trimBlanks (code.dropWhile (!isBlank ·))
  if mnemonic.isEmpty then some .blank
  else assembleLine mnemonic (if rest.isEmpty then [] else (splitCommas rest).map trimBlanks)

/-- The command words a line stands for (R98, R99). -/
def AsmLine.words : AsmLine → List CmdWord
  | .blank => []
  | .command i => [encode i]
  | .pseudo q => q.expand.map encode
  | .raw w => [w]

end Sys2Proof.Machine
end

