-- ==== Sys2Proof/Machine/HostScript.lean ====
section
/-! DEFINITION. The host notation of R100 (30_encoding.md), host programs that wait, and the issued form of an assembler
line, a pseudo-instruction among them (R99). A platform address is BLOCK_BASE plus an offset. -/

namespace Sys2Proof.Machine

/-- `WR32 off, v` (R100). -/
def wr32 (base off : Nat) (v : BusWord) : Input := .hostWrite (base + off) 4 v

/-- `RD32 off` (R100). -/
def rd32 (base off : Nat) : Input := .hostRead (base + off) 4

/-- `ISSUE W`: CMD_LO, then CMD_HI (R100). -/
def issueWord (base : Nat) (w : CmdWord) : List Input :=
  [wr32 base 0x000 (w.extractLsb' 0 32), wr32 base 0x004 (w.extractLsb' 32 32)]

/-- One round of `WAITIDLE`: read STATUS (R100). -/
def pollStatus (base : Nat) : Input := rd32 base 0x008

/-- `WAITIDLE` goes round again on a STATUS value with BUSY = 1 (R100). -/
def keepsPolling (v : BusWord) : Bool := v.getLsbD 0

/-- `WR256 off, v`: eight writes, the least significant word first (R100). -/
def wr256 (base off : Nat) (v : Word) : List Input :=
  (List.range 8).map fun k => wr32 base (off + 4 * k) (v.extractLsb' (32 * k) 32)

/-- One thing a host program does. -/
inductive HostOp where
  /-- The input `i` takes place: for a host program, one of its accesses. -/
  | act (i : Input)
  /-- `WAITIDLE`: poll STATUS until BUSY is 0 (R100). -/
  | waitIdle
deriving DecidableEq, Repr

/-- The state after an input, if the step has a next state (R303 says that it always has). -/
def afterInput (i : Input) (s : State) : Option State :=
  match takeInput i s with
  | .next t => some t
  | .fault _ => none
  | .refused _ => none

/-- The inputs take place one after the other. -/
def runInputs : List Input → State → Option State
  | [], s => some s
  | i :: is, s => (afterInput i s).bind (runInputs is)

/-- `WAITIDLE` (R100): read STATUS, and while it says BUSY let the next event of the other agents happen and
read again. The events are engine moves, RNG deliveries and whatever else befalls the block (entry 19); the
answer is the state after the last read with the events still to come, or `none` if BUSY is still 1 when
they are used up (R332: a GENSK may keep the host waiting for ever). -/
def waitIdle (base : Nat) : (events : List Input) → State → Option (State × List Input)
  | [], s => (afterInput (pollStatus base) s).bind fun t =>
      if keepsPolling t.readData then none else some (t, [])
  | e :: es, s => (afterInput (pollStatus base) s).bind fun t =>
      if keepsPolling t.readData then (afterInput e t).bind (waitIdle base es) else some (t, e :: es)

/-- A host program runs, the other agents' events falling into its waits (R100; entry 19). -/
def runHost (base : Nat) : List HostOp → (events : List Input) → State → Option (State × List Input)
  | [], es, s => some (s, es)
  | .act i :: ops, es, s => (afterInput i s).bind (runHost base ops es)
  | .waitIdle :: ops, es, s => (waitIdle base es s).bind fun r => runHost base ops r.2 r.1

/-- `ISSUE W` as a piece of a host program (R100). -/
def issueOps (base : Nat) (w : CmdWord) : List HostOp := (issueWord base w).map .act

/-- Commands issued in order, each waited for before the next (R99, R100). -/
def issueInTurn (base : Nat) (ws : List CmdWord) : List HostOp :=
  List.intercalate [.waitIdle] (ws.map (issueOps base))

/-- An assembler line in a host program: the `ISSUE` of its word (R100), and for a pseudo-instruction of its
words in turn (R99). -/
def AsmLine.ops (base : Nat) (l : AsmLine) : List HostOp := issueInTurn base l.words

/-- A pseudo-instruction runs (R99): each command is waited for, a GENSK until the RNG port has delivered a value
it accepts, before the next is issued. The other agents' events fall into the waits. -/
def runPseudo (base : Nat) (q : Pseudo) (events : List Input) (s : State) : Option (State × List Input) :=
  runHost base ((AsmLine.pseudo q).ops base) events s

end Sys2Proof.Machine
end

