-- ==== Sys2Proof/Laws/HostScript.lean ====
section
/-! SUPPORT. What a host program does (R99, R100 of 30_encoding.md): its acts are steps of the block, `WAITIDLE` ends with
BUSY read as 0, and a pseudo-instruction's second command is issued only after its GENSK has its value. -/

namespace Sys2Proof.Laws

open Sys2Proof.Machine Sys2Proof.Config

variable {s t u : State} {base : Nat} {ops ops' : List HostOp} {es rest : List Input}

/-! Acts and waits are steps of the block -/

/-- An act is the step that takes that input. -/
theorem afterInput_eq_some {i : Input} :
    afterInput i s = some t ↔ step { s with inputs := i :: s.inputs } = .next t := by
  change _ ↔ takeInput i s = .next t
  unfold afterInput
  cases takeInput i s <;> simp

theorem runInputs_append (is js : List Input) :
    runInputs (is ++ js) s = (runInputs is s).bind (runInputs js) := by
  induction is generalizing s with
  | nil => rfl
  | cons i is ih =>
    simp only [List.cons_append, runInputs, Option.bind_assoc]
    congr
    funext u
    exact ih

/-- All that a `WAITIDLE` that ends can do: it reads BUSY as 0, the events it leaves are the last ones of
those it was given, and what took place is a sequence of inputs (R100). -/
theorem waitIdle_spec (h : waitIdle base es s = some (t, rest)) :
    keepsPolling t.readData = false ∧ rest <:+ es ∧ ∃ is, runInputs is s = some t := by
  induction es generalizing s with
  | nil =>
    obtain ⟨u, hu, h⟩ := Option.bind_eq_some_iff.mp h
    split at h
    · cases h
    · next hk =>
      cases h
      exact ⟨by simpa using hk, List.suffix_refl _, [pollStatus base], by simp [runInputs, hu]⟩
  | cons e es ih =>
    obtain ⟨u, hu, h⟩ := Option.bind_eq_some_iff.mp h
    split at h
    · obtain ⟨v, hv, h⟩ := Option.bind_eq_some_iff.mp h
      obtain ⟨h1, h2, is, h3⟩ := ih h
      exact ⟨h1, h2.trans (List.suffix_cons e es), pollStatus base :: e :: is, by simp [runInputs, hu, hv, h3]⟩
    · next hk =>
      cases h
      exact ⟨by simpa using hk, List.suffix_refl _, [pollStatus base], by simp [runInputs, hu]⟩

/-- Whatever a host program does is a sequence of inputs, so a run of it is a run of the block. -/
theorem runHost_inputs (h : runHost base ops es s = some (t, rest)) :
    rest <:+ es ∧ ∃ is, runInputs is s = some t := by
  induction ops generalizing s es with
  | nil =>
    cases h
    exact ⟨List.suffix_refl _, [], rfl⟩
  | cons o ops ih =>
    cases o with
    | act i =>
      obtain ⟨u, hu, h⟩ := Option.bind_eq_some_iff.mp h
      obtain ⟨h1, is, h2⟩ := ih h
      exact ⟨h1, i :: is, by simp [runInputs, hu, h2]⟩
    | waitIdle =>
      obtain ⟨⟨u, es'⟩, hu, h⟩ := Option.bind_eq_some_iff.mp h
      obtain ⟨-, h1, is, h2⟩ := waitIdle_spec hu
      obtain ⟨h3, js, h4⟩ := ih h
      exact ⟨h3.trans h1, is ++ js, by simp [runInputs_append, h2, h4]⟩

theorem runHost_append :
    runHost base (ops ++ ops') es s = (runHost base ops es s).bind fun r => runHost base ops' r.2 r.1 := by
  induction ops generalizing s es with
  | nil => rfl
  | cons o ops ih =>
    cases o <;> simp only [List.cons_append, runHost, Option.bind_assoc] <;> congr <;> funext r <;> exact ih

/-! `WAITIDLE` at the block -/

/-- Bit 0 of STATUS is BUSY (R32). -/
theorem keepsPolling_statusWord (s : State) : keepsPolling s.statusWord = s.busy := by
  rw [keepsPolling, State.statusWord, BitVec.getLsbD_append]
  simp

/-- Out of reset a poll reads STATUS and does nothing else (R32). -/
theorem afterInput_poll (hr : s.rstN = true) :
    afterInput (pollStatus block.blockBase) s = some (s.setReadData s.statusWord) := by
  have h : hostRead block s (block.blockBase + 0x008) 4 = s.setReadData s.statusWord := by
    rw [hostRead_window block 4 (by decide) hr, busRead]
    have hc : classify s.busy false (BitVec.ofNat 14 0x008) 4 = .legal := by cases s.busy <;> decide
    rw [hc]
    rfl
  rw [afterInput, pollStatus, rd32, takeInput, h]

theorem waitIdle_of_idle (hr : s.rstN = true) (hb : s.busy = false) :
    waitIdle block.blockBase es s = some (s.setReadData s.statusWord, es) := by
  have hk : keepsPolling (s.setReadData s.statusWord).readData = false :=
    (keepsPolling_statusWord s).trans hb
  cases es <;> simp only [waitIdle, afterInput_poll hr, Option.bind_some, hk, Bool.false_eq_true, if_false]

theorem waitIdle_of_busy {e : Input} (hr : s.rstN = true) (hb : s.busy = true) :
    waitIdle block.blockBase (e :: es) s =
      (afterInput e (s.setReadData s.statusWord)).bind (waitIdle block.blockBase es) := by
  have hk : keepsPolling (s.setReadData s.statusWord).readData = true :=
    (keepsPolling_statusWord s).trans hb
  simp only [waitIdle, afterInput_poll hr, Option.bind_some, hk, if_true]

/-! `ISSUE` at the block -/

/-- The state after the `ISSUE` of a word with no command latched. -/
def issued (s : State) (w : CmdWord) : State :=
  ({ s with cmdLo := w.extractLsb' 0 32, cmdHi := w.extractLsb' 32 32 } : State).issue

/-- The command latched is the word whose halves were written (R260). -/
@[simp] theorem issued_latch (s : State) (w : CmdWord) : (issued s w).latch = some w := by
  change some (w.extractLsb' 32 32 ++ w.extractLsb' 0 32) = some w
  congr 1
  ext i hi
  simp
  grind

@[simp] theorem issued_readS (s : State) (w : CmdWord) (i : Fin 8) : (issued s w).readS i = s.readS i := rfl
@[simp] theorem issued_overrun (s : State) (w : CmdWord) : (issued s w).overrun = s.overrun := rfl
@[simp] theorem issued_rstN (s : State) (w : CmdWord) : (issued s w).rstN = s.rstN := rfl
@[simp] theorem issued_rng (s : State) (w : CmdWord) : (issued s w).rng = s.rng := rfl

theorem afterInput_write {off : Nat} {v : BusWord} (hr : s.rstN = true) (h : off < 0x4000)
    (hc : classify s.busy true (BitVec.ofNat 14 off) 4 = .legal) :
    afterInput (wr32 block.blockBase off v) s = some (writeTarget block s v (target off)) := by
  have hw : hostWrite block s (block.blockBase + off) 4 v = writeTarget block s v (target off) := by
    rw [hostWrite_window block 4 v h hr, busWrite, hc, toNat_offset h]
  rw [afterInput, wr32, takeInput, hw]

/-- `ISSUE` with no command latched latches the word (R100, R260). -/
theorem runHost_issue {w : CmdWord} (hr : s.rstN = true) (hl : s.latch = none) :
    runHost block.blockBase (issueOps block.blockBase w ++ ops) es s =
      runHost block.blockBase ops es (issued s w) := by
  have hb : s.busy = false := by simp [State.busy, hl]
  have h1 : afterInput (wr32 block.blockBase 0x000 (w.extractLsb' 0 32)) s =
      some { s with cmdLo := w.extractLsb' 0 32 } :=
    afterInput_write hr (by decide) (by rw [hb]; decide)
  have h2 : ∀ u : State, u.rstN = true → u.busy = false →
      afterInput (wr32 block.blockBase 0x004 (w.extractLsb' 32 32)) u =
        some ({ u with cmdHi := w.extractLsb' 32 32 } : State).issue := by
    intro u hr hb
    rw [afterInput_write hr (by decide) (by rw [hb]; decide)]
    change some (u.writeCmdHi _) = _
    rw [State.writeCmdHi, if_neg]
    change ¬u.busy = true
    simp [hb]
  have h3 := h2 { s with cmdLo := w.extractLsb' 0 32 } hr hb
  simp only [issueOps, issueWord, List.map_cons, List.map_nil, List.cons_append, List.nil_append, runHost, h1, h3,
    Option.bind_some]
  rfl

/-! A pseudo-instruction waits for its GENSK -/

/-- What the other agents do while the host waits for a GENSK: the engine requests a value, the RNG port
delivers values that are rejected and then one that is accepted (R45, R332). -/
def genskEvents (rejected : List Word) (v : Word) : List Input :=
  .engine :: (rejected.flatMap fun u => [.rngDeliver u, .engine]) ++ [.rngDeliver v, .engine]

/-- The state in which the wait for a GENSK ends. -/
def genskDone (s : State) (i : Fin 8) (v : Word) : State :=
  let t := (s.writeS i v).finish 0
  t.setReadData t.statusWord

theorem engineMove_gensk {d : SField} (hr : s.rstN = true) (hl : s.latch = some (encode (.gensk d))) :
    afterInput .engine s = some (genskBody block d s) := by
  have hd : decode (encode (.gensk d)) = .ok (.gensk d) := by
    unfold decode encode
    simp [fieldsOf_wordOf, Instr.fields, Fields.strayBits, fieldUse, instrOf]
  simp only [afterInput, takeInput, engineMove, hr, if_true, hl, runWord, hd, exec, execGensk]

/-- The state after a delivery that answers the request and a poll of STATUS. -/
def deliveredTo (s : State) (x : Word) (r : BusWord) : State := { s with rng := .delivered x, readData := r }

/-- Two rounds of the wait: a value is delivered, and the engine looks at it. -/
theorem waitIdle_delivered {d : SField} {x : Word} (hr : s.rstN = true)
    (hl : s.latch = some (encode (.gensk d))) (hq : s.rng = .requested) :
    waitIdle block.blockBase (.rngDeliver x :: .engine :: es) s =
      waitIdle block.blockBase es (genskBody block d (deliveredTo s x s.statusWord)) := by
  have hb : s.busy = true := by simp [State.busy, hl]
  have h1 : afterInput (.rngDeliver x) (s.setReadData s.statusWord) =
      some (deliveredTo s x s.statusWord) := by
    simp only [afterInput, takeInput, rngDeliver, State.setReadData, hq, deliveredTo]
  rw [waitIdle_of_busy hr hb, h1, Option.bind_some,
    waitIdle_of_busy (s := deliveredTo s x s.statusWord) hr hb,
    engineMove_gensk (s := (deliveredTo s x s.statusWord).setReadData _) hr hl]
  rfl

/-- With a request standing, the wait goes on over every rejected value and ends with the accepted one. -/
theorem waitIdle_gensk_requested {d : SField} (hd : d.toNat < 8) {rejected : List Word} {v : Word}
    (hrej : ∀ u ∈ rejected, block.n ≤ u.toNat) (hv : v.toNat < block.n) (hr : s.rstN = true)
    (hl : s.latch = some (encode (.gensk d))) (hq : s.rng = .requested) :
    waitIdle block.blockBase ((rejected.flatMap fun u => [.rngDeliver u, .engine]) ++
      .rngDeliver v :: .engine :: es) s = some (genskDone s ⟨d.toNat, hd⟩ v, es) := by
  induction rejected generalizing s with
  | nil =>
    have h : genskBody block d (deliveredTo s v s.statusWord) =
        ((deliveredTo s v s.statusWord).writeS ⟨d.toNat, hd⟩ v).finish 0 := by
      simp only [genskBody, regIndex_of_lt hd, deliveredTo, if_pos hv, complete_ok]
    rw [List.flatMap_nil, List.nil_append, waitIdle_delivered hr hl hq, h]
    exact waitIdle_of_idle hr rfl
  | cons x rejected ih =>
    have h : genskBody block d (deliveredTo s x s.statusWord) = s.setReadData s.statusWord := by
      have hx : ¬x.toNat < block.n := Nat.not_lt.mpr (hrej x List.mem_cons_self)
      simp only [genskBody, regIndex_of_lt hd, deliveredTo, if_neg hx, State.requestRng, State.setReadData, hq]
    rw [List.flatMap_cons, List.append_assoc]
    refine (waitIdle_delivered hr hl hq).trans ?_
    rw [h]
    exact ih (s := s.setReadData s.statusWord) (fun u hu => hrej u (List.mem_cons_of_mem x hu)) hr hl hq

/-- The wait for an issued GENSK, whatever values are rejected before one is accepted (R45, R332). -/
theorem waitIdle_gensk {d : SField} (hd : d.toNat < 8) {rejected : List Word} {v : Word}
    (hrej : ∀ u ∈ rejected, block.n ≤ u.toNat) (hv : v.toNat < block.n) (hr : s.rstN = true)
    (hl : s.latch = some (encode (.gensk d))) (hq : s.rng = .idle) :
    waitIdle block.blockBase (genskEvents rejected v ++ es) s = some (genskDone s ⟨d.toNat, hd⟩ v, es) := by
  have hb : s.busy = true := by simp [State.busy, hl]
  have h : genskBody block d (s.setReadData s.statusWord) = (s.setReadData s.statusWord).requestRng := by
    simp only [genskBody, regIndex_of_lt hd, State.setReadData, hq]
  have happ : genskEvents rejected v ++ es = .engine ::
      ((rejected.flatMap fun u => [.rngDeliver u, .engine]) ++ .rngDeliver v :: .engine :: es) := by
    simp [genskEvents]
  rw [happ, waitIdle_of_busy hr hb, engineMove_gensk (s := s.setReadData s.statusWord) hr hl, Option.bind_some, h]
  exact waitIdle_gensk_requested (s := (s.setReadData s.statusWord).requestRng) hd hrej hv hr hl rfl

/-- A GENSK and the command issued after it is waited for: when the second is issued the first has ended with
its value in the register, so the second is latched and not dropped (R99). -/
theorem runHost_gensk_then {d : SField} (hd : d.toNat < 8) {rejected : List Word} {v : Word}
    (hrej : ∀ u ∈ rejected, block.n ≤ u.toNat) (hv : v.toNat < block.n) (w : CmdWord) (hr : s.rstN = true)
    (hl : s.latch = none) (hq : s.rng = .idle) :
    runHost block.blockBase (issueInTurn block.blockBase [encode (.gensk d), w]) (genskEvents rejected v ++ es) s =
      some (issued (genskDone (issued s (encode (.gensk d))) ⟨d.toNat, hd⟩ v) w, es) := by
  have hops : issueInTurn block.blockBase [encode (.gensk d), w] =
      issueOps block.blockBase (encode (.gensk d)) ++ (.waitIdle :: (issueOps block.blockBase w ++ [])) := by
    simp [issueInTurn, List.intercalate]
  rw [hops, runHost_issue hr hl]
  simp only [runHost]
  rw [waitIdle_gensk hd hrej hv (by exact hr) (issued_latch s _) (by exact hq), Option.bind_some,
    runHost_issue (by exact hr) rfl]
  rfl

/-- KEYGEN: the GENSK's value is in S[S] and the PUBKEY is latched, for every run of rejected values (R99). -/
theorem runPseudo_keygen {d : PField} {sf : SField} (hd : sf.toNat < 8) {rejected : List Word} {v : Word}
    (hrej : ∀ u ∈ rejected, block.n ≤ u.toNat) (hv : v.toNat < block.n) (hr : s.rstN = true)
    (hl : s.latch = none) (hq : s.rng = .idle) :
    ∃ t, runPseudo block.blockBase (.keygen d sf) (genskEvents rejected v ++ es) s = some (t, es) ∧
      t.latch = some (encode (.pubkey d sf)) ∧ t.readS ⟨sf.toNat, hd⟩ = v ∧ t.overrun = s.overrun :=
  ⟨_, runHost_gensk_then hd hrej hv _ hr hl hq, issued_latch _ _, readS_writeS _ _ _, rfl⟩

/-- EXCHANGE: the GENSK's value is in S[T] and the INIT is latched, for every run of rejected values (R99). -/
theorem runPseudo_exchange {r k : EField} {p : PField} {tf : SField} (hd : tf.toNat < 8) {rejected : List Word}
    {v : Word} (hrej : ∀ u ∈ rejected, block.n ≤ u.toNat) (hv : v.toNat < block.n) (hr : s.rstN = true)
    (hl : s.latch = none) (hq : s.rng = .idle) :
    ∃ t, runPseudo block.blockBase (.exchange r k p tf) (genskEvents rejected v ++ es) s = some (t, es) ∧
      t.latch = some (encode (.init r k p tf)) ∧ t.readS ⟨tf.toNat, hd⟩ = v ∧ t.overrun = s.overrun :=
  ⟨_, runHost_gensk_then hd hrej hv _ hr hl hq, issued_latch _ _, readS_writeS _ _ _, rfl⟩

/-- PKEXPORT is its one PENC, issued (R99). -/
theorem runPseudo_pkexport {d : EField} {sf : PField} (hr : s.rstN = true) (hl : s.latch = none) :
    runPseudo block.blockBase (.pkexport d sf) es s = some (issued s (encode (.penc d sf)), es) := by
  have hops : (AsmLine.pseudo (.pkexport d sf)).ops block.blockBase =
      issueOps block.blockBase (encode (.penc d sf)) ++ [] := by
    simp [AsmLine.ops, AsmLine.words, Pseudo.expand, issueInTurn, List.intercalate]
  rw [runPseudo, hops, runHost_issue hr hl]
  rfl

end Sys2Proof.Laws
end

