-- ==== Sys2Proof/Laws/PerInstr.lean ====
section
/-! SUPPORT. Per command: the fields it does not use are 0 in its encoding, and so are the reserved bits (R93, R95). -/

namespace Sys2Proof.Laws.UnusedFieldsZero

open Sys2Proof

/-- The encoding of the command has its opcode in OP, RSV 0, and 0 in every field the opcode does not use. -/
def Statement (i : Instr) : Prop :=
  (fieldsOf (encode i)).op = i.opcode ∧ (fieldsOf (encode i)).rsv = 0 ∧
    (fieldsOf (encode i)).strayBits = false

theorem of_fields {i : Instr} (h : i.fields.op = i.opcode ∧ i.fields.rsv = 0 ∧ i.fields.strayBits = false) :
    Statement i := by
  unfold Statement encode
  rwa [fieldsOf_wordOf]

theorem nop : Statement .nop := of_fields (by decide)

theorem penc (d : EField) (s1 : PField) : Statement (.penc d s1) :=
  of_fields (by simp [Instr.fields, Instr.opcode, Fields.strayBits, fieldUse])

theorem pdec (d : PField) (s1 : EField) : Statement (.pdec d s1) :=
  of_fields (by simp [Instr.fields, Instr.opcode, Fields.strayBits, fieldUse])

theorem gensk (d : SField) : Statement (.gensk d) :=
  of_fields (by simp [Instr.fields, Instr.opcode, Fields.strayBits, fieldUse])

theorem pubkey (d : PField) (s1 : SField) : Statement (.pubkey d s1) :=
  of_fields (by simp [Instr.fields, Instr.opcode, Fields.strayBits, fieldUse])

theorem init (d d2 : EField) (s1 : PField) (s2 : SField) : Statement (.init d d2 s1 s2) :=
  of_fields (by simp [Instr.fields, Instr.opcode, Fields.strayBits, fieldUse])

theorem compl (d : EField) (s1 : SField) (s2 : EField) : Statement (.compl d s1 s2) :=
  of_fields (by simp [Instr.fields, Instr.opcode, Fields.strayBits, fieldUse])

theorem commit (d s1 : EField) : Statement (.commit d s1) :=
  of_fields (by simp [Instr.fields, Instr.opcode, Fields.strayBits, fieldUse])

theorem enc (d s1 s2 : EField) (n : CountField) : Statement (.enc d s1 s2 n) :=
  of_fields (by simp [Instr.fields, Instr.opcode, Fields.strayBits, fieldUse])

theorem dec (d s1 s2 : EField) (n : CountField) : Statement (.dec d s1 s2 n) :=
  of_fields (by simp [Instr.fields, Instr.opcode, Fields.strayBits, fieldUse])

theorem pack (d : EField) (n : CountField) : Statement (.pack d n) :=
  of_fields (by simp [Instr.fields, Instr.opcode, Fields.strayBits, fieldUse])

theorem unpack (s1 : EField) (n : CountField) : Statement (.unpack s1 n) :=
  of_fields (by simp [Instr.fields, Instr.opcode, Fields.strayBits, fieldUse])

end Sys2Proof.Laws.UnusedFieldsZero
end

