-- ==== Sys2Proof/Laws/Subgroup.lean ====
section
/-! SUPPORT. Negation, the point of order two and the subgroup (R123, R131 of 40_field_curve.md). -/

namespace Sys2Proof.Laws

open Sys2Proof.Machine Sys2Proof.Config

/-- `[j]([k]P) = [j k]P`. -/
theorem smul_smul {s : Scheme} (h : s.Valid) {P : Aff} (hP : OnC s.curve P) (j k : Nat) :
    smul s.curve j (smul s.curve k P) = smul s.curve (j * k) P := by
  induction j with
  | zero => rw [Nat.zero_mul]; rfl
  | succ j ih => rw [smul, ih, Nat.succ_mul, smul_add h hP]

theorem smul_one {s : Scheme} (h : s.Valid) {P : Aff} (hP : OnC s.curve P) : smul s.curve 1 P = P := by
  rw [smul, smul, identity_addPt h hP.1]

theorem cast_pointT2_y {c : Curve} (h2 : 2 < c.p) : (((pointT2 c).y : Nat) : ZMod c.p) = -1 := by
  unfold pointT2
  rw [Nat.cast_sub (by omega)]
  simp

theorem negPt_onC {s : Scheme} (h : s.Valid) {P : Aff} (hP : OnC s.curve P) :
    OnC s.curve (negPt s.curve P) := by
  have hp := h.p_prime
  have : Fact s.curve.p.Prime := ⟨hp⟩
  refine ⟨⟨fneg_lt hp.pos _, hP.1.2⟩, ?_⟩
  have hon := (onCurve_iff P).mp hP.2
  rw [onCurve_iff]
  unfold negPt
  simp only [cast_fneg hp.pos]
  unfold Edwards.On at *
  linear_combination hon

/-- `-P + P = O` (R123). -/
theorem addPt_negPt {s : Scheme} (h : s.Valid) {P : Aff} (hP : OnC s.curve P) :
    addPt s.curve (negPt s.curve P) P = identity := by
  have hp := h.p_prime
  have h2 := Valid.two_lt h
  have : Fact s.curve.p.Prime := ⟨hp⟩
  have hon := (onCurve_iff P).mp hP.2
  have hl := Valid.tOf_sq_ne_one h (negPt_onC h hP).2 hP.2
  have h1 := Edwards.one_add_tOf_ne hl
  have h3 := Edwards.one_sub_tOf_ne hl
  apply Canon.ext (addPt_canon hp.pos _ _) (Valid.identity_onC h).1
  · rw [cast_addPt_x h2]
    unfold Edwards.addX
    simp only [negPt, cast_fneg hp.pos, identity, Nat.cast_zero]
    ring
  · rw [cast_addPt_y h2]
    unfold Edwards.addY
    simp only [negPt, cast_fneg hp.pos, identity, Nat.cast_one] at h3 ⊢
    rw [mul_inv_eq_one₀ h3]
    unfold Edwards.tOf Edwards.On at *
    linear_combination hon

/-- The two points with a given x-coordinate differ by T2: `(x, -y) = -(x, y) + T2` (R133). -/
theorem addPt_negPt_pointT2 {s : Scheme} (h : s.Valid) {P : Aff} (hP : OnC s.curve P) :
    addPt s.curve (negPt s.curve P) (pointT2 s.curve) = ⟨P.x, fneg s.curve.p P.y⟩ := by
  have hp := h.p_prime
  have h2 := Valid.two_lt h
  have : Fact s.curve.p.Prime := ⟨hp⟩
  apply Canon.ext (Q := ⟨P.x, fneg s.curve.p P.y⟩) (addPt_canon hp.pos _ _) ⟨hP.1.1, fneg_lt hp.pos _⟩
  · rw [cast_addPt_x h2, cast_pointT2_y h2]
    simp [Edwards.addX, Edwards.tOf, negPt, cast_fneg hp.pos, pointT2]
  · rw [cast_addPt_y h2, cast_pointT2_y h2]
    simp [Edwards.addY, Edwards.tOf, negPt, cast_fneg hp.pos, pointT2]

theorem pointT2_ne_identity {s : Scheme} (h : s.Valid) : pointT2 s.curve ≠ identity := by
  have := Valid.two_lt h
  unfold pointT2 identity
  simp
  omega

/-- T2 has order 2 (R123). -/
theorem smul_two_pointT2 {s : Scheme} (h : s.Valid) : smul s.curve 2 (pointT2 s.curve) = identity := by
  have hp := h.p_prime
  have h2 := Valid.two_lt h
  have : Fact s.curve.p.Prime := ⟨hp⟩
  rw [smul, smul_one h (Valid.pointT2_onC h)]
  apply Canon.ext (addPt_canon hp.pos _ _) (Valid.identity_onC h).1
  · rw [cast_addPt_x h2, cast_pointT2_y h2]
    simp [Edwards.addX, Edwards.tOf, identity, pointT2]
  · rw [cast_addPt_y h2, cast_pointT2_y h2]
    simp [Edwards.addY, Edwards.tOf, identity, pointT2]

/-- T2 is not in G, because N is odd (R133). -/
theorem pointT2_not_inSubgroup {s : Scheme} (h : s.Valid) : ¬inSubgroup s.curve (pointT2 s.curve) = true := by
  unfold inSubgroup
  rw [decide_eq_true_eq]
  intro hn
  have hodd := h.n_odd
  have h2 := Valid.pointT2_onC h
  rw [show s.curve.n = s.curve.n / 2 * 2 + 1 by omega, smul_add h h2, ← smul_smul h h2,
    smul_two_pointT2 h, smul_identity h, smul_one h h2, identity_addPt h h2.1] at hn
  exact pointT2_ne_identity h hn

theorem inSubgroup_identity {s : Scheme} (h : s.Valid) : inSubgroup s.curve identity = true := by
  unfold inSubgroup
  rw [smul_identity h, decide_eq_true_eq]

theorem inSubgroup_addPt {s : Scheme} (h : s.Valid) {P Q : Aff} (hP : OnC s.curve P) (hQ : OnC s.curve Q)
    (hPG : inSubgroup s.curve P = true) (hQG : inSubgroup s.curve Q = true) :
    inSubgroup s.curve (addPt s.curve P Q) = true := by
  unfold inSubgroup at *
  rw [decide_eq_true_eq] at *
  rw [smul_addPt h hP hQ, hPG, hQG, identity_addPt h (Valid.identity_onC h).1]

theorem inSubgroup_smul {s : Scheme} (h : s.Valid) {P : Aff} (hP : OnC s.curve P)
    (hPG : inSubgroup s.curve P = true) (k : Nat) : inSubgroup s.curve (smul s.curve k P) = true := by
  induction k with
  | zero => exact inSubgroup_identity h
  | succ k ih => exact inSubgroup_addPt h (smul_onC h hP k) hP ih hPG

theorem inSubgroup_negPt {s : Scheme} (h : s.Valid) {P : Aff} (hP : OnC s.curve P)
    (hPG : inSubgroup s.curve P = true) : inSubgroup s.curve (negPt s.curve P) = true := by
  have hn := negPt_onC h hP
  have hsum := smul_addPt h hn hP s.curve.n
  unfold inSubgroup at *
  rw [decide_eq_true_eq] at *
  rw [addPt_negPt h hP, smul_identity h, hPG, addPt_identity h (smul_onC h hn _).1] at hsum
  exact hsum.symm

/-- A point (x, 0) doubles to T2, so it is not in G (R133). -/
theorem smul_two_of_y_zero {s : Scheme} (h : s.Valid) {x : Nat} (hP : OnC s.curve ⟨x, 0⟩) :
    smul s.curve 2 ⟨x, 0⟩ = pointT2 s.curve := by
  have hp := h.p_prime
  have h2 := Valid.two_lt h
  have : Fact s.curve.p.Prime := ⟨hp⟩
  have hon := (onCurve_iff _).mp hP.2
  rw [smul, smul_one h hP]
  apply Canon.ext (addPt_canon hp.pos _ _) (Valid.pointT2_onC h).1
  · rw [cast_addPt_x h2]
    simp [Edwards.addX, Edwards.tOf, pointT2]
  · rw [cast_addPt_y h2, cast_pointT2_y h2]
    simp [Edwards.On] at hon
    simp [Edwards.addY, Edwards.tOf, hon]

theorem y_zero_not_inSubgroup {s : Scheme} (h : s.Valid) {x : Nat} (hP : OnC s.curve ⟨x, 0⟩) :
    ¬inSubgroup s.curve ⟨x, 0⟩ = true := by
  intro hG
  apply pointT2_not_inSubgroup h
  rw [← smul_two_of_y_zero h hP]
  exact inSubgroup_smul h hP hG 2

end Sys2Proof.Laws
end

