-- ==== Sys2Proof/Laws/Scheme.lean ====
section
/-! SUPPORT. What is known of the block's configuration: its scheme meets the constraints of R6 (00_scope.md), and
CAPACITY follows from them. -/

namespace Sys2Proof.Laws

open Sys2Proof.Machine Sys2Proof.Config

theorem block_valid : block.scheme.Valid := scheme.property

theorem Valid.n_pos {s : Scheme} (h : s.Valid) : 0 < s.curve.n := h.n_prime.pos

/-- CAPACITY is at least 1 and below 256, and 2^CAPACITY is at most p (R6, R239). -/
theorem capacity_bounds {c : Params} (h : c.scheme.Valid) :
    1 ≤ capacity c ∧ capacity c ≤ 255 ∧ 2 ^ capacity c ≤ c.p ∧ modulusBits c = capacity c + 1 := by
  have h2 := Valid.two_lt h
  have h3 := h.p_lt
  have hne : c.scheme.curve.p ≠ 0 := by omega
  have e : capacity c = Nat.log2 c.scheme.curve.p := by
    unfold capacity modulusBits bitLength
    rw [if_neg hne]
    rfl
  have em : modulusBits c = capacity c + 1 := by
    unfold capacity modulusBits bitLength
    rw [if_neg hne]
    rfl
  refine ⟨?_, ?_, ?_, em⟩
  · rw [e, Nat.le_log2 hne]
    omega
  · rw [e]
    have := (Nat.log2_lt hne).mpr h3
    omega
  · rw [e]
    exact Nat.log2_self_le hne

/-- Every element the sponge returns is below p (R202). -/
theorem sponge_lt {c : Params} (h : c.scheme.Valid) {xs : List Nat} {n v : Nat} (hv : v ∈ sponge c xs n) :
    v < c.p := by
  obtain ⟨i, -, rfl⟩ := List.mem_map.mp hv
  exact Nat.mod_lt _ h.p_prime.pos

@[simp] theorem length_sponge (c : Params) (xs : List Nat) (n : Nat) : (sponge c xs n).length = n := by
  simp [sponge]

/-- A canonical value is stored in a 256-bit word without loss (R6). -/
theorem toNat_ofNat_of_lt {c : Params} (h : c.scheme.Valid) {v : Nat} (hv : v < c.p) :
    (BitVec.ofNat 256 v).toNat = v := by
  rw [BitVec.toNat_ofNat, Nat.mod_eq_of_lt (lt_trans hv h.p_lt)]

/-- Every multiple of any pair has canonical coordinates (R127). -/
theorem smul_canon {s : Scheme} (h : s.Valid) (k : Nat) (P : Aff) : Canon s.curve (smul s.curve k P) := by
  cases k with
  | zero => exact (Valid.identity_onC h).1
  | succ k => exact addPt_canon h.p_prime.pos _ _

end Sys2Proof.Laws
end

