-- ==== Sys2Proof/Machine/Toy.lean ====
section
/-! DEFINITION. TOY557, the test instantiation of R9 (00_scope.md): one choice of the parameters of R6, for the vectors of
95_test_vectors.md. It is not normative, and no command, step or statement refers to it. -/

namespace Sys2Proof.Machine

open Sys2Proof.Config

/-- The curve of TOY557: p = 557, a = 556 (= -1), d = 13, N = 137 (R9). -/
def toyCurve : Curve where
  p := 557
  a := 556
  d := 13
  n := 137

/-- The scheme of TOY557: h = 4, GEN = (3, 55) (R9). -/
def toyScheme : Scheme where
  curve := toyCurve
  h     := 4
  gen   := ⟨3, 55⟩

/-- What TOY_SPONGE has absorbed: `acc <- 0; for x in xs: acc <- (31*acc + x + 1) mod p` (R9). -/
def toyAcc (xs : List Nat) : Nat := xs.foldl (fun acc x => (31 * acc + x + 1) % toyCurve.p) 0

/-- TOY_SPONGE(xs, n): element i is `(acc*(i+2) + i + 1) mod p` (R9). -/
def toySponge (xs : List Nat) (n : Nat) : List Nat :=
  (List.range n).map fun i => (toyAcc xs * (i + 2) + i + 1) % toyCurve.p

/-- TOY557 as a configuration of the block (R9). What memory holds at power-on and BLOCK_BASE are not R9's:
both are 0 here (DESIGN CHOICE, entry 21). -/
def toy : Params where
  scheme      := toyScheme
  spongeWord  := fun xs _ i => toyAcc xs * (i + 2) + i + 1
  powerOnByte := fun _ _ => 0
  blockBase   := 0

end Sys2Proof.Machine
end

