-- ==== Sys2Proof/Laws/Toy.lean ====
section
/-! SUPPORT. TOY557 is an instantiation as R9 (00_scope.md) describes it: it meets every constraint of R6, its derived
constants are the ones R9 lists, and SPONGE is TOY_SPONGE. -/

namespace Sys2Proof.Laws

open Sys2Proof.Machine Sys2Proof.Config

/-- How many y satisfy `y^2 * den = num` modulo an odd prime p, for `den` not 0 modulo p: Euler's criterion on `num * den`. -/
def rootCount (p num den : Nat) : Nat :=
  if num % p = 0 then 1 else if (num * den) ^ (p / 2) % p = 1 then 2 else 0

theorem card_sq_mul_eq {p : Nat} [Fact p.Prime] (h2 : 2 < p) {num den : Nat} (hden : (den : ZMod p) ≠ 0) :
    (Finset.univ.filter fun y : ZMod p => y ^ 2 * den = num).card = rootCount p num den := by
  have hchar : ringChar (ZMod p) ≠ 2 := by rw [ZMod.ringChar_zmod_n]; omega
  have hset : (Finset.univ.filter fun y : ZMod p => y ^ 2 * den = num) =
      {y : ZMod p | y ^ 2 = (num / den : ZMod p)}.toFinset := by
    ext y
    simp [eq_div_iff hden]
  have hsq : IsSquare (num / den : ZMod p) ↔ IsSquare (num * den : ZMod p) := by
    rw [show (num * den : ZMod p) = num / den * (den * den) by field_simp]
    constructor
    · exact fun h => h.mul (IsSquare.mul_self _)
    · intro h
      have := h.mul (IsSquare.mul_self ((den : ZMod p)⁻¹))
      rwa [mul_assoc, show (den * den * ((den : ZMod p)⁻¹ * (den : ZMod p)⁻¹)) = 1 by field_simp, mul_one] at this
  have key := quadraticChar_card_sqrts hchar (num / den : ZMod p)
  rw [← hset] at key
  have hnum : (num : ZMod p) = 0 ↔ num % p = 0 := by
    rw [ZMod.natCast_eq_zero_iff, Nat.dvd_iff_mod_eq_zero]
  unfold rootCount
  by_cases h0 : num % p = 0
  · rw [if_pos h0]
    rw [hnum.mpr h0] at key ⊢
    simp only [zero_div, MulChar.map_zero] at key
    exact_mod_cast key
  · have hn : (num : ZMod p) ≠ 0 := fun h => h0 (hnum.mp h)
    have hE := ZMod.euler_criterion p (mul_ne_zero hn hden)
    have hpow : (num * den : ZMod p) ^ (p / 2) = 1 ↔ (num * den) ^ (p / 2) % p = 1 := by
      have h1 : (1 : Nat) % p = 1 := Nat.mod_eq_of_lt (by omega)
      conv_rhs => rw [← h1]
      rw [← ZMod.natCast_eq_natCast_iff']
      push_cast
      rfl
    rw [if_neg h0]
    by_cases hs : IsSquare (num / den : ZMod p)
    · rw [if_pos (hpow.mp (hE.mp (hsq.mp hs)))]
      rw [(quadraticChar_one_iff_isSquare (div_ne_zero hn hden)).mpr hs] at key
      exact_mod_cast key
    · rw [if_neg fun h => hs (hsq.mpr (hE.mpr (hpow.mpr h)))]
      rw [quadraticChar_neg_one_iff_not_isSquare.mpr hs] at key
      omega

/-- The number of points of the curve with a given x-coordinate (R122, R130). -/
theorem countP_onCurve {c : Curve} [hp : Fact c.p.Prime] (h2 : 2 < c.p) {x : Nat}
    (hden : fsub c.p 1 (c.d * x * x) ≠ 0) :
    ((List.range c.p).countP fun y => onCurve c ⟨x, y⟩) =
      rootCount c.p (fsub c.p 1 (c.a * x * x)) (fsub c.p 1 (c.d * x * x)) := by
  have hd : ((fsub c.p 1 (c.d * x * x) : Nat) : ZMod c.p) ≠ 0 := by
    intro h
    rw [ZMod.natCast_eq_zero_iff] at h
    exact hden (Nat.eq_zero_of_dvd_of_lt h (fsub_lt hp.out.pos _ _))
  rw [← card_sq_mul_eq h2 hd, List.countP_eq_length_filter]
  have hon : ∀ y : Nat, onCurve c ⟨x, y⟩ = true ↔
      (y : ZMod c.p) ^ 2 * ((fsub c.p 1 (c.d * x * x) : Nat) : ZMod c.p) =
        ((fsub c.p 1 (c.a * x * x) : Nat) : ZMod c.p) := by
    intro y
    rw [onCurve_iff, cast_fsub hp.out.pos, cast_fsub hp.out.pos]
    unfold Edwards.On
    push_cast
    constructor <;> intro h <;> linear_combination h
  have hcard : ((List.range c.p).filter fun y => onCurve c ⟨x, y⟩).length =
      ((Finset.range c.p).filter fun y => onCurve c ⟨x, y⟩ = true).card := by
    simp [Finset.filter, Finset.range, Multiset.range]
  rw [hcard]
  refine Finset.card_bij (fun y _ => (y : ZMod c.p)) ?_ ?_ ?_
  · intro y hy
    simpa using (hon y).mp (Finset.mem_filter.mp hy).2
  · intro y hy z hz h
    exact eq_of_cast_eq (Finset.mem_range.mp (Finset.mem_filter.mp hy).1)
      (Finset.mem_range.mp (Finset.mem_filter.mp hz).1) h
  · intro y hy
    refine ⟨y.val, ?_, by simp⟩
    simp only [Finset.mem_filter, Finset.mem_univ, true_and] at hy
    simpa [ZMod.val_lt, hon] using hy

theorem toy_prime : toyCurve.p.Prime := by norm_num [toyCurve]

theorem toy_den : ∀ x < 557, fsub toyCurve.p 1 (toyCurve.d * x * x) ≠ 0 := by decide +kernel

/-- The curve has 548 = 4 * 137 points (R9). -/
theorem toy_pointCount : pointCount toyCurve = 548 := by
  have : Fact toyCurve.p.Prime := ⟨toy_prime⟩
  have hrow : (List.range toyCurve.p).map
      (fun x => (List.range toyCurve.p).countP fun y => onCurve toyCurve ⟨x, y⟩) =
      (List.range toyCurve.p).map fun x =>
        rootCount toyCurve.p (fsub toyCurve.p 1 (toyCurve.a * x * x)) (fsub toyCurve.p 1 (toyCurve.d * x * x)) :=
    List.map_congr_left fun x hx => countP_onCurve (by decide) (toy_den x (List.mem_range.mp hx))
  rw [pointCount, hrow]
  decide +kernel

theorem toyScheme_valid : toyScheme.Valid where
  p_prime := toy_prime
  p_odd := by decide
  p_lt := by decide
  a_lt := by decide
  a_ne := by decide
  a_square := ⟨118, by decide, by decide⟩
  d_lt := by decide
  d_nonsquare := by decide +kernel
  n_prime := by norm_num [toyScheme, toyCurve]
  n_odd := by decide
  n_lt := by decide
  h_pos := by decide
  count := toy_pointCount
  gen_x_lt := by decide
  gen_y_lt := by decide
  gen_onCurve := by decide
  gen_subgroup := by decide +kernel
  gen_ne := by decide

/-- MODULUS_BITS = 10, CAPACITY = 9, TAG_COMMIT = 172, TAG_ENC = 407 (R9). -/
theorem toy_constants : modulusBits toy = 10 ∧ capacity toy = 9 ∧ tagCommit toy = 172 ∧ tagEnc toy = 407 := by
  decide +kernel

/-- SPONGE of TOY557 is TOY_SPONGE (R9). -/
theorem sponge_toy (xs : List Nat) (n : Nat) : sponge toy xs n = toySponge xs n := rfl

/-- In TOY557 N does not divide h, the condition R126 names for the uniqueness of G. -/
theorem toy_n_not_dvd_h : ¬toyScheme.curve.n ∣ toyScheme.h := by decide

end Sys2Proof.Laws
end

