-- ==== Sys2Proof/Tests/Slice0.lean ====
section
/-! SUPPORT. Tests: the checks of WellFormed, decoding of words written out from R90 and R101, the vectors of
95_test_vectors.md on the toy parameters of R9, and for each statement with hypotheses a state that meets them. -/

namespace Sys2Proof.Tests

open Sys2Proof.Machine Sys2Proof.Config Sys2Proof.Laws

/-! ## WellFormed: one ill-formed term for each check (R92, R98, R282) -/

theorem test_wf_penc_register : (Instr.penc 0 8).wellFormed = false := by decide
theorem test_wf_pdec_register : (Instr.pdec 8 0).wellFormed = false := by decide
theorem test_wf_gensk_register : (Instr.gensk 255).wellFormed = false := by decide
theorem test_wf_pubkey_d : (Instr.pubkey 8 0).wellFormed = false := by decide
theorem test_wf_pubkey_s1 : (Instr.pubkey 0 8).wellFormed = false := by decide
theorem test_wf_init_s1 : (Instr.init 0 1 8 0).wellFormed = false := by decide
theorem test_wf_init_s2 : (Instr.init 0 1 0 8).wellFormed = false := by decide
theorem test_wf_init_same_destination : (Instr.init 4 4 0 0).wellFormed = false := by decide
theorem test_wf_compl_register : (Instr.compl 0 8 0).wellFormed = false := by decide
theorem test_wf_enc_count : (Instr.enc 0 0 0 257).wellFormed = false := by decide
theorem test_wf_enc_source_range : (Instr.enc 0 255 0 2).wellFormed = false := by decide
theorem test_wf_enc_destination_range : (Instr.enc 255 0 0 2).wellFormed = false := by decide
theorem test_wf_dec_count : (Instr.dec 0 0 0 257).wellFormed = false := by decide
theorem test_wf_dec_source_range : (Instr.dec 0 1 0 256).wellFormed = false := by decide
theorem test_wf_dec_destination_range : (Instr.dec 1 0 0 256).wellFormed = false := by decide
theorem test_wf_pack_count : (Instr.pack 0 4097).wellFormed = false := by decide
theorem test_wf_unpack_count : (Instr.unpack 0 257).wellFormed = false := by decide
theorem test_wf_unpack_range : (Instr.unpack 255 2).wellFormed = false := by decide
theorem test_wf_accepts_limits :
    (Instr.enc 0 0 255 256).wellFormed = true ∧ (Instr.pack 255 4096).wellFormed = true ∧
      (Instr.unpack 255 1).wellFormed = true ∧ (Instr.init 0 255 7 7).wellFormed = true := by decide

/-! ## Decoding words written out field by field from R90: RSV, N, D2, S2, S1, D, OP -/

theorem test_decode_nop : decode 0x0000000000000000 = .ok .nop := by decide
theorem test_decode_penc : decode 0b00000000000_0000000000000_00000000_00000000_00000101_00000011_00000001 =
    .ok (.penc 3 5) := by decide
theorem test_decode_pdec : decode 0x0000000000010102 = .ok (.pdec 1 1) := by decide
theorem test_decode_gensk : decode 0x0000000000000303 = .ok (.gensk 3) := by decide
theorem test_decode_pubkey : decode 0b00000000000_0000000000000_00000000_00000000_00000110_00000010_00000100 =
    .ok (.pubkey 2 6) := by decide
theorem test_decode_init : decode 0x0000000301010205 = .ok (.init 2 3 1 1) := by decide
theorem test_decode_compl : decode 0x0000000002000906 = .ok (.compl 9 0 2) := by decide
theorem test_decode_commit : decode 0x0000000000030807 = .ok (.commit 8 3) := by decide
theorem test_decode_enc : decode 0x0000020003040608 = .ok (.enc 6 4 3 2) := by decide
theorem test_decode_dec : decode 0x0000020009060A09 = .ok (.dec 10 6 9 2) := by decide
theorem test_decode_pack : decode 0b00000000000_1000000000000_00000000_00000000_00000000_11111111_00001010 =
    .ok (.pack 255 4096) := by decide
theorem test_decode_unpack : decode 0x00000200000A000B = .ok (.unpack 10 2) := by decide

/-- Every way a word can be illegal (R95, R96). -/
theorem test_decode_illegal :
    decode 0x000000000000000C = .error .reservedOpcode ∧ decode 0x00000000000000FF = .error .reservedOpcode ∧
      decode 0x0020000000000000 = .error .reservedBits ∧ decode 0x0000000000000100 = .error .unusedField ∧
      decode 0x0000000000000401 = .ok (.penc 4 0) ∧ decode 0x0000000001000401 = .error .unusedField ∧
      decode 0x0000010000000401 = .error .unusedField ∧ decode 0x0000000100000401 = .error .unusedField ∧
      decode 0x0000020000000A0B = .error .unusedField := by decide

theorem test_decodeTableWord : decodeTableWord 64 0x0000000301010205 = some (.init 2 3 1 1) := by decide

/-- The assembler's lines of R98, a pseudo-instruction of R99, and a count it refuses. -/
theorem test_assembler :
    parseLine "ENC e6, e4, e3, #2 ; key in e3".toList = some (.command (.enc 6 4 3 2)) ∧
      parseLine "EXCHANGE e2, e3, p1, s0x1".toList = some (.pseudo (.exchange 2 3 1 1)) ∧
      parseLine "ENC e6, e4, e3, #257".toList = none ∧ parseLine "PENC e0, p8".toList = none := by decide +kernel

/-! ## The vectors of 95_test_vectors.md on TOY557 (R9) -/

/-- The reset state with some EMEM words written. -/
def withElems (es : List (Nat × Word)) : State := es.foldl (fun s e => s.writeE toy e.1 e.2) State.reset

/-- The check of TOY_SPONGE in 95_test_vectors.md, section 2.4. -/
theorem test_toy_sponge : sponge toy [407, 483] 5 = [86, 408, 173, 495, 260] := by decide +kernel

theorem test_toy_points :
    smul toy.curve 5 toy.gen = ⟨263, 111⟩ ∧ smul toy.curve 137 toy.gen = identity ∧
      addPt toy.curve toy.gen (pointT2 toy.curve) = ⟨554, 502⟩ ∧
      candidates toy.curve 1 = [57, 500] ∧ candidates toy.curve 4 = [] ∧
      candidates toy.curve 118 = [0] := by decide +kernel

/-- NOP with nothing sticky set leaves STATUS 0x0002 (R265). -/
theorem test_nop : (State.reset.complete (nopBody State.reset)).statusWord = 0x0002 := by decide +kernel

/-- `PENC e0, p0` on Pt(263, 111). -/
theorem test_penc :
    let s := State.reset.writeP 0 ⟨263, 111⟩
    (s.complete (pencBody toy 0 0 s)).readE toy 0 = 263 := by decide +kernel

/-- `PENC` of an Empty register, and of p8. -/
theorem test_penc_errors :
    (State.reset.complete (pencBody toy 0 0 State.reset)).statusWord = 0x0706 ∧
      (State.reset.complete (pencBody toy 0 8 State.reset)).statusWord = 0x0506 := by decide +kernel

/-- x = 5 decodes by convention B; x = 263 by A. -/
theorem test_pdec :
    let s := withElems [(0, 5), (1, 263)]
    (s.complete (pdecBody toy 1 0 s)).readP 1 = some ⟨5, 315⟩ ∧
      (s.complete (pdecBody toy 1 1 s)).readP 1 = some ⟨263, 111⟩ := by decide +kernel

/-- x = 1 (no point in G), 118 (y = 0), 557 (not canonical). -/
theorem test_pdec_errors :
    let s := withElems [(0, 1), (1, 118), (2, 557)]
    (s.complete (pdecBody toy 0 0 s)).statusWord = 0x0106 ∧
      (s.complete (pdecBody toy 0 1 s)).statusWord = 0x0106 ∧
      (s.complete (pdecBody toy 0 2 s)).statusWord = 0x0606 := by decide +kernel

/-- The port delivers 42: S[3] = 42. -/
theorem test_gensk :
    let s : State := { State.reset with rng := .delivered 42 }
    (genskBody toy 3 s).readS 3 = 42 ∧ (genskBody toy 3 s).statusWord = 0x0002 := by decide +kernel

/-- A delivered 137 is rejected and another value requested; s8 raises E_OPERAND with no request. -/
theorem test_gensk_rejects :
    (genskBody toy 3 { State.reset with rng := .delivered 137 }).rng = .requested ∧
      (genskBody toy 8 State.reset).statusWord = 0x0506 ∧ (genskBody toy 8 State.reset).rng = .idle := by
  decide +kernel

/-- S[0] = 136 gives -GEN; S[0] = 137 is not canonical. -/
theorem test_pubkey :
    let s := State.reset.writeS 0 136
    (s.complete (pubkeyBody toy 0 0 s)).readP 0 = some ⟨554, 55⟩ := by decide +kernel

theorem test_pubkey_errors :
    let s := State.reset.writeS 0 137
    (s.complete (pubkeyBody toy 0 0 s)).statusWord = 0x0606 ∧
      (s.complete (pubkeyBody toy 0 8 s)).statusWord = 0x0506 := by decide +kernel

/-- `INIT e2, e3, p1, s1` with P[1] = Pt(263, 111), S[1] = 7. -/
theorem test_init :
    let s := (State.reset.writeP 1 ⟨263, 111⟩).writeS 1 7
    let t := s.complete (initBody toy 2 3 1 1 s)
    t.readE toy 2 = 36 ∧ t.readE toy 3 = 483 := by decide +kernel

/-- D = D2, an Empty register, and a scalar that is not canonical (R291's order). -/
theorem test_init_errors :
    let s := State.reset.writeS 0 137
    (s.complete (initBody toy 4 4 0 0 s)).statusWord = 0x0506 ∧
      (s.complete (initBody toy 4 5 0 0 s)).statusWord = 0x0706 ∧
      ((s.writeP 0 ⟨263, 111⟩).complete (initBody toy 4 5 0 0 (s.writeP 0 ⟨263, 111⟩))).statusWord = 0x0606 := by
  decide +kernel

/-- `COMPL e9, s0, e2` with S[0] = 5, E[2] = 36. -/
theorem test_compl :
    let s := (withElems [(2, 36)]).writeS 0 5
    (s.complete (complBody toy 9 0 2 s)).readE toy 9 = 483 := by decide +kernel

/-- x = 1 gives NONE with ERRCODE 0. -/
theorem test_compl_none :
    let s := (withElems [(0, 1)]).writeS 0 5
    (s.complete (complBody toy 3 0 0 s)).statusWord = 0x000A := by decide +kernel

/-- `COMMIT e8, e3` with E[3] = 483; key 557 is not canonical. -/
theorem test_commit :
    let s := withElems [(3, 483), (4, 557)]
    (s.complete (commitBody toy 8 3 s)).readE toy 8 = 555 ∧
      (s.complete (commitBody toy 8 4 s)).statusWord = 0x0606 := by decide +kernel

/-- `ENC e2, e1, e0, #2` with overlapping ranges. -/
theorem test_enc_overlap :
    let s := withElems [(0, 483), (1, 10), (2, 20)]
    let t := s.complete (encBody toy 2 1 0 2 s)
    t.readE toy 1 = 10 ∧ t.readE toy 2 = 96 ∧ t.readE toy 3 = 428 := by decide +kernel

/-- N = 0 still checks the key; N = 257 and a range past E[255] raise E_OPERAND. -/
theorem test_enc_errors :
    let s := withElems [(0, 600)]
    (s.complete (encBody toy 0 0 0 0 s)).statusWord = 0x0606 ∧
      (s.complete (encBody toy 0 0 0 257 s)).statusWord = 0x0506 ∧
      (s.complete (encBody toy 255 0 0 2 s)).statusWord = 0x0506 := by decide +kernel

/-- `DEC e10, e6, e9, #2` of [446, 31] with key 483. -/
theorem test_dec :
    let s := withElems [(6, 446), (7, 31), (9, 483)]
    let t := s.complete (decBody toy 10 6 9 2 s)
    t.readE toy 10 = 360 ∧ t.readE toy 11 = 180 := by decide +kernel

/-- (5 - 86) mod 557 = 476. -/
theorem test_dec_wraps :
    let s := withElems [(0, 483), (1, 5)]
    (s.complete (decBody toy 2 1 0 1 s)).readE toy 2 = 476 := by decide +kernel

/-- "hi" packs to [360, 180]. -/
theorem test_pack :
    let s := State.reset.writeBs toy 0 [0x68, 0x69]
    let t := s.complete (packBody toy 4 2 s)
    t.readE toy 4 = 360 ∧ t.readE toy 5 = 180 ∧ t.resultWord = 2 := by decide +kernel

/-- 01 02 03 04 fits from E[252] and not from E[253]. -/
theorem test_pack_space :
    let s := State.reset.writeBs toy 0 [1, 2, 3, 4]
    (s.complete (packBody toy 252 4 s)).readE toy 255 = 32 ∧
      (s.complete (packBody toy 253 4 s)).statusWord = 0x0806 := by decide +kernel

/-- [360, 180] unpacks to "hi". -/
theorem test_unpack :
    let s := withElems [(10, 360), (11, 180)]
    let t := s.complete (unpackBody toy 10 2 s)
    t.readB toy 0 = 0x68 ∧ t.readB toy 1 = 0x69 ∧ t.resultWord = 2 := by decide +kernel

/-- [] and [0] hold no terminator, [2] one bit below it; [511, 0] is 0xFF. -/
theorem test_unpack_outcomes :
    unpackElems 9 [] = .error .malformed ∧ unpackElems 9 [0] = .error .malformed ∧
      unpackElems 9 [2] = .error .badLength ∧ unpackElems 9 [511, 0] = .ok [0xFF] ∧
      unpackElems 9 [513] = .ok [] := by decide +kernel

/-- A host write of one word of E[1] and of S[2] and their read back; BMEM bytes land little-endian (R48, R50, R51). -/
theorem test_windows :
    let s := hostWrite toy (hostWrite toy (hostWrite toy State.reset 0x2024 4 0x01020304) 0x148 4 7) 0x1000 4 0x0A0B0C0D
    s.readE toy 1 = 0x0102030400000000 ∧ s.readS 2 = 0x70000000000000000 ∧ s.readB toy 0 = 0x0D ∧
      s.readB toy 3 = 0x0A ∧ (hostRead toy s 0x2024 4).readData = 0x01020304 ∧
      (hostRead toy s 0x148 4).readData = 7 := by decide +kernel

/-- Power-on may leave anything in memory, and what was written before is gone with it (R320, R325). -/
theorem test_power_on : ((withElems [(0, 5)]).powerOn.mem, (withElems [(0, 5)]).powerOn.powerUps) = ([], 1) := by
  decide +kernel

/-- `ISSUE` of NOP latches its word and the engine's move completes it (R100, R260, R261). -/
theorem test_issue :
    let s := (issueWord 0 (encode .nop)).foldl (fun s i => match i with
      | .hostWrite a n v => hostWrite toy s a n v
      | _ => s) State.reset
    s.latch = some 0 ∧ s.statusWord = 0x0001 := by decide +kernel

/-- `KEYGEN p1, s2` from reset: the port delivers 2^256 - 1, which no N < 2^256 accepts, and then 0; the host waits over
both, and PUBKEY is issued with S[2] = 0 and no OVERRUN (R45, R99). -/
theorem test_keygen_waits :
    ∃ t, runPseudo block.blockBase (.keygen 1 2) (genskEvents [BitVec.allOnes 256] 0) State.reset = some (t, []) ∧
      t.latch = some 0x0000000000020104 ∧ t.readS 2 = 0 ∧ t.overrun = false := by
  have hrej : ∀ u ∈ [BitVec.allOnes 256], block.n ≤ u.toNat := by
    intro u hu
    rw [List.mem_singleton.mp hu, BitVec.toNat_allOnes]
    have := block_valid.n_lt
    change block.n < _ at this
    omega
  exact runPseudo_keygen (es := []) (d := 1) (sf := 2) (by decide) hrej block_valid.n_prime.pos rfl rfl rfl

/-- Without an answer from the RNG port the host waits for ever (R332). -/
theorem test_keygen_without_rng :
    runPseudo block.blockBase (.keygen 1 2) [] State.reset = none := by
  have hops : (AsmLine.pseudo (.keygen 1 2)).ops block.blockBase =
      issueOps block.blockBase (encode (.gensk 2)) ++
        (.waitIdle :: issueOps block.blockBase (encode (.pubkey 1 2))) := rfl
  have hk : keepsPolling (issued State.reset (encode (.gensk 2))).statusWord = true := keepsPolling_statusWord _
  rw [runPseudo, hops, runHost_issue rfl rfl, runHost, waitIdle, afterInput_poll rfl, Option.bind_some, if_pos]
  · rfl
  · exact hk

/-! ## States that meet the hypotheses of the statements, for the block's own (unknown) parameters -/

theorem n_pos : 0 < block.n := block_valid.n_prime.pos

theorem p_pos : 0 < block.p := block_valid.p_prime.pos

/-- Element 0 written to E[i] reads 0. -/
theorem elemAt_writeE (s : State) (i v : Nat) (hv : v < block.p) :
    (s.writeE block i (BitVec.ofNat 256 v)).elemAt i = v := by
  unfold State.elemAt
  rw [readE_writeE, toNat_ofNat_of_lt block_valid hv]

theorem identity_subgroup : SubgroupPoint block.curve identity :=
  have h := Valid.identity_onC block_valid
  ⟨h.1.1, h.1.2, h.2, inSubgroup_identity block_valid⟩

theorem gen_subgroup : SubgroupPoint block.curve block.gen :=
  have h := block_valid
  ⟨h.gen_x_lt, h.gen_y_lt, h.gen_onCurve, h.gen_subgroup⟩

/-- On every valid curve there is a point (x, 0) (R133). -/
theorem exists_y_zero {c : Scheme} (h : c.Valid) : ∃ x < c.curve.p, onCurve c.curve ⟨x, 0⟩ = true := by
  obtain ⟨r, hr, hra⟩ := h.a_square
  have hp := h.p_prime
  have : Fact c.curve.p.Prime := ⟨hp⟩
  refine ⟨finv c.curve.p r, finv_lt hp.pos _, ?_⟩
  have hcast := congrArg (Nat.cast : Nat → ZMod c.curve.p) hra
  rw [cast_fmul] at hcast
  have hr0 : (r : ZMod c.curve.p) ≠ 0 := by
    intro h0
    apply h.a_ne
    apply eq_of_cast_eq h.a_lt hp.pos
    rw [← hcast, h0]
    simp
  rw [onCurve_iff]
  unfold Edwards.On
  simp only [cast_finv hp (Valid.two_lt h), ← hcast]
  field_simp
  simp

/-- Some x-coordinate is the x-coordinate of no point of G. -/
theorem exists_x_without_point : ∃ x < block.p, NoSubgroupPoint block.curve x := by
  obtain ⟨x, hx, hon⟩ := exists_y_zero block_valid
  refine ⟨x, hx, ?_⟩
  rintro y ⟨-, hy, hy2, hG⟩
  have hp := block_valid.p_prime
  have : Fact block.scheme.curve.p.Prime := ⟨hp⟩
  have e0 := (onCurve_iff_square block_valid (x := x) hp.pos).2.mp hon
  have ey := (onCurve_iff_square block_valid (x := x) hy).2.mp hy2
  have hyy := congrArg (Nat.cast : Nat → ZMod block.scheme.curve.p) (ey.trans e0.symm)
  rw [cast_fmul, cast_fmul] at hyy
  have hy0 : y = 0 := eq_of_cast_eq hy hp.pos (by simpa using hyy)
  subst hy0
  exact y_zero_not_inSubgroup block_valid ⟨⟨hx, hp.pos⟩, hon⟩ hG

/-- The reset state with a command word latched. -/
def latched (w : CmdWord) : State := { State.reset with latch := some w }

theorem witness_DecodeThenEncode : decode 0x0000020003040608 = .ok (.enc 6 4 3 2) := by decide

theorem witness_DecodeFollowsMaskTable :
    opcodeRows[11]? = some ⟨0x000000000000000B, 0xFFE000FFFF00FFFF⟩ ∧
      decode 0x00000200000A000B = .ok (.unpack 10 2) := by decide

theorem witness_StepRunsLatchedCommand :
    (latched 0).rstN = true ∧ (latched 0).latch = some 0 ∧ decode 0 = .ok .nop ∧ (latched 0).inputs = [] := by
  decide

theorem witness_IllegalWordRaises :
    (latched 0xC).rstN = true ∧ (latched 0xC).latch = some 0xC ∧
      ∀ r ∈ opcodeRows, r.spells 0xC = false := by decide

theorem witness_NopCompletes :
    State.reset.noKey = false ∧ State.reset.overrun = false ∧ State.reset.accErr = false ∧
      (0x100 : CmdWord).extractLsb' 0 8 = 0 ∧ (0x100 : CmdWord) ≠ 0 := by decide

theorem witness_PencWritesXCoordinate :
    (7 : PField).toNat < 8 ∧ (State.reset.writeP 7 ⟨0, 1⟩).pointAt 7 = some ⟨0, 1⟩ := by decide

theorem witness_PdecFindsSubgroupPoint :
    (0 : PField).toNat < 8 ∧
      SubgroupPoint block.curve ⟨(State.reset.writeE block 255 0#256).elemAt (255 : EField).toNat, 1⟩ := by
  refine ⟨by decide, ?_⟩
  show SubgroupPoint block.curve ⟨(State.reset.writeE block 255 (BitVec.ofNat 256 0)).elemAt 255, 1⟩
  rw [elemAt_writeE _ _ 0 p_pos]
  exact identity_subgroup

theorem witness_GenskTakesAcceptedValue :
    (7 : SField).toNat < 8 ∧ ({ State.reset with rng := .delivered 0 } : State).rng = .delivered 0 ∧
      (0 : Word).toNat < block.n := ⟨by decide, rfl, n_pos⟩

theorem witness_GenskRedrawsUntilAccepted :
    let idle := latched 0x0000000000000303
    let asking : State := { idle with rng := .requested }
    idle.rstN = true ∧ idle.latch = some 0x0000000000000303 ∧ idle.rng = .idle ∧
      asking.rstN = true ∧ asking.latch = some 0x0000000000000303 ∧ asking.rng = .requested ∧
      decode 0x0000000000000303 = .ok (.gensk 3) ∧ (3 : SField).toNat < 8 ∧
      (0 : Word).toNat < block.n ∧ block.n ≤ (BitVec.ofNat 256 block.n).toNat := by
  refine ⟨rfl, rfl, rfl, rfl, rfl, rfl, by decide, by decide, n_pos, ?_⟩
  rw [BitVec.toNat_ofNat, Nat.mod_eq_of_lt block_valid.n_lt]

theorem witness_PubkeyWritesMultipleOfGen :
    (7 : PField).toNat < 8 ∧ (0 : SField).toNat < 8 ∧ State.reset.scalarAt 0 < block.n :=
  ⟨by decide, by decide, n_pos⟩

theorem witness_InitWritesBothCoordinates :
    let s := State.reset.writeP 7 ⟨0, 1⟩
    (7 : PField).toNat < 8 ∧ (0 : SField).toNat < 8 ∧ (255 : EField) ≠ 0 ∧ s.pointAt 7 = some ⟨0, 1⟩ ∧
      s.scalarAt 0 < block.n :=
  ⟨by decide, by decide, by decide, by decide, n_pos⟩

theorem witness_ComplWritesSharedX :
    let s := State.reset.writeE block 255 0#256
    (7 : SField).toNat < 8 ∧ s.scalarAt 7 < block.n ∧
      SubgroupPoint block.curve ⟨s.elemAt (255 : EField).toNat, 1⟩ :=
  ⟨by decide, n_pos, witness_PdecFindsSubgroupPoint.2⟩

theorem witness_ComplReportsNone :
    ∃ s : State, (0 : SField).toNat < 8 ∧ s.scalarAt 0 < block.n ∧ s.elemAt (0 : EField).toNat < block.p ∧
      NoSubgroupPoint block.curve (s.elemAt (0 : EField).toNat) := by
  obtain ⟨x, hx, hn⟩ := exists_x_without_point
  refine ⟨State.reset.writeE block 0 (BitVec.ofNat 256 x), by decide, n_pos, ?_⟩
  have : (State.reset.writeE block 0 (BitVec.ofNat 256 x)).elemAt 0 = x := elemAt_writeE _ _ x hx
  exact ⟨this.symm ▸ hx, this.symm ▸ hn⟩

theorem witness_CommitWritesSponge : (State.reset.writeE block 255 0#256).elemAt (255 : EField).toNat < block.p :=
  (elemAt_writeE State.reset 255 0 p_pos).symm ▸ p_pos

/-- The ranges at both ends of EMEM: N = 1 at E[255], and N = 0. -/
theorem witness_EncAddsKeystream :
    let s := State.reset.writeE block 255 0#256
    (1 : CountField).toNat ≤ 256 ∧ (255 : EField).toNat + (1 : CountField).toNat ≤ 256 ∧
      s.elemAt (255 : EField).toNat < block.p ∧
      ∀ k < (1 : CountField).toNat, s.elemAt ((255 : EField).toNat + k) < block.p := by
  refine ⟨by decide, by decide, witness_CommitWritesSponge, ?_⟩
  intro k hk
  have : k = 0 := by
    have : (1 : CountField).toNat = 1 := by decide
    omega
  subst this
  exact witness_CommitWritesSponge

theorem witness_DecSubtractsKeystream :
    let s := State.reset.writeE block 255 0#256
    (0 : CountField).toNat ≤ 256 ∧ (255 : EField).toNat + (0 : CountField).toNat ≤ 256 ∧
      s.elemAt (255 : EField).toNat < block.p ∧
      ∀ k < (0 : CountField).toNat, s.elemAt ((255 : EField).toNat + k) < block.p :=
  ⟨by decide, by decide, witness_CommitWritesSponge, fun k hk => absurd hk (by simp)⟩

theorem packedCount_zero : packedCount 0 = 1 := by
  have := (capacity_bounds block_valid).1
  unfold packedCount ceilDiv
  rw [Nat.mul_zero, Nat.zero_add, Nat.add_sub_cancel_left, Nat.div_self (by omega)]

theorem witness_PackWritesElements :
    (0 : CountField).toNat ≤ 4096 ∧ (255 : EField).toNat + packedCount (0 : CountField).toNat ≤ 256 := by
  rw [show (0 : CountField).toNat = 0 from rfl, packedCount_zero]
  decide

theorem elementsNumber_one (s : State) (h : s.elemAt 0 = 1) : s.elementsNumber 0 1 = 1 := by
  have hc := (capacity_bounds block_valid).1
  have : 1 % 2 ^ capacity block = 1 := Nat.mod_eq_of_lt (Nat.one_lt_two_pow (by omega))
  simp [State.elementsNumber, codecNumber, h, this]

theorem witness_UnpackWritesBytes :
    let s := State.reset.writeE block 0 1#256
    (1 : CountField).toNat ≤ 256 ∧ (0 : EField).toNat + (1 : CountField).toNat ≤ 256 ∧
      (∀ k < (1 : CountField).toNat, s.elemAt ((0 : EField).toNat + k) < block.p) ∧
      s.elementsNumber (0 : EField).toNat (1 : CountField).toNat ≠ 0 ∧
      Nat.log2 (s.elementsNumber (0 : EField).toNat (1 : CountField).toNat) = 8 * 0 ∧ 0 ≤ 4096 := by
  have h1 : 1 < block.p := block_valid.p_prime.one_lt
  have he : (State.reset.writeE block 0 1#256).elemAt 0 = 1 := elemAt_writeE _ _ 1 h1
  have hn := elementsNumber_one _ he
  refine ⟨by decide, by decide, ?_, ?_, ?_, by decide⟩
  · intro k hk
    have : k = 0 := by
      have : (1 : CountField).toNat = 1 := by decide
      omega
    subst this
    exact he.symm ▸ h1
  · show (State.reset.writeE block 0 1#256).elementsNumber 0 1 ≠ 0
    rw [hn]
    decide
  · show Nat.log2 ((State.reset.writeE block 0 1#256).elementsNumber 0 1) = 8 * 0
    rw [hn]
    decide

theorem witness_FailedCommandChangesOnlyStatus :
    exec (.penc 0 0) State.reset = .next (State.reset.ended 7) ∧ State.reset.errcode = 0 ∧
      (State.reset.ended 7).errcode ≠ 0 := ⟨rfl, rfl, by decide⟩

/-- A valid scheme, a chunk size and a byte string: the hypotheses of the codec's statements. -/
theorem witness_codec_statements :
    block.scheme.Valid ∧ 0 < 1 ∧ ([0xFF] : List Byte).length ≤ 31 ∧ (List.replicate 32 (0 : Byte)).length = 32 ∧
      (List.replicate 63 (0 : Byte)).length = 63 ∧ (List.replicate 95 (0 : Byte)).length = 95 ∧
      (List.replicate 4096 (0 : Byte)).length = 4096 ∧ (List.replicate 2 (0 : Byte)).length = 2 ∧
      (List.replicate 3 (0 : Byte)).length = 3 := by
  refine ⟨block_valid, by decide, by decide, ?_, ?_, ?_, ?_, ?_, ?_⟩ <;> exact List.length_replicate

theorem witness_DecAfterEnc :
    let s := State.reset.writeE block 255 0#256
    (1 : CountField).toNat ≤ 256 ∧ (255 : EField).toNat + (1 : CountField).toNat ≤ 256 ∧
      (0 : EField).toNat + (1 : CountField).toNat ≤ 256 ∧ s.elemAt (255 : EField).toNat < block.p ∧
      (∀ k < (1 : CountField).toNat, s.elemAt ((255 : EField).toNat + k) < block.p) ∧
      ¬((0 : EField).toNat ≤ (255 : EField).toNat ∧
        (255 : EField).toNat < (0 : EField).toNat + (1 : CountField).toNat) :=
  ⟨by decide, by decide, by decide, witness_CommitWritesSponge, witness_EncAddsKeystream.2.2.2, by decide⟩

theorem witness_ExchangeAgrees :
    (0 : PField).toNat < 8 ∧ (7 : SField).toNat < 8 ∧ State.reset.scalarAt 0 < block.n ∧
      State.reset.scalarAt 7 < block.n ∧ (0 : EField) ≠ 255 :=
  ⟨by decide, by decide, n_pos, n_pos, by decide⟩

/-- Points of the curve and of G, and a point (x, 0): the hypotheses of the statements about the curve. -/
theorem witness_curve_statements :
    block.scheme.Valid ∧ SubgroupPoint block.scheme.curve block.gen ∧
      SubgroupPoint block.scheme.curve identity ∧
      ∃ x < block.scheme.curve.p, onCurve block.scheme.curve ⟨x, 0⟩ = true :=
  ⟨block_valid, gen_subgroup, identity_subgroup, exists_y_zero block_valid⟩

theorem witness_WrittenWordsAreCanonical :
    State.reset.PointsInSubgroup ∧ exec .nop State.reset = .next (State.reset.ended 0) := by
  refine ⟨?_, rfl⟩
  intro i q hq
  simp [State.readP, State.reset] at hq

/-- A reset that empties P[0], and a PUBKEY that fills it. -/
theorem witness_PointRegistersWrittenOnlyBy :
    (∃ t, step ((State.reset.writeP 0 ⟨0, 1⟩).given .rstLow) = .next t ∧
      t.readP 0 ≠ ((State.reset.writeP 0 ⟨0, 1⟩).given .rstLow).readP 0) ∧
    ∃ t, step (latched 0x0000000000000004) = .next t ∧ t.readP 0 ≠ (latched 0x0000000000000004).readP 0 := by
  refine ⟨⟨_, rfl, by decide⟩, ?_⟩
  have hS : ∀ s : State, s.readS 0 = 0 → s.rstN = true → s.latch = some 0x0000000000000004 → s.inputs = [] →
      ∃ t, step s = .next t ∧ (t.readP 0).isSome := by
    intro s h0 hr hl hi
    have hd : decode 0x0000000000000004 = .ok (.pubkey 0 0) := by decide
    have hlt : (s.readS ⟨0, by decide⟩).toNat < block.n := by
      rw [show (⟨0, by decide⟩ : Fin 8) = 0 from rfl, h0]
      exact n_pos
    have hx : regIndex (0 : BitVec 8) = .ok ⟨0, by decide⟩ := regIndex_of_lt (by decide)
    refine ⟨(s.writeP ⟨0, by decide⟩
      (ofAff (smul block.curve (s.readS ⟨0, by decide⟩).toNat block.gen))).finish 0, ?_, ?_⟩
    · simp only [step, hi, engineMove, hr, if_true, hl, runWord, hd, exec, execPubkey, pubkeyBody, hx, ok_bind,
        readScalar_of_lt hlt, pure_eq_ok, complete_ok]
    · rw [readP_finish]
      exact congrArg Option.isSome (readP_writeP s _ _)
  obtain ⟨t, ht, hsome⟩ := hS (latched 0x0000000000000004) (by decide) rfl rfl rfl
  refine ⟨t, ht, ?_⟩
  intro hn
  rw [hn] at hsome
  revert hsome
  decide

/-- Out of reset, with a command latched and with none: the hypotheses of the host port's statements. -/
theorem witness_host_statements :
    State.reset.rstN = true ∧ State.reset.busy = false ∧ (latched 0).rstN = true ∧ (latched 0).busy = true ∧
      (1023 < 1024 ∧ 255 < 256) ∧ opcodeRows.length = 12 := by decide

/-- One offset and size for each clause of the statement on bad accesses, at the ends of the reserved ranges. -/
theorem witness_BadAccessesSetAccErr :
    ∀ a ∈ [(0, 2), (3, 4), (0x01C, 4), (0x03C, 4), (0x0C0, 4), (0x0FC, 4), (0x400, 4), (0xFFC, 4), (0x3FFF, 0)],
      a.1 < 0x4000 ∧ (a.2 ≠ 4 ∨ a.1 % 4 ≠ 0 ∨ 0x01C ≤ a.1 ∧ a.1 < 0x040 ∨ 0x0C0 ≤ a.1 ∧ a.1 < 0x100 ∨
        0x400 ≤ a.1 ∧ a.1 < 0x1000) := by decide

theorem witness_ReadOnlyTargetsKeepTheirValue :
    ∀ off ∈ [0x010, 0x014, 0x018, 0x040, 0x0BC, 0x200, 0x3FC],
      off = 0x010 ∨ off = 0x014 ∨ off = 0x018 ∨ 0x040 ≤ off ∧ off < 0x0C0 ∨ 0x200 ≤ off ∧ off < 0x400 := by
  decide

theorem witness_BusyLocksDataWindows :
    (latched 0).rstN = true ∧ (latched 0).busy = true ∧ (0x100 ≤ 0x3FFF ∧ 0x3FFF < 0x4000) ∧ 0x0FC < 0x100 := by
  decide

/-- A host write of CMD_HI while a command is latched, and a host read. -/
theorem witness_HostCannotDisturbCommand :
    (latched 0).busy = true ∧
      (∃ t, step ((latched 0).given (.hostRead (block.blockBase + 0x3FFC) 4)) = .next t) ∧
      ∃ t, step ((latched 0).given (.hostWrite (block.blockBase + 4) 4 1)) = .next t :=
  ⟨rfl, ⟨_, rfl⟩, ⟨_, rfl⟩⟩

/-- A NOP completing with CTRL.IE set raises IRQ, and so does setting CTRL.IE with DONE pending. -/
theorem witness_IrqRisesOnlyByCompletionOrEnable :
    (∃ t, step { latched 0 with ie := true } = .next t ∧ ({ latched 0 with ie := true } : State).irq = false ∧
      t.irq = true) ∧
    ∃ t, step (({ State.reset with done := true } : State).given (.hostWrite (block.blockBase + 0x00C) 4 1)) =
        .next t ∧
      (({ State.reset with done := true } : State).given (.hostWrite (block.blockBase + 0x00C) 4 1)).irq = false ∧
      t.irq = true := by
  refine ⟨⟨_, rfl, by decide, by decide⟩, _, rfl, by decide, ?_⟩
  have h : portOffset block.blockBase (block.blockBase + 0x00C) = some 0x00C := by
    rw [portOffset, if_pos ⟨Nat.le_add_right _ _, by omega⟩, Nat.add_sub_cancel_left]
    rfl
  unfold hostWrite
  rw [h]
  decide

/-- RST_N high, and RST_N low in a state whose control registers are sound. -/
theorem witness_reset_statements :
    State.reset.rstN = true ∧ ({ State.reset with rstN := false } : State).rstN = false ∧
      ({ State.reset with rstN := false } : State).ControlSound ∧ 0x3FFC < 0x4000 := by
  refine ⟨rfl, rfl, ?_, by decide⟩
  constructor <;> decide

theorem witness_PointsStayInSubgroup :
    (latched 0).PointsInSubgroup ∧ step (latched 0) = .next ((latched 0).ended 0) := by
  refine ⟨?_, rfl⟩
  intro i q hq
  simp [State.readP, latched, State.reset] at hq

theorem witness_MemoryStaysCanonical :
    (latched 0).MemoryCanonical ∧ step (latched 0) = .next ((latched 0).ended 0) :=
  ⟨⟨List.Pairwise.nil, fun _ h => absurd h List.not_mem_nil⟩, rfl⟩

/-- A GENSK that waits at the RNG port. -/
theorem witness_ControlStaysSound :
    let s : State := { latched 0x0000000000000303 with rng := .requested }
    s.ControlSound ∧ ∃ t, step s = .next t := by
  refine ⟨?_, _, rfl⟩
  have hd : decode 0x0000000000000303 = .ok (.gensk 3) := by decide
  exact {
    cleared := fun _ => ⟨rfl, rfl, rfl, rfl⟩
    code := by decide
    none_ok := fun h => by cases h
    failed := fun h => absurd rfl h
    count := Nat.zero_le _
    request := fun _ => ⟨_, 3, rfl, hd, by decide⟩
    held := fun h => by cases h }

end Sys2Proof.Tests
end

section
/-! SUPPORT. All that a command can have written when it completes (R261, R262), and with it what every step does to the
point registers and to the control registers. -/

namespace Sys2Proof.Proofs

open Sys2Proof.Machine Sys2Proof.Config Sys2Proof.Laws

/-! ### Element memory after the writes of a command -/

/-- Each EMEM word reads in `t` as in `s`, or holds a canonical element there (R22). -/
def WordsKeptOrCanonical (s t : State) : Prop :=
  ∀ k < 256, t.readE block k = s.readE block k ∨ t.elemAt k < block.p

theorem WordsKeptOrCanonical.of_readE_eq {s t : State} (h : ∀ k < 256, t.readE block k = s.readE block k) :
    WordsKeptOrCanonical s t := fun k hk => .inl (h k hk)

theorem WordsKeptOrCanonical.trans {s t u : State} (hst : WordsKeptOrCanonical s t)
    (htu : WordsKeptOrCanonical t u) : WordsKeptOrCanonical s u := by
  intro k hk
  rcases htu k hk with hkept | hlt
  · rcases hst k hk with hkept' | hlt
    · exact .inl (hkept.trans hkept')
    · exact .inr (by rwa [State.elemAt, hkept])
  · exact .inr hlt

theorem wordsKeptOrCanonical_writeE (s : State) (i : Nat) {v : Word} (hv : v.toNat < block.p) :
    WordsKeptOrCanonical s (s.writeE block i v) := by
  intro k _
  by_cases hk : k = i
  · subst hk
    exact .inr (by rwa [State.elemAt, readE_writeE])
  · exact .inl (readE_writeE_ne block s v hk)

theorem wordsKeptOrCanonical_writeE_ofNat (s : State) (i : Nat) {v : Nat} (hv : v < block.p) :
    WordsKeptOrCanonical s (s.writeE block i (BitVec.ofNat 256 v)) :=
  wordsKeptOrCanonical_writeE s i (by rwa [toNat_ofNat_of_lt block_valid hv])

theorem wordsKeptOrCanonical_writeEs (vs : List Nat) : ∀ (s : State) (i : Nat), (∀ v ∈ vs, v < block.p) →
    WordsKeptOrCanonical s (s.writeEs block i vs) := by
  induction vs with
  | nil => exact fun s i _ => .of_readE_eq fun _ _ => rfl
  | cons v vs ih =>
    intro s i hvs
    obtain ⟨hv, hvs⟩ := List.forall_mem_cons.mp hvs
    exact (wordsKeptOrCanonical_writeE_ofNat s i hv).trans (ih _ (i + 1) hvs)

/-- Bytes written inside BMEM change no EMEM word (R50, R51). -/
theorem wordsKeptOrCanonical_writeBs (s : State) {bytes : List Byte} (hlen : bytes.length ≤ 4096) :
    WordsKeptOrCanonical s (s.writeBs block 0 bytes) := by
  refine .of_readE_eq fun k _ => readE_congr fun a ha _ => ?_
  apply (writeBs_spec block bytes s 0).2.2
  unfold eAddr ememBase at ha
  unfold bAddr bmemBase
  omega

/-- A chunk of a packed message is below 2^CAPACITY, which is at most p (R231, R239). -/
theorem packBytes_lt {c : Params} (hc : c.scheme.Valid) {bytes : List Byte} {e : Nat}
    (he : e ∈ packBytes (capacity c) bytes) : e < c.p := by
  obtain ⟨-, -, hcap, -⟩ := capacity_bounds hc
  obtain ⟨k, -, rfl⟩ := List.mem_map.mp he
  calc bitsToNat (((packBits bytes).drop (k * capacity c)).take (capacity c))
      < 2 ^ (((packBits bytes).drop (k * capacity c)).take (capacity c)).length := bitsToNat_lt _
    _ ≤ 2 ^ capacity c := Nat.pow_le_pow_right (by decide) (List.length_take_le _ _)
    _ ≤ c.p := hcap

/-- An element of a list combined by `f` is a value of `f`. -/
theorem zipWith_lt {f : Nat → Nat → Nat} {p : Nat} (hf : ∀ a b, f a b < p) {xs ys : List Nat} :
    ∀ v ∈ List.zipWith f xs ys, v < p := by
  intro v hv
  obtain ⟨k, hk, rfl⟩ := List.getElem_of_mem hv
  rw [List.getElem_zipWith]
  exact hf _ _

theorem commitment_lt {c : Params} (hc : c.scheme.Valid) (k : Nat) : commitment c k < c.p :=
  Nat.mod_lt _ hc.p_prime.pos

/-! ### Point registers -/

theorem readP_congr {s t : State} (h : t.preg = s.preg) (j : Fin 8) : t.readP j = s.readP j := by
  rw [State.readP, State.readP, h]

theorem regNo_of_regIndex {f : BitVec 8} {i : Fin 8} (h : regIndex f = .ok i) : regNo f = i := by
  apply Fin.ext
  simp [regNo, regIndex_ok h]

/-- A point register gives back the pair it was written from (R24). -/
theorem toAff_ofAff {P : Aff} (hx : P.x < block.p) (hy : P.y < block.p) : toAff (ofAff P) = P := by
  simp only [toAff, ofAff, toNat_ofNat_of_lt block_valid hx, toNat_ofNat_of_lt block_valid hy]

theorem subgroupPoint_decodeX {c : Scheme} (hc : c.Valid) {x : Nat} {q : Aff} (hx : x < c.curve.p)
    (hq : decodeX c.curve x = some q) : SubgroupPoint c.curve q := by
  obtain ⟨rfl, hy, hon, hin⟩ := decodeX_some hc hq
  exact ⟨hx, hy, hon, hin⟩

theorem subgroupPoint_smul_gen {c : Scheme} (hc : c.Valid) (k : Nat) :
    SubgroupPoint c.curve (smul c.curve k c.gen) := by
  have hgen : OnC c.curve c.gen := ⟨⟨hc.gen_x_lt, hc.gen_y_lt⟩, hc.gen_onCurve⟩
  obtain ⟨⟨hx, hy⟩, hon⟩ := smul_onC hc hgen k
  exact ⟨hx, hy, hon, inSubgroup_smul hc hgen hc.gen_subgroup k⟩

/-- The x-coordinate of a point register is canonical (R25). -/
theorem pointsInSubgroup_x_lt {s : State} (h : s.PointsInSubgroup) {i : Fin 8} {q : Point}
    (hq : s.readP i = some q) : q.x.toNat < block.p := (h i q hq).1

/-! ### What a completed command has written -/

/-- All that a command can have written when it completes without an error: EMEM and BMEM, with each EMEM word
it changed canonical; a scalar; a point of G; NONE; or memory and RESULT. -/
inductive Wrote (s : State) : Instr → State → Prop where
  | memory {i : Instr} {u : State} (hu : u = { s with mem := u.mem })
      (hw : s.PointsInSubgroup → WordsKeptOrCanonical s u) : Wrote s i u
  | scalar {d : SField} (j : Fin 8) (v : Word) : Wrote s (.gensk d) (s.writeS j v)
  | decodedPoint {d : PField} {s1 : EField} {P : Aff} (hP : SubgroupPoint block.curve P) :
      Wrote s (.pdec d s1) (s.writeP (regNo d) (ofAff P))
  | publicKey {d : PField} {s1 : SField} {P : Aff} (hP : SubgroupPoint block.curve P) :
      Wrote s (.pubkey d s1) (s.writeP (regNo d) (ofAff P))
  | noKey {d : EField} {s1 : SField} {s2 : EField} : Wrote s (.compl d s1 s2) s.setNoKey
  | counted {i : Instr} {u : State} {n : Nat} (hn : n ≤ 4096)
      (hu : u = { s with mem := u.mem, result := BitVec.ofNat 13 n })
      (hw : WordsKeptOrCanonical s u) : Wrote s i u

theorem wrote_writeE (s : State) (i : Instr) (d : Nat) {v : Nat} (hv : v < block.p) :
    Wrote s i (s.writeE block d (BitVec.ofNat 256 v)) :=
  .memory rfl fun _ => wordsKeptOrCanonical_writeE_ofNat s d hv

theorem wrote_stream {f : Nat → Nat → Nat} (hf : ∀ a b, f a b < block.p) {i : Instr} {d s1 s2 : EField}
    {n : CountField} {s u : State} (h : streamBody f block d s1 s2 n s = .ok u) : Wrote s i u := by
  obtain ⟨-, -, -, m, -, rfl⟩ := streamBody_ok h
  exact .memory (writeEs_spec block _ s _).1 fun _ => wordsKeptOrCanonical_writeEs _ s _ (zipWith_lt hf)

/-- The engine's move on a command ends with an error, waits for the RNG port, or completes with the command's
writes (R261, R262, R332). -/
theorem exec_wrote {i : Instr} {s t : State} (h : exec i s = .next t) :
    (∃ e, t = s.finish (errNumber e)) ∨ (∃ d, i = .gensk d ∧ d.toNat < 8 ∧ t = s.requestRng) ∨
      ∃ u, t = u.finish 0 ∧ Wrote s i u := by
  have next_inj : ∀ {u : State}, exec i s = .next u → t = u := fun hu => by
    rw [h] at hu
    exact Host.Outcome.next.inj hu
  have hp := block_valid.p_prime.pos
  rcases exec_cases i s with ⟨e, he⟩ | ⟨u, hu, hb⟩ | ⟨d, hi, hd, -, hw⟩
  · exact .inl ⟨e, next_inj he⟩
  · refine .inr (.inr ⟨u, next_inj hu, ?_⟩)
    cases i with
    | nop =>
      obtain rfl := nopBody_ok hb
      exact .memory rfl fun _ => .of_readE_eq fun _ _ => rfl
    | penc d s1 =>
      obtain ⟨j, q, -, hq, rfl⟩ := pencBody_ok hb
      exact .memory rfl fun hs => wordsKeptOrCanonical_writeE s _ (pointsInSubgroup_x_lt hs hq)
    | pdec d s1 =>
      obtain ⟨j, q, hj, hx, hq, rfl⟩ := pdecBody_ok hb
      rw [← regNo_of_regIndex hj]
      exact .decodedPoint (subgroupPoint_decodeX block_valid hx hq)
    | gensk d =>
      obtain ⟨j, v, -, -, -, rfl⟩ := hb
      exact .scalar j v
    | pubkey d s1 =>
      obtain ⟨j, j', hj, -, -, rfl⟩ := pubkeyBody_ok hb
      rw [← regNo_of_regIndex hj]
      exact .publicKey (subgroupPoint_smul_gen block_valid _)
    | init d d2 s1 s2 =>
      obtain ⟨j, j', q, -, -, -, -, -, rfl⟩ := initBody_ok hb
      exact .memory rfl fun _ =>
        (wordsKeptOrCanonical_writeE_ofNat s _ (smul_canon block_valid _ _).1).trans
          (wordsKeptOrCanonical_writeE_ofNat _ _ (smul_canon block_valid _ _).1)
    | compl d s1 s2 =>
      obtain ⟨j, -, -, -, ⟨-, rfl⟩ | ⟨q, -, rfl⟩⟩ := complBody_ok hb
      · exact .noKey
      · exact wrote_writeE s _ _ (smul_canon block_valid _ _).1
    | commit d s1 =>
      obtain ⟨-, rfl⟩ := commitBody_ok hb
      exact wrote_writeE s _ _ (commitment_lt block_valid _)
    | enc d s1 s2 n => exact wrote_stream (fadd_lt hp) hb
    | dec d s1 s2 n => exact wrote_stream (fsub_lt hp) hb
    | pack d n =>
      obtain ⟨-, hlen, rfl⟩ := packBody_ok hb
      have hcount := le_trans (le_of_add_le_right hlen) (show 256 ≤ 4096 by decide)
      refine .counted hcount ?_ (wordsKeptOrCanonical_writeEs _ s _ fun _ => packBytes_lt block_valid)
      rw [(writeEs_spec block _ s _).1]
      rfl
    | unpack s1 n =>
      obtain ⟨-, el, bytes, -, -, hlen, rfl⟩ := unpackBody_ok hb
      refine .counted hlen ?_ (wordsKeptOrCanonical_writeBs s hlen)
      rw [(writeBs_spec block _ s _).1]
      rfl
  · exact .inr (.inl ⟨d, hi, hd, next_inj hw⟩)

/-! ### What a step does to the point registers -/

/-- The command puts a point into P[k]: PDEC or PUBKEY with destination `k` (R151, R171). -/
def WritesPoint (i : Instr) (k : Fin 8) : Prop :=
  (∃ d s1, i = .pdec d s1 ∧ regNo d = k) ∨ ∃ d s1, i = .pubkey d s1 ∧ regNo d = k

theorem exec_preg {i : Instr} {s t : State} (h : exec i s = .next t) :
    t.preg = s.preg ∨
      ∃ k P, WritesPoint i k ∧ SubgroupPoint block.curve P ∧ t.preg = (s.writeP k (ofAff P)).preg := by
  rcases exec_wrote h with ⟨e, rfl⟩ | ⟨d, -, -, rfl⟩ | ⟨u, rfl, hu⟩
  · exact .inl rfl
  · exact .inl rfl
  · cases hu with
    | memory hu => exact .inl (by rw [finish_preg, hu])
    | scalar => exact .inl rfl
    | decodedPoint hP => exact .inr ⟨_, _, .inl ⟨_, _, rfl, rfl⟩, hP, rfl⟩
    | publicKey hP => exact .inr ⟨_, _, .inr ⟨_, _, rfl, rfl⟩, hP, rfl⟩
    | noKey => exact .inl rfl
    | counted _ hu => exact .inl (by rw [finish_preg, hu])

theorem engineMove_preg {s t : State} (h : engineMove s = .next t) :
    t.preg = s.preg ∨ ∃ w i k P, s.latch = some w ∧ decode w = .ok i ∧ WritesPoint i k ∧
      SubgroupPoint block.curve P ∧ t.preg = (s.writeP k (ofAff P)).preg := by
  rcases engineMove_cases h with rfl | ⟨-, -, rfl⟩ | ⟨w, i, -, hw, hd, hx⟩
  · exact .inl rfl
  · exact .inl rfl
  · exact (exec_preg hx).imp id fun ⟨k, P, hk, hP, ht⟩ => ⟨w, i, k, P, hw, hd, hk, hP, ht⟩

/-- A write of CMD_HI, its two branches (R260). -/
theorem writeCmdHi_eq (s : State) (v : BusWord) :
    s.writeCmdHi v = if s.busy then { s with cmdHi := v, overrun := true }
      else ({ s with cmdHi := v } : State).issue := rfl

theorem writeCmdHi_preg (s : State) (v : BusWord) : (s.writeCmdHi v).preg = s.preg := by
  rw [writeCmdHi_eq]
  split <;> rfl

theorem writeTarget_preg (c : Params) (s : State) (v : BusWord) (x : Target) :
    (writeTarget c s v x).preg = s.preg := by
  cases x with
  | cmdHi => exact writeCmdHi_preg s v
  | _ => rfl

theorem hostRead_preg (c : Params) (s : State) (addr size : Nat) : (hostRead c s addr size).preg = s.preg := by
  rcases hostRead_cases c s addr size with h | ⟨v, b, h, -⟩ <;> rw [h]

theorem hostWrite_preg (c : Params) (s : State) (addr size : Nat) (v : BusWord) :
    (hostWrite c s addr size v).preg = s.preg := by
  rcases hostWrite_cases c s addr size v with h | ⟨-, h⟩ | ⟨off, -, -, -, -, h⟩ <;> rw [h]
  · exact setAccErr_preg s
  · exact writeTarget_preg c s v _

theorem rngDeliver_preg (s : State) (v : Word) : (rngDeliver s v).preg = s.preg := by
  rcases rngDeliver_cases s v with ⟨-, h⟩ | ⟨-, h⟩ <;> rw [h]

/-- RST_N going low empties the point registers, or nothing happens because it is low already (R320). -/
theorem rstFall_preg (s : State) : s.rstFall.preg = s.preg ∨ s.rstFall.preg = Vector.replicate 8 none := by
  unfold State.rstFall
  split
  · exact .inr rfl
  · exact .inl rfl

/-- The point registers after a step: as before, all Empty by a reset, or with one point of G put there by the
command the engine moved on (R24, R25). -/
theorem step_preg {s t : State} (h : step s = .next t) :
    t.preg = s.preg ∨
    (t.preg = Vector.replicate 8 none ∧
      (s.inputs.head? = some .rstLow ∨ s.inputs.head? = some .powerOn)) ∨
    ((s.inputs = [] ∨ s.inputs.head? = some .engine) ∧
      ∃ w i k P, s.latch = some w ∧ decode w = .ok i ∧ WritesPoint i k ∧ SubgroupPoint block.curve P ∧
        t.preg = (s.writeP k (ofAff P)).preg) := by
  rcases step_cases h with ⟨hi, hm⟩ | ⟨i, r, hi, hx⟩
  · exact (engineMove_preg hm).imp id fun hw => .inr ⟨.inl hi, hw⟩
  · rw [hi]
    rcases takeInput_cases hx with ⟨a, n, -, rfl⟩ | ⟨a, n, v, -, rfl⟩ | ⟨v, -, rfl⟩ | ⟨rfl, hm⟩ | ⟨rfl, rfl⟩ |
      ⟨-, rfl⟩ | ⟨rfl, rfl⟩
    · exact .inl (hostRead_preg block _ a n)
    · exact .inl (hostWrite_preg block _ a n v)
    · exact .inl (rngDeliver_preg _ v)
    · exact (engineMove_preg hm).imp id fun hw => .inr ⟨.inr rfl, hw⟩
    · exact (rstFall_preg _).imp id fun he => .inl ⟨he, .inl rfl⟩
    · exact .inl rfl
    · exact .inr (.inl ⟨rfl, .inr rfl⟩)

theorem readP_of_empty {s : State} (h : s.preg = Vector.replicate 8 none) (j : Fin 8) : s.readP j = none := by
  simp [State.readP, h]

theorem pointsInSubgroup_of_preg_eq {s t : State} (hs : s.PointsInSubgroup) (h : t.preg = s.preg) :
    t.PointsInSubgroup := fun j q hq => hs j q (by rwa [← readP_congr h])

theorem pointsInSubgroup_of_empty {s : State} (h : s.preg = Vector.replicate 8 none) : s.PointsInSubgroup := by
  intro j q hq
  rw [readP_of_empty h] at hq
  cases hq

theorem pointsInSubgroup_writeP {s : State} (hs : s.PointsInSubgroup) (k : Fin 8) {P : Aff}
    (hP : SubgroupPoint block.curve P) : (s.writeP k (ofAff P)).PointsInSubgroup := by
  intro j q hq
  by_cases hj : j = k
  · subst hj
    rw [readP_writeP] at hq
    cases hq
    rwa [toAff_ofAff hP.1 hP.2.1]
  · rw [readP_writeP_ne s _ hj] at hq
    exact hs j q hq

/-- Settles O58: a step leaves the point registers alone, empties them, or writes a point of G (R25). -/
theorem pointsStayInSubgroup : Obligations.PointsStayInSubgroup := by
  intro s t hs h
  rcases step_preg h with hkept | ⟨hempty, -⟩ | ⟨-, w, i, k, P, -, -, -, hP, hwrite⟩
  · exact pointsInSubgroup_of_preg_eq hs hkept
  · exact pointsInSubgroup_of_empty hempty
  · exact pointsInSubgroup_of_preg_eq (pointsInSubgroup_writeP hs k hP) hwrite

/-- Settles O40: a register that changed was emptied by a reset or is the destination of the PDEC or PUBKEY that
the engine moved on (R24). -/
theorem pointRegistersWrittenOnlyBy : Obligations.PointRegistersWrittenOnlyBy := by
  intro s t j h hne
  rcases step_preg h with hkept | ⟨hempty, hreset⟩ | ⟨hmove, w, i, k, P, hw, hd, hk, -, hwrite⟩
  · exact absurd (readP_congr hkept j) hne
  · exact .inl ⟨readP_of_empty hempty j, hreset⟩
  · have hjk : j = k := by
      by_contra hjk
      exact hne ((readP_congr hwrite j).trans (readP_writeP_ne s _ hjk))
    exact .inr ⟨hmove, w, i, hw, hd, hjk ▸ hk⟩

/-- Settles O39: an error or a waiting GENSK writes no word, and each command's own writes are canonical (R22). -/
theorem writtenWordsAreCanonical : Obligations.WrittenWordsAreCanonical := by
  intro i s t hs h
  change WordsKeptOrCanonical s t
  rcases exec_wrote h with ⟨e, rfl⟩ | ⟨d, -, -, rfl⟩ | ⟨u, rfl, hu⟩
  · exact .of_readE_eq fun _ _ => rfl
  · exact .of_readE_eq fun _ _ => rfl
  · change WordsKeptOrCanonical s u
    cases hu with
    | memory _ hw => exact hw hs
    | counted _ _ hw => exact hw
    | scalar | decodedPoint | publicKey | noKey => exact .of_readE_eq fun _ _ => rfl

/-! ### What a step does to the control registers -/

theorem busy_eq_true_iff {s : State} : s.busy = true ↔ ∃ w, s.latch = some w := Option.isSome_iff_exists

/-- Out of reset, what keeps the latched command, the outcome registers and the RNG request, and at most
acknowledges DONE, keeps the control registers sound. -/
theorem controlSound_of_kept {s t : State} (hs : s.ControlSound) (hrst : t.rstN = true)
    (hlatch : t.latch = s.latch) (hdone : t.done = true → s.done = true) (hnoKey : t.noKey = s.noKey)
    (herr : t.errcode = s.errcode) (hresult : t.result = s.result) (hrng : t.rng = s.rng) : t.ControlSound where
  cleared hb := by
    rw [State.busy, hlatch] at hb
    obtain ⟨hd, hn, he, hr⟩ := hs.cleared hb
    exact ⟨Bool.eq_false_iff.mpr fun h => by simp [hdone h] at hd, hnoKey.trans hn, herr.trans he,
      hresult.trans hr⟩
  code := herr ▸ hs.code
  none_ok := by rw [hnoKey, herr, hresult]; exact hs.none_ok
  failed := by rw [herr, hresult]; exact hs.failed
  count := hresult ▸ hs.count
  request := by rw [hrng, hlatch]; exact hs.request
  held h := by rw [hrst] at h; cases h

/-- The reset action makes the control registers sound, whatever memory and RST_N then hold (R320). -/
theorem controlSound_resetAction (s : State) (m : Memory) (level : Bool) (n : Nat) :
    ({ s.resetAction with mem := m, rstN := level, powerUps := n } : State).ControlSound where
  cleared hb := by cases hb
  code := Nat.zero_le _
  none_ok hn := by cases hn
  failed _ := rfl
  count := Nat.zero_le _
  request hr := absurd rfl hr
  held _ := ⟨readP_of_empty rfl, fun i => by simp [State.readS], rfl, rfl, rfl,
    show State.reset.statusWord = 0 by decide, rfl, rfl, rfl⟩

theorem controlSound_reset : State.reset.ControlSound := controlSound_resetAction State.reset [] true 0

theorem controlSound_powerOn (s : State) : s.powerOn.ControlSound :=
  controlSound_resetAction s [] s.rstN (s.powerUps + 1)

theorem controlSound_rstFall {s : State} (hs : s.ControlSound) : s.rstFall.ControlSound := by
  unfold State.rstFall
  split
  · exact controlSound_resetAction s s.mem false s.powerUps
  · exact hs

/-! Completion -/

/-- The state in which a command ends, out of reset: the code is one of R280's, RESULT is at most 4096, and it is
0 after an error and with NONE. -/
theorem controlSound_finish {u : State} {code : BitVec 8} (hrst : u.rstN = true) (hcode : code.toNat ≤ 8)
    (hnone : u.noKey = true → code = 0 ∧ u.result = 0) (hfailed : code ≠ 0 → u.result = 0)
    (hcount : u.result.toNat ≤ 4096) : (u.finish code).ControlSound where
  cleared hb := by simp [State.busy] at hb
  code := hcode
  none_ok := hnone
  failed := hfailed
  count := hcount
  request hr := absurd rfl hr
  held h := by rw [finish_rstN, hrst] at h; cases h

theorem errNumber_le (e : ErrCode) : (errNumber e).toNat ≤ 8 := by cases e <;> decide

theorem controlSound_finish_error {s : State} (hs : s.ControlSound) (hrst : s.rstN = true) (hb : s.busy = true)
    (e : ErrCode) : (s.finish (errNumber e)).ControlSound := by
  obtain ⟨-, hn, -, hr⟩ := hs.cleared hb
  exact controlSound_finish hrst (errNumber_le e) (fun h => by rw [hn] at h; cases h) (fun _ => hr) hs.count

/-- A successful command writes NONE or RESULT, never both (R261). -/
theorem controlSound_finish_wrote {s u : State} {i : Instr} (hs : s.ControlSound) (hrst : s.rstN = true)
    (hb : s.busy = true) (hu : Wrote s i u) : (u.finish 0).ControlSound := by
  obtain ⟨-, hn, -, hr⟩ := hs.cleared hb
  have of_result : u.rstN = s.rstN → u.result = s.result → (u.finish 0).ControlSound := fun h1 h2 =>
    controlSound_finish (h1.trans hrst) (by decide) (fun _ => ⟨rfl, h2.trans hr⟩) (fun h => absurd rfl h)
      (h2 ▸ hs.count)
  cases hu with
  | memory hu => exact of_result (by rw [hu]) (by rw [hu])
  | scalar | decodedPoint | publicKey | noKey => exact of_result rfl rfl
  | @counted _ _ n hle hu _ =>
    have hnone : u.noKey = s.noKey := by rw [hu]
    have hresult : u.result = BitVec.ofNat 13 n := by rw [hu]
    refine controlSound_finish (by rw [hu]; exact hrst) (by decide) (fun h => ?_) (fun h => absurd rfl h) ?_
    · rw [hnone, hn] at h
      cases h
    · rw [hresult, BitVec.toNat_ofNat]
      exact le_trans (Nat.mod_le _ _) hle

theorem controlSound_requestRng {s : State} {w : CmdWord} {d : SField} (hs : s.ControlSound)
    (hrst : s.rstN = true) (hw : s.latch = some w) (hd : decode w = .ok (.gensk d)) (hlt : d.toNat < 8) :
    s.requestRng.ControlSound :=
  { hs with
    request := fun _ => ⟨w, d, hw, hd, hlt⟩
    held := fun h => by rw [requestRng_rstN, hrst] at h; cases h }

theorem controlSound_engineMove {s t : State} (hs : s.ControlSound) (h : engineMove s = .next t) :
    t.ControlSound := by
  rcases engineMove_cases h with rfl | ⟨hrst, hw, rfl⟩ | ⟨w, i, hrst, hw, hd, hx⟩
  · exact hs
  · exact controlSound_finish_error hs hrst (busy_eq_true_iff.mpr hw) _
  · have hb := busy_eq_true_iff.mpr ⟨w, hw⟩
    rcases exec_wrote hx with ⟨e, rfl⟩ | ⟨d, rfl, hlt, rfl⟩ | ⟨u, rfl, hu⟩
    · exact controlSound_finish_error hs hrst hb e
    · exact controlSound_requestRng hs hrst hw hd hlt
    · exact controlSound_finish_wrote hs hrst hb hu

/-! Host transactions and the RNG port -/

theorem controlSound_writeCmdHi {s : State} (hs : s.ControlSound) (hrst : s.rstN = true) (v : BusWord) :
    (s.writeCmdHi v).ControlSound := by
  rw [writeCmdHi_eq]
  split
  · exact controlSound_of_kept hs hrst rfl id rfl rfl rfl rfl
  · next hb =>
    have hidle : s.rng = .idle := by
      by_contra hr
      obtain ⟨w, d, hw, -⟩ := hs.request hr
      exact hb (busy_eq_true_iff.mpr ⟨w, hw⟩)
    exact {
      cleared := fun _ => ⟨rfl, rfl, rfl, rfl⟩
      code := Nat.zero_le _
      none_ok := fun _ => ⟨rfl, rfl⟩
      failed := fun _ => rfl
      count := Nat.zero_le _
      request := fun hr => absurd hidle hr
      held := fun h => by rw [issue_rstN, hrst] at h; cases h }

theorem controlSound_writeTarget {s : State} (hs : s.ControlSound) (hrst : s.rstN = true) (c : Params)
    (v : BusWord) (x : Target) : (writeTarget c s v x).ControlSound := by
  cases x with
  | cmdHi => exact controlSound_writeCmdHi hs hrst v
  | status =>
    have hdone : (s.ackStatus v).done = true → s.done = true := fun h => (Bool.and_eq_true_iff.mp h).1
    exact controlSound_of_kept hs hrst rfl hdone rfl rfl rfl rfl
  | cmdLo | ctrl | sreg | memory => exact controlSound_of_kept hs hrst rfl id rfl rfl rfl rfl
  | _ => exact hs

theorem controlSound_hostWrite {s : State} (hs : s.ControlSound) (c : Params) (addr size : Nat) (v : BusWord) :
    (hostWrite c s addr size v).ControlSound := by
  rcases hostWrite_cases c s addr size v with h | ⟨hrst, h⟩ | ⟨off, hrst, -, -, -, h⟩ <;> rw [h]
  · exact hs
  · exact controlSound_of_kept hs hrst rfl id rfl rfl rfl rfl
  · exact controlSound_writeTarget hs hrst c v _

theorem controlSound_hostRead {s : State} (hs : s.ControlSound) (c : Params) (addr size : Nat) :
    (hostRead c s addr size).ControlSound := by
  rcases hostRead_cases c s addr size with h | ⟨v, b, h, hreset⟩ <;> rw [h]
  · exact hs
  · exact { hs with
      held := fun hr => by
        obtain ⟨-, hb⟩ := hreset hr
        subst hb
        exact hs.held hr }

theorem controlSound_rngDeliver {s : State} (hs : s.ControlSound) (v : Word) : (rngDeliver s v).ControlSound := by
  rcases rngDeliver_cases s v with ⟨hreq, h⟩ | ⟨-, h⟩ <;> rw [h]
  · have hpending : s.rng ≠ .idle := by simp [hreq]
    exact { hs with
      request := fun _ => hs.request hpending
      held := fun hr => by
        obtain ⟨-, -, -, -, -, -, -, -, hidle⟩ := hs.held hr
        exact absurd hidle hpending }
  · exact hs

/-- Settles O60: the engine, the host, the RNG port and reset each keep the control registers sound. -/
theorem controlStaysSound : Obligations.ControlStaysSound := by
  intro s t hs h
  rcases step_cases h with ⟨-, hm⟩ | ⟨i, r, -, hx⟩
  · exact controlSound_engineMove hs hm
  · have hs' : ({ s with inputs := r } : State).ControlSound := { hs with }
    rcases takeInput_cases hx with ⟨a, n, -, rfl⟩ | ⟨a, n, v, -, rfl⟩ | ⟨v, -, rfl⟩ | ⟨-, hm⟩ | ⟨-, rfl⟩ |
      ⟨-, rfl⟩ | ⟨-, rfl⟩
    · exact controlSound_hostRead hs' block a n
    · exact controlSound_hostWrite hs' block a n v
    · exact controlSound_rngDeliver hs' v
    · exact controlSound_engineMove hs' hm
    · exact controlSound_rstFall hs'
    · exact controlSound_of_kept hs' rfl rfl id rfl rfl rfl rfl
    · exact controlSound_powerOn _

/-! ### The state after reset -/

theorem pointsInSubgroup_reset : State.reset.PointsInSubgroup := pointsInSubgroup_of_empty rfl

/-- Settles O57: memory has no listed byte, the point registers are Empty and the control registers are 0. -/
theorem resetMeetsInvariants : Obligations.ResetMeetsInvariants :=
  ⟨⟨List.Pairwise.nil, fun _ he => absurd he List.not_mem_nil⟩, pointsInSubgroup_reset, controlSound_reset⟩

/-- Settles O56: the registers are constants of `State.reset`, and the words the host reads evaluate to 0 (R53). -/
theorem resetStateValues : Obligations.ResetStateValues :=
  ⟨readP_of_empty rfl, fun i => by simp [State.readS, State.reset], rfl, rfl, by decide, by decide, by decide,
    by decide, rfl, rfl, rfl⟩

end Sys2Proof.Proofs
end

section
/-! SUPPORT. Steps that take a scheduled input: the engine's move on a latched command, and the host's aligned word
accesses out of reset, by the target they name (R61, R65). -/

namespace Sys2Proof.Proofs

open Sys2Proof.Machine Sys2Proof.Config Sys2Proof.Laws

/-! ### The next step takes the scheduled input -/

theorem step_given (s : State) (i : Input) : step (s.given i) = takeInput i s := rfl

theorem engineMove_of_latched {s : State} {w : CmdWord} {i : Instr} (hr : s.rstN = true) (hl : s.latch = some w)
    (hd : decode w = .ok i) : engineMove s = exec i s := by
  simp only [engineMove, hr, if_true, hl, runWord, hd]

/-- The engine's move on a latched GENSK is its body (R170). -/
theorem step_gensk {s : State} {w : CmdWord} {d : SField} (hr : s.rstN = true) (hl : s.latch = some w)
    (hd : decode w = .ok (.gensk d)) : step (s.given .engine) = .next (genskBody block d s) :=
  engineMove_of_latched hr hl hd

theorem genskBody_of_not_delivered {c : Params} {d : SField} {s : State} (hd : d.toNat < 8)
    (hv : ∀ v, s.rng ≠ .delivered v) : genskBody c d s = s.requestRng := by
  rcases genskBody_cases c d s with ⟨hge, -⟩ | ⟨-, v, -, hr, -, -⟩ | ⟨-, -, h⟩
  · omega
  · exact absurd hr (hv v)
  · exact h

theorem genskBody_of_accepted {c : Params} {d : SField} {s : State} {v : Word} (hd : d.toNat < 8)
    (hr : s.rng = .delivered v) (hv : v.toNat < c.n) :
    genskBody c d s = (s.writeS (regNo d) v).finish 0 := by
  rcases genskBody_cases c d s with ⟨hge, -⟩ | ⟨j, v', hj, hr', -, h⟩ | ⟨-, hrej, -⟩
  · omega
  · obtain rfl : v' = v := by rw [hr] at hr'; exact (RngPort.delivered.inj hr').symm
    rw [h, regNo_of_regIndex hj]
  · exact absurd hv (Nat.not_lt.mpr (hrej v hr))

theorem genskBody_of_rejected {c : Params} {d : SField} {s : State} {v : Word} (hd : d.toNat < 8)
    (hr : s.rng = .delivered v) (hv : c.n ≤ v.toNat) : genskBody c d s = s.requestRng := by
  rcases genskBody_cases c d s with ⟨hge, -⟩ | ⟨j, v', -, hr', hlt, -⟩ | ⟨-, -, h⟩
  · omega
  · obtain rfl : v' = v := by rw [hr] at hr'; exact (RngPort.delivered.inj hr').symm
    omega
  · exact h

theorem requestRng_of_requested {s : State} (h : s.rng = .requested) : s.requestRng = s := by
  rw [State.requestRng, ← h]

/-- A delivery answers the outstanding request and changes nothing else (R45). -/
theorem step_rngDeliver {s : State} {i : Input} {v : Word} (hreq : s.rng = .requested) :
    step ((s.given i).given (.rngDeliver v)) = .next (({ s with rng := .delivered v } : State).given i) := by
  rcases rngDeliver_cases (s.given i) v with ⟨-, h⟩ | ⟨hn, -⟩
  · rw [step_given, takeInput, h]
    rfl
  · exact absurd hreq hn

/-- Settles O12: a GENSK requests until a value is delivered, and then takes it or requests again (R45, R332). -/
theorem genskRedrawsUntilAccepted : Obligations.GenskRedrawsUntilAccepted := by
  intro s w d v hr hl hdec hd
  refine ⟨fun hidle => ?_, fun hreq => ⟨?_, ?_⟩⟩
  · rw [step_gensk hr hl hdec, genskBody_of_not_delivered hd (by simp [hidle])]
    rfl
  · rw [step_gensk hr hl hdec, genskBody_of_not_delivered hd (by simp [hreq]), requestRng_of_requested hreq]
  · refine ⟨_, step_rngDeliver hreq, hl, _, step_gensk hr hl hdec, fun hv => ?_, fun hv => ?_⟩
    · rw [genskBody_of_accepted hd rfl hv]
      exact ⟨rfl, readS_writeS _ _ _, fun j hj => readS_writeS_ne _ v hj⟩
    · rw [genskBody_of_rejected hd rfl hv]
      exact requestRng_of_requested hreq

/-! ### Aligned word accesses out of reset -/

theorem classify_word_legal {busy write : Bool} {off : Nat} {x : Target} (hoff : off < 0x4000)
    (halign : off % 4 = 0) (hx : target off = x) (hres : x ≠ .reserved)
    (hlock : (inDataWindow x && busy) = false) (hro : (write && readOnlyTarget x) = false) :
    classify busy write (BitVec.ofNat 14 off) 4 = .legal := by
  rw [classify_legal_iff, toNat_offset hoff, hx]
  exact ⟨rfl, halign, hres, hlock, hro⟩

/-- A legal read returns the target's value and has no other effect (R61). -/
theorem step_read_word {s : State} {off : Nat} {x : Target} (hr : s.rstN = true) (hoff : off < 0x4000)
    (halign : off % 4 = 0) (hx : target off = x) (hres : x ≠ .reserved)
    (hlock : (inDataWindow x && s.busy) = false) :
    step (s.given (.hostRead (block.blockBase + off) 4)) =
      .next { s with readData := readTarget block s x } := by
  rw [step_given, takeInput, hostRead_window block 4 hoff hr, busRead,
    classify_word_legal hoff halign hx hres hlock rfl, toNat_offset hoff, hx]
  rfl

/-- A legal write has the target's effect (R61). -/
theorem step_write_word {s : State} {off : Nat} {x : Target} (v : BusWord) (hr : s.rstN = true)
    (hoff : off < 0x4000) (halign : off % 4 = 0) (hx : target off = x) (hres : x ≠ .reserved)
    (hlock : (inDataWindow x && s.busy) = false) (hro : readOnlyTarget x = false) :
    step (s.given (.hostWrite (block.blockBase + off) 4 v)) = .next (writeTarget block s v x) := by
  rw [step_given, takeInput, hostWrite_window block 4 v hoff hr, busWrite,
    classify_word_legal hoff halign hx hres hlock (by rw [hro]; rfl), toNat_offset hoff, hx]

/-- A write of a target the host cannot write sets ACCERR and changes nothing else, whether it is locked or not
(R64, R66). -/
theorem step_write_readOnly {s : State} {off : Nat} {x : Target} (v : BusWord) (hr : s.rstN = true)
    (hoff : off < 0x4000) (hx : target off = x) (hro : readOnlyTarget x = true) :
    step (s.given (.hostWrite (block.blockBase + off) 4 v)) = .next { s with accErr := true } := by
  rw [step_given, takeInput, hostWrite_window block 4 v hoff hr]
  rcases busWrite_cases block s (BitVec.ofNat 14 off) 4 v with ⟨hlegal, -⟩ | ⟨-, h⟩
  · obtain ⟨-, -, -, -, hw⟩ := (classify_legal_iff _ _ _ _).mp hlegal
    rw [toNat_offset hoff, hx, hro] at hw
    cases hw
  · rw [h]
    rfl

/-! ### The control page -/

theorem ctrlWord_eq (s : State) : s.ctrlWord = if s.ie then 1 else 0 := by
  unfold State.ctrlWord
  cases s.ie <;> rfl

theorem resultWord_eq (s : State) : s.resultWord = BitVec.ofNat 32 s.result.toNat :=
  (BitVec.ofNat_toNat 32 s.result).symm

/-- Settles O42: each access is a legal read or write of its target, which is outside the data windows (R30, R40). -/
theorem commandAndControlRegisters : Obligations.CommandAndControlRegisters := by
  refine ⟨rfl, rfl, fun s v hr => ⟨?_, ?_, ?_, ?_, ?_, ?_⟩⟩
  · exact step_write_word (x := .cmdLo) v hr (by decide) rfl rfl (by decide) rfl rfl
  · exact step_read_word (x := .cmdLo) hr (by decide) rfl rfl (by decide) rfl
  · exact step_read_word (x := .cmdHi) hr (by decide) rfl rfl (by decide) rfl
  · exact step_write_word (x := .ctrl) v hr (by decide) rfl rfl (by decide) rfl rfl
  · rw [← ctrlWord_eq]
    exact step_read_word (x := .ctrl) hr (by decide) rfl rfl (by decide) rfl
  · rw [← resultWord_eq]
    exact step_read_word (x := .result) hr (by decide) rfl rfl (by decide) rfl

/-- The bits of STATUS, from the least significant one up (R32). -/
theorem getLsbD_statusWord (s : State) (i : Nat) :
    s.statusWord.getLsbD i =
      if i < 6 then [s.busy, s.done, s.err, s.noKey, s.overrun, s.accErr].getD i false
      else if i < 8 then false else s.errcode.getLsbD (i - 8) := by
  by_cases h : i < 6
  · rw [if_pos h]
    interval_cases i <;> simp only [State.statusWord, BitVec.getLsbD_append] <;> simp
  · rw [if_neg h]
    simp only [State.statusWord, BitVec.getLsbD_append]
    grind

/-- The place of every field of STATUS (R32). -/
theorem statusWord_layout (s : State) :
    s.statusWord.getLsbD 0 = s.latch.isSome ∧ s.statusWord.getLsbD 1 = s.done ∧
      s.statusWord.getLsbD 2 = decide (s.errcode ≠ 0) ∧ s.statusWord.getLsbD 3 = s.noKey ∧
      s.statusWord.getLsbD 4 = s.overrun ∧ s.statusWord.getLsbD 5 = s.accErr ∧
      s.statusWord.extractLsb' 6 2 = 0 ∧ s.statusWord.extractLsb' 8 8 = s.errcode ∧
      s.statusWord.extractLsb' 16 16 = 0 := by
  have herr : s.err = decide (s.errcode ≠ 0) := by
    rw [State.err, decide_not]
    rfl
  simp only [getLsbD_statusWord, ← herr]
  refine ⟨rfl, rfl, rfl, rfl, rfl, rfl, ?_, ?_, ?_⟩
  · ext i hi
    rw [BitVec.getElem_extractLsb', getLsbD_statusWord, if_neg (by omega), if_pos (by omega)]
    simp
  · ext i hi
    rw [BitVec.getElem_extractLsb', getLsbD_statusWord, if_neg (by omega), if_neg (by omega), Nat.add_sub_cancel_left,
      BitVec.getLsbD_eq_getElem]
  · ext i hi
    rw [BitVec.getElem_extractLsb', getLsbD_statusWord, if_neg (by omega), if_neg (by omega),
      BitVec.getLsbD_of_ge _ _ (by omega)]
    simp

/-- Write-1-to-clear, bit by bit (R32). -/
theorem ackStatus_eq (s : State) (v : BusWord) :
    s.ackStatus v = { s with done := if v.getLsbD 1 then false else s.done,
                             overrun := if v.getLsbD 4 then false else s.overrun,
                             accErr := if v.getLsbD 5 then false else s.accErr } := by
  have clear : ∀ old bit : Bool, (old && !bit) = if bit then false else old := by decide
  rw [State.ackStatus, clear, clear, clear]

/-- Settles O43: STATUS is outside the data windows, so its reads and writes are always legal (R32). -/
theorem statusLayoutAndAcknowledge : Obligations.StatusLayoutAndAcknowledge := by
  refine ⟨by decide, fun s v hr => ⟨⟨{ s with readData := s.statusWord }, ?_, rfl, statusWord_layout s⟩, ?_⟩⟩
  · exact step_read_word (x := .status) hr (by decide) rfl rfl (by decide) rfl
  · rw [← ackStatus_eq]
    exact step_write_word (x := .status) v hr (by decide) rfl rfl (by decide) rfl rfl

/-! ### Words of 256-bit values -/

theorem getLsbD_lowMask (j : Nat) : (0xFFFFFFFF : Word).getLsbD j = decide (j < 32) := by
  change (BitVec.ofNat 256 (2 ^ 32 - 1)).getLsbD j = decide (j < 32)
  rw [BitVec.getLsbD_ofNat, Nat.testBit_two_pow_sub_one, ← Bool.decide_and]
  exact decide_eq_decide.mpr (by omega)

/-- Replacing 32-bit word `k` of a 256-bit value, bit by bit (R48). -/
theorem getLsbD_setWordAt (v : Word) (k : Fin 8) (w : BusWord) {m : Nat} (hm : m < 256) :
    (setWordAt v k w).getLsbD m = if m / 32 = k.val then w.getLsbD (m % 32) else v.getLsbD m := by
  simp only [setWordAt, BitVec.getLsbD_or, BitVec.getLsbD_and, BitVec.getLsbD_not, BitVec.getLsbD_shiftLeft,
    getLsbD_lowMask, BitVec.getLsbD_setWidth, hm, decide_true, Bool.true_and]
  by_cases hlow : m < 32 * k.val
  · rw [if_neg (by omega)]
    simp [hlow]
  · by_cases hhigh : m - 32 * k.val < 32
    · rw [if_pos (by omega), show m % 32 = m - 32 * k.val by omega]
      simp [hlow, hhigh]
      omega
    · rw [if_neg (by omega)]
      simp [hhigh, BitVec.getLsbD_of_ge w _ (Nat.not_lt.mp hhigh)]

/-- Word `k` of a constant's 256-bit value (R44). -/
theorem wordAt_ofNat (v : Nat) (k : Fin 8) :
    wordAt (BitVec.ofNat 256 v) k = BitVec.ofNat 32 (v / 2 ^ (32 * k.val)) := by
  ext i hi
  rw [wordAt, BitVec.getElem_extractLsb', BitVec.getLsbD_ofNat, ← BitVec.getLsbD_eq_getElem, BitVec.getLsbD_ofNat,
    Nat.testBit_div_two_pow, decide_eq_true hi, decide_eq_true (by omega), add_comm i]

/-! ### INFO and the parameter windows -/

/-- A word of a constant outside the data windows: it reads at any time, and a write only sets ACCERR (R44, R64). -/
theorem constant_word {s : State} {off value : Nat} {k : Fin 8} {x : Target} (v : BusWord) (hr : s.rstN = true)
    (hoff : off < 0x4000) (halign : off % 4 = 0) (hx : target off = x) (hwindow : inDataWindow x = false)
    (hro : readOnlyTarget x = true) (hvalue : readTarget block s x = wordAt (BitVec.ofNat 256 value) k) :
    step (s.given (.hostRead (block.blockBase + off) 4)) =
        .next { s with readData := BitVec.ofNat 32 (value / 2 ^ (32 * k.val)) } ∧
      step (s.given (.hostWrite (block.blockBase + off) 4 v)) = .next { s with accErr := true } := by
  have hres : x ≠ .reserved := by
    rintro rfl
    cases hro
  refine ⟨?_, step_write_readOnly v hr hoff hx hro⟩
  rw [← wordAt_ofNat, ← hvalue]
  exact step_read_word hr hoff halign hx hres (by rw [hwindow]; rfl)

theorem target_tagCommit {k : Fin 8} : target (0x040 + 4 * k.val) = .tagCommit k := by
  revert k
  decide

theorem target_tagEnc {k : Fin 8} : target (0x060 + 4 * k.val) = .tagEnc k := by
  revert k
  decide

theorem target_genX {k : Fin 8} : target (0x080 + 4 * k.val) = .genX k := by
  revert k
  decide

theorem target_genY {k : Fin 8} : target (0x0A0 + 4 * k.val) = .genY k := by
  revert k
  decide

/-- The two halves of INFO (R42). -/
theorem infoWord_halves {c : Params} (hc : c.scheme.Valid) :
    ((infoWord c).extractLsb' 0 16).toNat + 1 = modulusBits c ∧
      ((infoWord c).extractLsb' 16 16).toNat = modulusBits c := by
  obtain ⟨-, hcap, -, hbits⟩ := capacity_bounds hc
  have hlow : (infoWord c).extractLsb' 0 16 = BitVec.ofNat 16 (capacity c) := BitVec.extractLsb'_append_eq_right
  have hhigh : (infoWord c).extractLsb' 16 16 = BitVec.ofNat 16 (modulusBits c) := BitVec.extractLsb'_append_eq_left
  rw [hlow, hhigh, BitVec.toNat_ofNat, BitVec.toNat_ofNat, Nat.mod_eq_of_lt (by omega), Nat.mod_eq_of_lt (by omega)]
  exact ⟨hbits.symm, rfl⟩

/-- Settles O44: INFO and the four windows are legal reads and read-only targets at any time (R42, R44). -/
theorem constantsAreReadable : Obligations.ConstantsAreReadable := by
  intro s k v hr
  refine ⟨⟨{ s with readData := infoWord block }, ?_, rfl, infoWord_halves block_valid⟩, ?_, ?_⟩
  · exact step_read_word (x := .info) hr (by decide) rfl rfl (by decide) rfl
  · exact step_write_readOnly (x := .info) v hr (by decide) rfl rfl
  · simp only [List.forall_mem_cons]
    refine ⟨?_, ?_, ?_, ?_, fun _ h => absurd h List.not_mem_nil⟩
    · exact constant_word v hr (by omega) (by omega) target_tagCommit rfl rfl rfl
    · exact constant_word v hr (by omega) (by omega) target_tagEnc rfl rfl rfl
    · exact constant_word v hr (by omega) (by omega) target_genX rfl rfl rfl
    · exact constant_word v hr (by omega) (by omega) target_genY rfl rfl rfl

/-! ### The register windows -/

/-- Bit `i` of PVALID says whether P[i] holds a point (R43). -/
theorem getLsbD_pvalidWord (s : State) (i : Nat) :
    s.pvalidWord.getLsbD i = if h : i < 8 then s.preg[i].isSome else false := by
  split
  · interval_cases i <;> simp only [State.pvalidWord, BitVec.getLsbD_append] <;> simp
  · simp only [State.pvalidWord, BitVec.getLsbD_append]
    grind

theorem pvalidWord_layout (s : State) (i : Fin 8) :
    s.pvalidWord.getLsbD i.val = (s.readP i).isSome ∧ s.pvalidWord.extractLsb' 8 24 = 0 := by
  constructor
  · rw [getLsbD_pvalidWord, dif_pos i.isLt]
    rfl
  · ext j hj
    rw [BitVec.getElem_extractLsb', getLsbD_pvalidWord, dif_neg (by omega)]
    simp

/-- Settles O45: the PREG window is read-only and locked only while a command is latched, and PVALID is read-only
and never locked (R43, R49). -/
theorem pregWindowAndPvalid : Obligations.PregWindowAndPvalid := by
  refine ⟨by decide, fun s i k v hr => ⟨fun hb => ⟨?_, ?_⟩, ?_, ?_, ?_, ?_⟩⟩
  · exact step_read_word hr (by omega) (by omega) target_pregX nofun (by rw [hb]; rfl)
  · exact step_read_word hr (by omega) (by omega) target_pregY nofun (by rw [hb]; rfl)
  · exact step_write_readOnly v hr (by omega) target_pregX rfl
  · exact step_write_readOnly v hr (by omega) target_pregY rfl
  · exact ⟨{ s with readData := s.pvalidWord },
      step_read_word (x := .pvalid) hr (by decide) rfl rfl (by decide) rfl, rfl, pvalidWord_layout s i⟩
  · exact step_write_readOnly (x := .pvalid) v hr (by decide) rfl rfl

/-- Settles O46: the window is locked only while a command is latched, and a write replaces one word of S[i] (R48). -/
theorem sregWindow : Obligations.SregWindow := by
  intro s i k v hr hb
  refine ⟨?_, s.writeS i (setWordAt (s.readS i) k v), ?_, rfl, fun j hj => readS_writeS_ne s _ hj, fun m hm => ?_⟩
  · exact step_read_word hr (by omega) (by omega) target_sreg nofun (by rw [hb]; rfl)
  · exact step_write_word v hr (by omega) (by omega) target_sreg nofun (by rw [hb]; rfl) rfl
  · rw [readS_writeS, getLsbD_setWordAt _ _ _ hm]

/-! ### The memory windows -/

/-- Bit `j` of a little-endian number is bit `j % 8` of its byte `j / 8` (R67). -/
theorem readLE_testBit (bg : Nat → Byte) (m : Memory) {a n j : Nat} (hj : j < 8 * n) :
    (Memory.readLE bg m a n).testBit j = (Memory.read bg m (a + j / 8)).getLsbD (j % 8) := by
  have hbyte := readLE_byte bg m n a (j / 8) (by omega)
  rw [BitVec.getLsbD, ← hbyte, show (256 : Nat) = 2 ^ 8 by rfl, Nat.testBit_mod_two_pow, ← Nat.pow_mul,
    Nat.testBit_div_two_pow, Nat.mod_add_div]
  simp [Nat.mod_lt]

theorem getLsbD_readE (c : Params) (s : State) (i : Nat) {j : Nat} (hj : j < 256) :
    (s.readE c i).getLsbD j = (s.readByte c (eAddr i + j / 8)).getLsbD (j % 8) := by
  rw [State.readE, BitVec.getLsbD_ofNat, readLE_testBit _ _ hj, decide_eq_true hj]
  rfl

theorem getLsbD_readBus (c : Params) (s : State) (a : Nat) {j : Nat} (hj : j < 32) :
    (s.readBus c a).getLsbD j = (s.readByte c (a + j / 8)).getLsbD (j % 8) := by
  rw [State.readBus, BitVec.getLsbD_ofNat, readLE_testBit _ _ hj, decide_eq_true hj]
  rfl

/-- The bytes of memory after a bus write: the whole effect of `writeBus` (R50, R51). -/
theorem readByte_writeBus (c : Params) (s : State) (a : Nat) (v : BusWord) (b : Nat) :
    (s.writeBus c a v).readByte c b =
      if a ≤ b ∧ b < a + 4 then v.extractLsb' (8 * (b - a)) 8 else s.readByte c b := by
  have hbyte : v.extractLsb' (8 * (b - a)) 8 = BitVec.ofNat 8 (v.toNat / 256 ^ (b - a)) := by
    rw [BitVec.extractLsb', Nat.shiftRight_eq_div_pow, Nat.pow_mul]
  rw [hbyte]
  exact read_writeLE _ 4 s.mem a v.toNat b

/-- A bus word is four bytes, the first least significant (R50). -/
theorem readBus_eq_append (c : Params) (s : State) (a : Nat) :
    s.readBus c a = s.readByte c (a + 3) ++ s.readByte c (a + 2) ++ s.readByte c (a + 1) ++ s.readByte c a := by
  ext j hj
  rw [← BitVec.getLsbD_eq_getElem, ← BitVec.getLsbD_eq_getElem, getLsbD_readBus c s a hj]
  simp only [BitVec.getLsbD_append]
  split_ifs <;> congr 2 <;> omega

/-- The bus word at word `k` of E[i] is bits 32k+31:32k of E[i] (R51). -/
theorem readBus_word (c : Params) (s : State) (i : Nat) (k : Fin 8) :
    s.readBus c (eAddr i + 4 * k.val) = (s.readE c i).extractLsb' (32 * k.val) 32 := by
  ext j hj
  rw [← BitVec.getLsbD_eq_getElem, getLsbD_readBus c s _ hj, BitVec.getElem_extractLsb',
    getLsbD_readE c s i (by omega), show (32 * k.val + j) % 8 = j % 8 by omega,
    show eAddr i + (32 * k.val + j) / 8 = eAddr i + 4 * k.val + j / 8 by omega]

/-- A bus write at word `k` of E[i] replaces bits 32k+31:32k of E[i] (R51). -/
theorem getLsbD_readE_writeBus (c : Params) (s : State) (i : Nat) (k : Fin 8) (v : BusWord) {m : Nat} (hm : m < 256) :
    ((s.writeBus c (eAddr i + 4 * k.val) v).readE c i).getLsbD m =
      if m / 32 = k.val then v.getLsbD (m % 32) else (s.readE c i).getLsbD m := by
  rw [getLsbD_readE c _ i hm, getLsbD_readE c s i hm, readByte_writeBus]
  by_cases h : m / 32 = k.val
  · rw [if_pos (by omega), if_pos h, BitVec.getLsbD_extractLsb', decide_eq_true (by omega), Bool.true_and]
    congr 1
    omega
  · rw [if_neg (by omega), if_neg h]
/-- The memory windows while no command is latched: a word reads as the bus word at its offset (R50, R51). -/
theorem step_read_memory {s : State} {off : Nat} (hr : s.rstN = true) (hb : s.busy = false) (hlow : 0x1000 ≤ off)
    (hoff : off < 0x4000) (halign : off % 4 = 0) :
    step (s.given (.hostRead (block.blockBase + off) 4)) = .next { s with readData := s.readBus block off } :=
  step_read_word hr hoff halign (target_memory hlow) nofun (by rw [hb]; simp)

theorem step_write_memory {s : State} {off : Nat} (v : BusWord) (hr : s.rstN = true) (hb : s.busy = false)
    (hlow : 0x1000 ≤ off) (hoff : off < 0x4000) (halign : off % 4 = 0) :
    step (s.given (.hostWrite (block.blockBase + off) 4 v)) = .next (s.writeBus block off v) :=
  step_write_word v hr hoff halign (target_memory hlow) nofun (by rw [hb]; simp) rfl

theorem otherBytesKept_writeBus (s : State) (a : Nat) (v : BusWord) :
    OtherBytesKept s (s.writeBus block a v) a (a + 4) := by
  intro b hout
  rw [readByte_writeBus, if_neg hout]

/-- Byte `j` of a bus word at an offset of the BMEM window after the word is written (R50). -/
theorem readB_writeBus (c : Params) (s : State) (i : Nat) (v : BusWord) {j : Nat} (hj : j < 4) :
    (s.writeBus c (bAddr i) v).readB c (i + j) = v.extractLsb' (8 * j) 8 := by
  have haddr : bAddr (i + j) = bAddr i + j := (Nat.add_assoc _ _ _).symm
  rw [State.readB, haddr, readByte_writeBus, if_pos (by omega), Nat.add_sub_cancel_left]

/-- Settles O47: an access of the BMEM window is legal and moves four bytes (R50). -/
theorem bmemWindow : Obligations.BmemWindow := by
  intro s k v hk hr hb
  refine ⟨?_, s.writeBus block (bAddr (4 * k)) v, ?_, rfl, ?_, ?_, ?_, ?_, otherBytesKept_writeBus s _ v⟩
  · rw [step_read_memory hr hb (by omega) (by omega) (by omega), readBus_eq_append]
    rfl
  · exact step_write_memory v hr hb (by omega) (by omega) (by omega)
  · exact readB_writeBus block s (4 * k) v (j := 0) (by decide)
  · exact readB_writeBus block s (4 * k) v (j := 1) (by decide)
  · exact readB_writeBus block s (4 * k) v (j := 2) (by decide)
  · exact readB_writeBus block s (4 * k) v (j := 3) (by decide)

/-- Settles O48: an access of the EMEM window is legal and reads or replaces one word of E[i] (R51). -/
theorem ememWindow : Obligations.EmemWindow := by
  intro s i k v hi hr hb
  refine ⟨?_, s.writeBus block (eAddr i + 4 * k.val) v, ?_, rfl,
    fun m hm => getLsbD_readE_writeBus block s i k v hm, otherBytesKept_writeBus s _ v⟩
  · rw [← readBus_word]
    exact step_read_memory hr hb (by omega) (by omega) (by omega)
  · exact step_write_memory v hr hb (by omega) (by omega) (by omega)

end Sys2Proof.Proofs
end

section
/-! SUPPORT. Accesses that are not legal, the busy lockout, and what the host can change while a command is latched
(R62-R66, R75, R78). -/

namespace Sys2Proof.Proofs

open Sys2Proof.Machine Sys2Proof.Config Sys2Proof.Laws

/-! ### Accesses that are not legal -/

/-- The outcome of every access that is not legal: a read returns 0, a write changes nothing, either sets ACCERR
(R61, R65). -/
theorem step_illegal {s : State} {off size : Nat} (v : BusWord) (hr : s.rstN = true) (hoff : off < 0x4000)
    (hc : ∀ write, classify s.busy write (BitVec.ofNat 14 off) size ≠ .legal) :
    step (s.given (.hostRead (block.blockBase + off) size)) = .next { s with readData := 0, accErr := true } ∧
      step (s.given (.hostWrite (block.blockBase + off) size v)) = .next { s with accErr := true } := by
  constructor
  · rw [step_given, takeInput, hostRead_window block size hoff hr]
    rcases busRead_cases block s (BitVec.ofNat 14 off) size with ⟨hlegal, -⟩ | ⟨-, h⟩
    · exact absurd hlegal (hc false)
    · rw [h]
      rfl
  · rw [step_given, takeInput, hostWrite_window block size v hoff hr]
    rcases busWrite_cases block s (BitVec.ofNat 14 off) size v with ⟨hlegal, -⟩ | ⟨-, h⟩
    · exact absurd hlegal (hc true)
    · rw [h]
      rfl

/-- Settles O49: a legal access is of 4 bytes, aligned and not reserved (R52, R62, R63). -/
theorem badAccessesSetAccErr : Obligations.BadAccessesSetAccErr := by
  intro s off size v hr hoff hbad
  refine step_illegal v hr hoff fun write hlegal => ?_
  obtain ⟨hsize, halign, hres, -, -⟩ := (classify_legal_iff _ _ _ _).mp hlegal
  rw [toNat_offset hoff] at halign hres
  rw [Ne, target_reserved_iff halign] at hres
  omega

/-! ### Read-only targets -/

/-- The parameter windows are read-only (R29, R64). -/
theorem readOnlyTarget_params {off : Nat} (hlow : 0x040 ≤ off) (hhigh : off < 0x0C0) :
    readOnlyTarget (target off) = true := by
  unfold target
  repeat rw [if_neg (show ¬off = _ by omega)]
  rw [if_neg (Nat.not_lt.mpr hlow), if_pos hhigh]
  split_ifs <;> rfl

/-- The PREG window is read-only (R29, R64). -/
theorem readOnlyTarget_preg {off : Nat} (hlow : 0x200 ≤ off) (hhigh : off < 0x400) :
    readOnlyTarget (target off) = true := by
  rw [target_of_ge (by omega), if_neg (Nat.not_lt.mpr hlow), if_pos hhigh]
  split <;> rfl

/-- Settles O50: each of these offsets names a target the host cannot write (R64). -/
theorem readOnlyTargetsKeepTheirValue : Obligations.ReadOnlyTargetsKeepTheirValue := by
  intro s off v hr hoff
  have hro : readOnlyTarget (target off) = true := by
    rcases hoff with rfl | rfl | rfl | ⟨hlow, hhigh⟩ | ⟨hlow, hhigh⟩
    · rfl
    · rfl
    · rfl
    · exact readOnlyTarget_params hlow hhigh
    · exact readOnlyTarget_preg hlow hhigh
  exact step_write_readOnly v hr (by omega) rfl hro

/-! ### The busy lockout -/

/-- Outside the data windows the class of an access does not depend on BUSY (R66). -/
theorem classify_of_not_inDataWindow {off : BitVec 14} (h : inDataWindow (target off.toNat) = false)
    (busy write : Bool) (size : Nat) : classify busy write off size = classify false write off size := by
  simp only [classify, h, Bool.false_and]

/-- Settles O51: from 0x100 on an offset is reserved or in a data window, below it is in none (R66). -/
theorem busyLocksDataWindows : Obligations.BusyLocksDataWindows := by
  intro s off size v hr hb
  refine ⟨fun hlow hoff => step_illegal v hr hoff fun write hlegal => ?_, fun hpage write => ?_⟩
  · obtain ⟨-, -, hres, hlock, -⟩ := (classify_legal_iff _ _ _ _).mp hlegal
    rw [toNat_offset hoff] at hres hlock
    rw [inDataWindow_of_ge hlow hres, hb] at hlock
    cases hlock
  · refine classify_of_not_inDataWindow ?_ true write size
    rw [toNat_offset (by omega)]
    exact inDataWindow_of_lt hpage

/-! ### The host while a command is latched -/

/-- `t` is `s` but for what the host may change while a command is latched: CMD_LO, CMD_HI, DONE, OVERRUN, ACCERR and
CTRL.IE (R66, R75, R78). -/
def ChangesHostRegistersOnly (s t : State) : Prop :=
  t = { s with cmdLo := t.cmdLo, cmdHi := t.cmdHi, done := t.done, overrun := t.overrun, accErr := t.accErr,
               ie := t.ie }

/-- While a command is latched a write of CMD_HI issues nothing: it sets OVERRUN (R78, R260). -/
theorem changesHostRegistersOnly_writeCmdHi {s : State} (hb : s.busy = true) (v : BusWord) :
    ChangesHostRegistersOnly s (s.writeCmdHi v) := by
  rw [writeCmdHi_eq, if_pos hb]
  rfl

theorem changesHostRegistersOnly_writeTarget {s : State} {x : Target} (hb : s.busy = true) (c : Params)
    (v : BusWord) (hx : inDataWindow x = false) : ChangesHostRegistersOnly s (writeTarget c s v x) := by
  cases x with
  | cmdHi => exact changesHostRegistersOnly_writeCmdHi hb v
  | sreg | pregX | pregY | memory => cases hx
  | _ => rfl

/-- A legal write while a command is latched is to no data window, so it changes host registers only (R66). -/
theorem changesHostRegistersOnly_hostWrite {s : State} (hb : s.busy = true) (c : Params) (addr size : Nat)
    (v : BusWord) : ChangesHostRegistersOnly s (hostWrite c s addr size v) := by
  rcases hostWrite_cases c s addr size v with h | ⟨-, h⟩ | ⟨off, -, -, -, hlegal, h⟩ <;> rw [h]
  · rfl
  · rfl
  · obtain ⟨-, -, -, hlock, -⟩ := (classify_legal_iff _ _ _ _).mp hlegal
    rw [hb, Bool.and_true] at hlock
    exact changesHostRegistersOnly_writeTarget hb c v hlock

/-- Settles O52: no read has another effect than the read data and ACCERR, and the lockout confines the writes
(R66, R75, R78, R290). -/
theorem hostCannotDisturbCommand : Obligations.HostCannotDisturbCommand := by
  intro s t addr size v hb
  refine ⟨fun h => ?_, fun h => ?_⟩ <;> rw [step_given, takeInput] at h <;> injection h with ht <;> subst ht
  · rcases hostRead_cases block s addr size with h | ⟨w, b, h, -⟩ <;> rw [h]
  · exact changesHostRegistersOnly_hostWrite hb block addr size v

end Sys2Proof.Proofs
end

section
/-! SUPPORT. The decoder accepts exactly the words the assembler writes, and the rows of the match/mask table are the
decoder's conditions on the fields (R90, R93, R95, R98, R101). -/

namespace Sys2Proof.Proofs

open Sys2Proof.Laws

/-! ### The fields of a command -/

/-- R93 and R95 hold of every command's encoding, whichever its opcode. -/
theorem unusedFieldsZero (i : Instr) : UnusedFieldsZero.Statement i := by
  cases i with
  | nop => exact UnusedFieldsZero.nop
  | penc d s1 => exact UnusedFieldsZero.penc d s1
  | pdec d s1 => exact UnusedFieldsZero.pdec d s1
  | gensk d => exact UnusedFieldsZero.gensk d
  | pubkey d s1 => exact UnusedFieldsZero.pubkey d s1
  | init d d2 s1 s2 => exact UnusedFieldsZero.init d d2 s1 s2
  | compl d s1 s2 => exact UnusedFieldsZero.compl d s1 s2
  | commit d s1 => exact UnusedFieldsZero.commit d s1
  | enc d s1 s2 n => exact UnusedFieldsZero.enc d s1 s2 n
  | dec d s1 s2 n => exact UnusedFieldsZero.dec d s1 s2 n
  | pack d n => exact UnusedFieldsZero.pack d n
  | unpack s1 n => exact UnusedFieldsZero.unpack s1 n

@[simp] theorem fieldsOf_encode (i : Instr) : fieldsOf (encode i) = i.fields := fieldsOf_wordOf _

theorem fields_op (i : Instr) : i.fields.op = i.opcode := by
  obtain ⟨hop, -, -⟩ := unusedFieldsZero i
  rwa [fieldsOf_encode] at hop

theorem opcode_lt (i : Instr) : i.opcode.toNat < 0x0C := by
  cases i <;> simp [Instr.opcode]

theorem instrOf_fields (i : Instr) : instrOf i.fields = i := by cases i <;> rfl

/-- No field the opcode leaves unused is set (R95). -/
theorem strayBits_eq_false_iff (f : Fields) :
    f.strayBits = false ↔
      ((fieldUse f.op.toNat).d = false → f.d = 0) ∧ ((fieldUse f.op.toNat).s1 = false → f.s1 = 0) ∧
      ((fieldUse f.op.toNat).s2 = false → f.s2 = 0) ∧ ((fieldUse f.op.toNat).d2 = false → f.d2 = 0) ∧
      ((fieldUse f.op.toNat).n = false → f.n = 0) := by
  simp [Fields.strayBits, and_assoc]

/-- What the three refusals of R95 leave through: an opcode of the table, RSV 0, and 0 in every unused field. -/
def LegalFields (f : Fields) : Prop := f.op.toNat < 0x0C ∧ f.rsv = 0 ∧ f.strayBits = false

theorem legalFields_fields (i : Instr) : LegalFields i.fields := by
  obtain ⟨-, hrsv, hstray⟩ := unusedFieldsZero i
  rw [fieldsOf_encode] at hrsv hstray
  exact ⟨fields_op i ▸ opcode_lt i, hrsv, hstray⟩

/-- The command keeps every field its opcode uses, so nothing of legal fields is lost (R93, R98). -/
theorem fields_instrOf {f : Fields} (h : LegalFields f) : (instrOf f).fields = f := by
  obtain ⟨hop, hrsv, hstray⟩ := h
  obtain ⟨op, d, s1, s2, d2, n, rsv⟩ := f
  obtain ⟨k, rfl⟩ : ∃ k : Fin 12, op = BitVec.ofNat 8 k.val := ⟨⟨op.toNat, hop⟩, by simp⟩
  rw [strayBits_eq_false_iff] at hstray
  fin_cases k <;> simp_all [fieldUse, instrOf, Instr.fields]

/-! ### Decoding -/

theorem decode_eq_ok_iff_legalFields {w : CmdWord} {i : Instr} :
    decode w = .ok i ↔ LegalFields (fieldsOf w) ∧ instrOf (fieldsOf w) = i := by
  simp only [decode, LegalFields]
  split_ifs with hop hrsv hstray
  · exact iff_of_false (by simp) fun ⟨⟨hlt, _, _⟩, _⟩ => Nat.not_le.mpr hlt hop
  · exact iff_of_false (by simp) fun ⟨⟨_, hzero, _⟩, _⟩ => hrsv hzero
  · exact iff_of_false (by simp) fun ⟨⟨_, _, hclear⟩, _⟩ => by simp [hclear] at hstray
  · simp [Nat.not_le.mp hop, not_not.mp hrsv, hstray]

/-- The words that decode are exactly the words the assembler writes (R95, R98). -/
theorem decode_eq_ok_iff {w : CmdWord} {i : Instr} : decode w = .ok i ↔ encode i = w := by
  rw [decode_eq_ok_iff_legalFields]
  constructor
  · rintro ⟨hlegal, rfl⟩
    rw [encode, fields_instrOf hlegal, wordOf_fieldsOf]
  · rintro rfl
    rw [fieldsOf_encode]
    exact ⟨legalFields_fields i, instrOf_fields i⟩

/-- A word decodes to some command of opcode `k` exactly when its fields are legal and OP is `k`. -/
theorem exists_decode_opcode_iff {w : CmdWord} {k : Nat} :
    (∃ i, decode w = .ok i ∧ i.opcode.toNat = k) ↔ LegalFields (fieldsOf w) ∧ (fieldsOf w).op.toNat = k := by
  simp only [decode_eq_ok_iff_legalFields]
  constructor
  · rintro ⟨i, ⟨hlegal, rfl⟩, hk⟩
    rw [← fields_op, fields_instrOf hlegal] at hk
    exact ⟨hlegal, hk⟩
  · rintro ⟨hlegal, hk⟩
    refine ⟨_, ⟨hlegal, rfl⟩, ?_⟩
    rwa [← fields_op, fields_instrOf hlegal]

/-- Settles O1: a command's word decodes, and to that command only (R95, R98). -/
theorem encodeThenDecode : Obligations.EncodeThenDecode := fun _ => decode_eq_ok_iff.mpr rfl

/-- Settles O2: legal fields are those the assembler sets for their command (R95, R98). -/
theorem decodeThenEncode : Obligations.DecodeThenEncode := fun _ _ => decode_eq_ok_iff.mp

/-! ### The match/mask table -/

theorem fieldsOf_and (v w : CmdWord) :
    fieldsOf (v &&& w) =
      ⟨(fieldsOf v).op &&& (fieldsOf w).op, (fieldsOf v).d &&& (fieldsOf w).d, (fieldsOf v).s1 &&& (fieldsOf w).s1,
        (fieldsOf v).s2 &&& (fieldsOf w).s2, (fieldsOf v).d2 &&& (fieldsOf w).d2, (fieldsOf v).n &&& (fieldsOf w).n,
        (fieldsOf v).rsv &&& (fieldsOf w).rsv⟩ := by
  simp [fieldsOf, BitVec.extractLsb'_and]

/-- The mask on an operand field: none of its bits when the opcode uses it, all of them when it must be 0. -/
def fieldMask (used : Bool) (n : Nat) : BitVec n := if used then 0 else BitVec.allOnes n

theorem and_fieldMask_eq_zero {n : Nat} {used : Bool} {x : BitVec n} :
    x &&& fieldMask used n = 0 ↔ (used = false → x = 0) := by
  cases used <;> simp [fieldMask]

/-- The row of R95 for an opcode, from the fields R93 says the opcode uses. -/
def rowOf (op : BitVec 8) : OpcodeRow :=
  let u := fieldUse op.toNat
  ⟨wordOf ⟨op, 0, 0, 0, 0, 0, 0⟩,
    wordOf ⟨BitVec.allOnes 8, fieldMask u.d 8, fieldMask u.s1 8, fieldMask u.s2 8, fieldMask u.d2 8, fieldMask u.n 13,
      BitVec.allOnes 11⟩⟩

/-- The masks of R95 are the operand use of R93, row by row. -/
theorem opcodeRows_eq_map_rowOf : opcodeRows = (List.range 0x0C).map fun k => rowOf (BitVec.ofNat 8 k) := by
  decide

/-- The mask keeps what the opcode fixes: OP, RSV and the fields it does not use. -/
theorem spells_rowOf_iff (op : BitVec 8) (w : CmdWord) :
    (rowOf op).spells w = true ↔
      (fieldsOf w).op = op ∧ (fieldsOf w).rsv = 0 ∧ (fieldsOf w).strayBits = false := by
  rw [OpcodeRow.spells, beq_iff_eq, ← wordOf_fieldsOf (w &&& _), rowOf, wordOf_inj, fieldsOf_and, fieldsOf_wordOf,
    strayBits_eq_false_iff]
  simp only [Fields.mk.injEq, BitVec.and_allOnes, and_fieldMask_eq_zero]
  constructor
  · rintro ⟨rfl, hd, hs1, hs2, hd2, hn, hrsv⟩
    exact ⟨rfl, hrsv, hd, hs1, hs2, hd2, hn⟩
  · rintro ⟨rfl, hrsv, hd, hs1, hs2, hd2, hn⟩
    exact ⟨rfl, hd, hs1, hs2, hd2, hn, hrsv⟩

/-- Settles O3: each row's mask and match state that the fields are legal and OP is the row's opcode (R95). -/
theorem decodeFollowsMaskTable : Obligations.DecodeFollowsMaskTable := by
  refine ⟨fun w k r hr => ?_, fun w i _ => opcode_lt i⟩
  rw [opcodeRows_eq_map_rowOf, List.getElem?_map, Option.map_eq_some_iff] at hr
  obtain ⟨j, hj, rfl⟩ := hr
  obtain ⟨hk, rfl⟩ : k < 0x0C ∧ k = j := by simpa [List.getElem?_eq_some_iff] using hj
  have hop : (fieldsOf w).op = BitVec.ofNat 8 k ↔ (fieldsOf w).op.toNat = k := by
    rw [← BitVec.toNat_inj, BitVec.toNat_ofNat, Nat.mod_eq_of_lt (by omega)]
  rw [exists_decode_opcode_iff, spells_rowOf_iff, hop]
  constructor
  · rintro ⟨hopk, hrsv, hstray⟩
    exact ⟨⟨hopk ▸ hk, hrsv, hstray⟩, hopk⟩
  · rintro ⟨⟨-, hrsv, hstray⟩, hopk⟩
    exact ⟨hopk, hrsv, hstray⟩

/-! ### The examples of the spec -/

/-- Settles O4: a command's example is its encoding, and the last two words are refused (R101). -/
theorem specWordsDecode : Obligations.SpecWordsDecode :=
  ⟨decode_eq_ok_iff.mpr (by decide), by decide, decode_eq_ok_iff.mpr (by decide), by decide,
    decode_eq_ok_iff.mpr (by decide), by decide, decode_eq_ok_iff.mpr (by decide),
    decode_eq_ok_iff.mpr (by decide), by decide, by decide⟩

end Sys2Proof.Proofs
end

section
/-! SUPPORT. The curve of a valid scheme as the spec describes it: the addition law is complete, scalar multiplication
stays in G, and an x-coordinate determines a point of G (R125, R128, R133, R134). -/

namespace Sys2Proof.Proofs

open Sys2Proof.Machine Sys2Proof.Config Sys2Proof.Laws

/-! ### The addition law is complete -/

theorem mod_ne_zero_of_cast_ne_zero {p n : Nat} (h : (n : ZMod p) ≠ 0) : n % p ≠ 0 := fun hmod =>
  h ((ZMod.natCast_eq_zero_iff n p).mpr (Nat.dvd_of_mod_eq_zero hmod))

/-- Settles O35: the square of `t` is never 1 in F_p, because a is a square and d is not. -/
theorem additionIsComplete : Obligations.AdditionIsComplete := by
  intro c hc P Q hPx hPy hQx hQy hP hQ t
  have hp := hc.p_prime
  have : Fact c.curve.p.Prime := ⟨hp⟩
  have hcast : (t : ZMod c.curve.p) = Edwards.tOf (c.curve.d : ZMod c.curve.p) P.x P.y Q.x Q.y := by
    simp [t, Edwards.tOf]
  have hsq : (t : ZMod c.curve.p) * t ≠ 1 := hcast ▸ Valid.tOf_sq_ne_one hc hP hQ
  have ht : t ≤ c.curve.p := (Nat.mod_lt _ hp.pos).le
  refine ⟨mod_ne_zero_of_cast_ne_zero ?_, mod_ne_zero_of_cast_ne_zero ?_,
    (addPt_onC hc ⟨⟨hPx, hPy⟩, hP⟩ ⟨⟨hQx, hQy⟩, hQ⟩).2⟩
  · simpa using Edwards.one_add_tOf_ne hsq
  · simpa [Nat.cast_sub ht, ← sub_eq_add_neg] using Edwards.one_sub_tOf_ne hsq

/-! ### G is closed under the operations of the curve -/

theorem subgroupPoint_iff {c : Curve} {P : Aff} : SubgroupPoint c P ↔ OnC c P ∧ inSubgroup c P = true := by
  simp only [SubgroupPoint, OnC, Canon, and_assoc]

theorem onC_of_subgroupPoint {c : Curve} {P : Aff} (hP : SubgroupPoint c P) : OnC c P :=
  (subgroupPoint_iff.mp hP).1

theorem inSubgroup_of_subgroupPoint {c : Curve} {P : Aff} (hP : SubgroupPoint c P) : inSubgroup c P = true :=
  (subgroupPoint_iff.mp hP).2

section
variable {c : Scheme} (hc : c.Valid)
include hc

theorem subgroupPoint_identity : SubgroupPoint c.curve identity :=
  subgroupPoint_iff.mpr ⟨Valid.identity_onC hc, inSubgroup_identity hc⟩

theorem subgroupPoint_smul {P : Aff} (hP : SubgroupPoint c.curve P) (k : Nat) :
    SubgroupPoint c.curve (smul c.curve k P) := by
  obtain ⟨hon, hG⟩ := subgroupPoint_iff.mp hP
  exact subgroupPoint_iff.mpr ⟨smul_onC hc hon k, inSubgroup_smul hc hon hG k⟩

theorem subgroupPoint_negPt {P : Aff} (hP : SubgroupPoint c.curve P) : SubgroupPoint c.curve (negPt c.curve P) := by
  obtain ⟨hon, hG⟩ := subgroupPoint_iff.mp hP
  exact subgroupPoint_iff.mpr ⟨negPt_onC hc hon, inSubgroup_negPt hc hon hG⟩

end

/-- Settles O36: both orders give `[j k]P`, and `[N]P = O` is what the subgroup test says. -/
theorem scalarMultiplicationLaws : Obligations.ScalarMultiplicationLaws := by
  intro c hc P hP j k
  obtain ⟨hon, hG⟩ := subgroupPoint_iff.mp hP
  refine ⟨?_, subgroupPoint_smul hc hP k, smul_identity hc k, rfl, of_decide_eq_true hG⟩
  calc smul c.curve j (smul c.curve k P)
      = smul c.curve (j * k) P := Laws.smul_smul hc hon j k
    _ = smul c.curve (k * j) P := by rw [Nat.mul_comm]
    _ = smul c.curve k (smul c.curve j P) := (Laws.smul_smul hc hon k j).symm

/-! ### An x-coordinate determines a point of G -/

section
variable {c : Scheme} (hc : c.Valid)
include hc

/-- The y-coordinates of two points of the curve with one x agree up to sign (R130). -/
theorem eq_or_eq_fneg_of_onC {x y y' : Nat} (hy : OnC c.curve ⟨x, y⟩) (hy' : OnC c.curve ⟨x, y'⟩) :
    y' = y ∨ y' = fneg c.curve.p y := by
  have hp := hc.p_prime
  have : Fact c.curve.p.Prime := ⟨hp⟩
  obtain ⟨⟨-, hlt⟩, hon⟩ := hy
  obtain ⟨⟨-, hlt'⟩, hon'⟩ := hy'
  have hsq : fmul c.curve.p y' y' = fmul c.curve.p y y :=
    ((onCurve_iff_square hc hlt').2.mp hon').trans ((onCurve_iff_square hc hlt).2.mp hon).symm
  have hcast : (y' : ZMod c.curve.p) * y' = y * y := by
    simpa using congrArg (Nat.cast : Nat → ZMod c.curve.p) hsq
  rcases mul_self_eq_mul_self_iff.mp hcast with h | h
  · exact .inl (eq_of_cast_eq hlt' hlt h)
  · exact .inr (eq_of_cast_eq hlt' (fneg_lt hp.pos y) (by rw [h, cast_fneg hp.pos]))

/-- `P` and `-P + T2` are never both in G, for their sum is T2 (R133). -/
theorem fneg_y_not_inSubgroup {P : Aff} (hP : SubgroupPoint c.curve P) :
    ¬inSubgroup c.curve ⟨P.x, fneg c.curve.p P.y⟩ = true := by
  intro hnegG
  obtain ⟨hon, hG⟩ := subgroupPoint_iff.mp hP
  have hneg := negPt_onC hc hon
  have hT2 := Valid.pointT2_onC hc
  have hsum : addPt c.curve P ⟨P.x, fneg c.curve.p P.y⟩ = pointT2 c.curve := by
    rw [← addPt_negPt_pointT2 hc hon, ← addPt_assoc hc hon hneg hT2, addPt_comm c.curve P,
      addPt_negPt hc hon, identity_addPt hc hT2.1]
  apply pointT2_not_inSubgroup hc
  rw [← hsum]
  refine inSubgroup_addPt hc hon ?_ hG hnegG
  rw [← addPt_negPt_pointT2 hc hon]
  exact addPt_onC hc hneg hT2

/-- The map x is injective on G (R129, R133). -/
theorem subgroupPoint_y_unique {x y y' : Nat} (hy : SubgroupPoint c.curve ⟨x, y⟩)
    (hy' : SubgroupPoint c.curve ⟨x, y'⟩) : y = y' := by
  rcases eq_or_eq_fneg_of_onC hc (onC_of_subgroupPoint hy) (onC_of_subgroupPoint hy') with h | rfl
  · exact h.symm
  · exact absurd (inSubgroup_of_subgroupPoint hy') (fneg_y_not_inSubgroup hc hy)

theorem subgroupPoint_of_mem_candidates {x y : Nat} (hx : x < c.curve.p) (hy : y ∈ candidates c.curve x)
    (hG : inSubgroup c.curve ⟨x, y⟩ = true) : SubgroupPoint c.curve ⟨x, y⟩ := by
  obtain ⟨hlt, hon⟩ := (mem_candidates hc).mp hy
  exact ⟨hx, hlt, hon, hG⟩

/-- The doubles of a point (x, 0) are T2 and O, so its order is 4 (R133). -/
theorem smul_four_of_y_zero {x : Nat} (hP : OnC c.curve ⟨x, 0⟩) : smul c.curve 4 ⟨x, 0⟩ = identity := by
  rw [show (4 : Nat) = 2 * 2 from rfl, ← Laws.smul_smul hc hP, smul_two_of_y_zero hc hP, smul_two_pointT2 hc]

end

/-- A search finds the same element in every order of the list when at most one element passes its test. -/
theorem find?_eq_of_mem_iff {α : Type} {f : α → Bool} {l l' : List α} (hmem : ∀ a, a ∈ l' ↔ a ∈ l)
    (huniq : ∀ a ∈ l, ∀ b ∈ l, f a = true → f b = true → a = b) : l'.find? f = l.find? f := by
  cases h : l.find? f with
  | none =>
    rw [List.find?_eq_none] at h ⊢
    exact fun a ha => h a ((hmem a).mp ha)
  | some a =>
    have ha := List.mem_of_find?_eq_some h
    have hfa := List.find?_some h
    cases h' : l'.find? f with
    | none => exact absurd hfa (List.find?_eq_none.mp h' a ((hmem a).mpr ha))
    | some b =>
      have hb := (hmem b).mp (List.mem_of_find?_eq_some h')
      rw [huniq b hb a ha (List.find?_some h') hfa]

/-- Settles O37: two points of G with one x-coordinate would differ by T2, which has order 2, and N is odd. -/
theorem atMostOneSubgroupPoint : Obligations.AtMostOneSubgroupPoint := by
  intro c hc
  refine ⟨fun _ _ _ => subgroupPoint_y_unique hc,
    fun P hx hy hon => (addPt_negPt_pointT2 hc ⟨⟨hx, hy⟩, hon⟩).symm, fun x hx hon => ?_, fun x hx => ?_⟩
  · have hP : OnC c.curve ⟨x, 0⟩ := ⟨⟨hx, hc.p_prime.pos⟩, hon⟩
    refine ⟨smul_four_of_y_zero hc hP, ?_, fun hG => y_zero_not_inSubgroup hc hP (inSubgroup_of_subgroupPoint hG)⟩
    rw [smul_two_of_y_zero hc hP]
    exact pointT2_ne_identity hc
  · unfold decodeX
    rw [find?_eq_of_mem_iff fun _ => List.mem_reverse]
    intro y hy y' hy' hG hG'
    exact subgroupPoint_y_unique hc (subgroupPoint_of_mem_candidates hc hx hy hG)
      (subgroupPoint_of_mem_candidates hc hx hy' hG')

/-! ### DecodeX on G -/

/-- The search answers a point of G with this x, and there is only one (R134). -/
theorem decodeX_of_subgroupPoint {c : Scheme} (hc : c.Valid) {P : Aff} (hP : SubgroupPoint c.curve P) :
    decodeX c.curve P.x = some P := by
  obtain ⟨hx, hy, hon, hG⟩ := hP
  cases hq : decodeX c.curve P.x with
  | none => exact absurd hG ((decodeX_eq_none_iff hc).mp hq P.y hy hon)
  | some q =>
    have hqG := subgroupPoint_decodeX hc hx hq
    obtain ⟨qx, qy⟩ := q
    obtain rfl : qx = P.x := (decodeX_some hc hq).1
    rw [subgroupPoint_y_unique hc hqG ⟨hx, hy, hon, hG⟩]

/-- Settles O38: O and the negation of a point of G are in G. -/
theorem decodeXRoundTrip : Obligations.DecodeXRoundTrip := fun _ hc =>
  ⟨fun _ hP => ⟨decodeX_of_subgroupPoint hc hP, decodeX_of_subgroupPoint hc (subgroupPoint_negPt hc hP)⟩,
    decodeX_of_subgroupPoint hc (subgroupPoint_identity hc)⟩

end Sys2Proof.Proofs
end

section
/-! SUPPORT. What PENC and PDEC answer when their operands are good (R150, R151 of 41_point_codec.md): the checks pass, the
one word or register is written, and completion keeps the rest. -/

namespace Sys2Proof.Proofs

open Sys2Proof.Machine Sys2Proof.Config Sys2Proof.Laws

/-! ### The operands and the frames of the writes -/

theorem regIndex_eq_regNo {f : BitVec 8} (h : f.toNat < 8) : regIndex f = .ok (regNo f) := by
  rw [regIndex_of_lt h]
  exact congrArg Except.ok (Fin.ext (Nat.mod_eq_of_lt h).symm)

theorem readPoint_of_pointAt {s : State} {f : PField} {q : Point} (h : s.pointAt f = some q) :
    readPoint s (regNo f) = .ok q := readPoint_some h

theorem readElem_of_elemAt_lt {s : State} {i : Nat} (h : s.elemAt i < block.p) :
    readElem block s i = .ok (s.elemAt i) := readElem_of_lt h

/-- A word written to E[i] leaves the other bytes of EMEM and all of BMEM (R50, R51). -/
theorem otherBytesKept_writeE (s : State) (i : Nat) (v : Word) :
    OtherBytesKept s (s.writeE block i v) (eAddr i) (eAddr i + 32) := fun a ha => by
  rw [readByte_writeE, if_neg ha]

/-! ### The commands -/

theorem exec_penc (d : EField) (s1 : PField) (s : State) :
    exec (.penc d s1) s = .next (s.complete (pencBody block d s1 s)) := rfl

theorem exec_pdec (d : PField) (s1 : EField) (s : State) :
    exec (.pdec d s1) s = .next (s.complete (pdecBody block d s1 s)) := rfl

theorem pencBody_of_pointAt {d : EField} {s1 : PField} {s : State} {q : Point} (h1 : s1.toNat < 8)
    (hq : s.pointAt s1 = some q) : pencBody block d s1 s = .ok (s.writeE block d.toNat q.x) := by
  rw [pencBody, regIndex_eq_regNo h1, ok_bind, readPoint_of_pointAt hq, ok_bind, pure_eq_ok]

theorem pdecBody_of_decodeX {d : PField} {s1 : EField} {s : State} {P : Aff} (hd : d.toNat < 8)
    (hx : s.elemAt s1.toNat < block.p) (hP : decodeX block.curve (s.elemAt s1.toNat) = some P) :
    pdecBody block d s1 s = .ok (s.writeP (regNo d) (ofAff P)) := by
  rw [pdecBody, regIndex_eq_regNo hd, ok_bind, readElem_of_elemAt_lt hx, ok_bind]
  simp only [hP, pure_eq_ok]

/-- Settles O9: no operand check fails, and the one write is to E[D]. -/
theorem pencWritesXCoordinate : Obligations.PencWritesXCoordinate := by
  intro s d s1 q h1 hq
  refine ⟨(s.writeE block d.toNat q.x).finish 0, ?_, rfl, ?_, ?_⟩
  · rw [exec_penc, pencBody_of_pointAt h1 hq, complete_ok]
  · rw [readE_finish, readE_writeE]
  · exact otherBytesKept_writeE s d.toNat q.x

/-- Settles O10: the point of G with this x is the one that `DecodeX` answers (R134). -/
theorem pdecFindsSubgroupPoint : Obligations.PdecFindsSubgroupPoint := by
  intro s d s1 y hd hP
  have hdecode := decodeX_of_subgroupPoint block_valid hP
  obtain ⟨hx, hy, -, -⟩ := hP
  refine ⟨(s.writeP (regNo d) (ofAff ⟨s.elemAt s1.toNat, y⟩)).finish 0, ofAff ⟨s.elemAt s1.toNat, y⟩,
    ?_, rfl, ?_, toAff_ofAff hx hy, fun j hj => ?_⟩
  · rw [exec_pdec, pdecBody_of_decodeX hd hx hdecode, complete_ok]
  · rw [State.pointAt, readP_finish, readP_writeP]
  · rw [readP_finish, readP_writeP_ne s _ hj]

end Sys2Proof.Proofs
end

section
/-! SUPPORT. What GENSK, PUBKEY, INIT and COMPL answer when their operands are good (R170 to R173 of
42_key_agreement.md), and the agreement of the two sides of the exchange (R174). -/

namespace Sys2Proof.Proofs

open Sys2Proof.Machine Sys2Proof.Config Sys2Proof.Laws

/-! ### Operands and written coordinates -/

theorem readScalar_of_scalarAt_lt {s : State} {f : SField} (h : s.scalarAt f < block.n) :
    readScalar block s (regNo f) = .ok (s.scalarAt f) := readScalar_of_lt h

/-- An EMEM word gives back the x-coordinate of a multiple that was written to it (R127, R51). -/
theorem elemAt_writeE_smul_x (s : State) (i k : Nat) (P : Aff) :
    (s.writeE block i (BitVec.ofNat 256 (smul block.curve k P).x)).elemAt i = (smul block.curve k P).x := by
  rw [State.elemAt, readE_writeE, toNat_ofNat_of_lt block_valid (smul_canon block_valid k P).1]

theorem elemAt_writeE_ne (s : State) {i j : Nat} (v : Word) (h : j ≠ i) :
    (s.writeE block i v).elemAt j = s.elemAt j :=
  congrArg BitVec.toNat (readE_writeE_ne block s v h)

@[simp] theorem elemAt_finish (s : State) (e : BitVec 8) (i : Nat) : (s.finish e).elemAt i = s.elemAt i := rfl

/-- The scalar registers after a command that wrote none. -/
theorem scalarAt_congr {s t : State} (h : t.sreg = s.sreg) (f : SField) : t.scalarAt f = s.scalarAt f := by
  rw [State.scalarAt, State.scalarAt, State.readS, State.readS, h]

/-! ### The commands -/

theorem exec_gensk (d : SField) (s : State) : exec (.gensk d) s = .next (genskBody block d s) := rfl

theorem exec_pubkey (d : PField) (s1 : SField) (s : State) :
    exec (.pubkey d s1) s = .next (s.complete (pubkeyBody block d s1 s)) := rfl

theorem exec_init (d d2 : EField) (s1 : PField) (s2 : SField) (s : State) :
    exec (.init d d2 s1 s2) s = .next (s.complete (initBody block d d2 s1 s2 s)) := rfl

theorem exec_compl (d : EField) (s1 : SField) (s2 : EField) (s : State) :
    exec (.compl d s1 s2) s = .next (s.complete (complBody block d s1 s2 s)) := rfl

theorem pubkeyBody_of_scalarAt_lt {d : PField} {s1 : SField} {s : State} (hd : d.toNat < 8) (h1 : s1.toNat < 8)
    (hk : s.scalarAt s1 < block.n) : pubkeyBody block d s1 s =
      .ok (s.writeP (regNo d) (ofAff (smul block.curve (s.scalarAt s1) block.gen))) := by
  rw [pubkeyBody, regIndex_eq_regNo hd, ok_bind, regIndex_eq_regNo h1, ok_bind, readScalar_of_scalarAt_lt hk,
    ok_bind, pure_eq_ok]

theorem initBody_of_pointAt {d d2 : EField} {s1 : PField} {s2 : SField} {s : State} {q : Point}
    (h1 : s1.toNat < 8) (h2 : s2.toNat < 8) (hne : d ≠ d2) (hq : s.pointAt s1 = some q)
    (hr : s.scalarAt s2 < block.n) : initBody block d d2 s1 s2 s =
      .ok ((s.writeE block d.toNat (BitVec.ofNat 256 (smul block.curve (s.scalarAt s2) block.gen).x)).writeE block
        d2.toNat (BitVec.ofNat 256 (smul block.curve (s.scalarAt s2) (toAff q)).x)) := by
  have hdistinct : require (d != d2) .operand = .ok () := by rw [require_eq, if_pos (bne_iff_ne.mpr hne)]
  rw [initBody, regIndex_eq_regNo h1, ok_bind, regIndex_eq_regNo h2, ok_bind, hdistinct, ok_bind,
    readPoint_of_pointAt hq, ok_bind, readScalar_of_scalarAt_lt hr, ok_bind, pure_eq_ok]

theorem complBody_of_decodeX {d : EField} {s1 : SField} {s2 : EField} {s : State} {P : Aff} (h1 : s1.toNat < 8)
    (hk : s.scalarAt s1 < block.n) (hx : s.elemAt s2.toNat < block.p)
    (hP : decodeX block.curve (s.elemAt s2.toNat) = some P) : complBody block d s1 s2 s =
      .ok (s.writeE block d.toNat (BitVec.ofNat 256 (smul block.curve (s.scalarAt s1) P).x)) := by
  rw [complBody, regIndex_eq_regNo h1, ok_bind, readScalar_of_scalarAt_lt hk, ok_bind, readElem_of_elemAt_lt hx,
    ok_bind]
  simp only [hP, pure_eq_ok]

/-- Settles O11: with an accepted value on the port GENSK completes, and the one write is to S[D]. -/
theorem genskTakesAcceptedValue : Obligations.GenskTakesAcceptedValue := by
  intro s d v hd hr hv
  refine ⟨(s.writeS (regNo d) v).finish 0, ?_, rfl, ?_, fun j hj => ?_⟩
  · rw [exec_gensk, genskBody_of_accepted hd hr hv]
  · rw [readS_finish, readS_writeS]
  · rw [readS_finish, readS_writeS_ne s v hj]

/-- Settles O13: a multiple of GEN has canonical coordinates, so P[D] holds it without loss (R24, R127). -/
theorem pubkeyWritesMultipleOfGen : Obligations.PubkeyWritesMultipleOfGen := by
  intro s d s1 hd h1 hk
  obtain ⟨hx, hy⟩ := smul_canon block_valid (s.scalarAt s1) block.gen
  have hexec := exec_pubkey d s1 s
  rw [pubkeyBody_of_scalarAt_lt hd h1 hk, complete_ok] at hexec
  refine ⟨_, ofAff (smul block.curve (s.scalarAt s1) block.gen), hexec, rfl, ?_, toAff_ofAff hx hy, fun j hj => ?_⟩
  · rw [State.pointAt, readP_finish, readP_writeP]
  · rw [readP_finish, readP_writeP_ne s _ hj]

/-- Settles O14: the two destinations differ, so the second write leaves the first word as it was written. -/
theorem initWritesBothCoordinates : Obligations.InitWritesBothCoordinates := by
  intro s d d2 s1 s2 q h1 h2 hne hq hr
  have hwords : d.toNat ≠ d2.toNat := fun h => hne (BitVec.eq_of_toNat_eq h)
  have hexec := exec_init d d2 s1 s2 s
  rw [initBody_of_pointAt h1 h2 hne hq hr, complete_ok] at hexec
  refine ⟨_, hexec, rfl, ?_, ?_, fun a ha ha2 => ?_⟩
  · rw [elemAt_finish, elemAt_writeE_ne _ _ hwords, elemAt_writeE_smul_x]
  · rw [elemAt_finish, elemAt_writeE_smul_x]
  · rw [readByte_finish, otherBytesKept_writeE _ _ _ a ha2, otherBytesKept_writeE _ _ _ a ha]

/-- Settles O15: the x-coordinate of a point of G decodes to that point (R134). -/
theorem complWritesSharedX : Obligations.ComplWritesSharedX := by
  intro s d s1 s2 y h1 hk hQ
  have hdecode := decodeX_of_subgroupPoint block_valid hQ
  have hexec := exec_compl d s1 s2 s
  rw [complBody_of_decodeX h1 hk hQ.1 hdecode, complete_ok] at hexec
  refine ⟨_, hexec, rfl, ?_, fun a ha => ?_⟩
  · rw [elemAt_finish, elemAt_writeE_smul_x]
  · rw [readByte_finish, otherBytesKept_writeE _ _ _ a ha]

/-! ### The two sides agree -/

theorem smul_smul_comm_gen {c : Scheme} (hc : c.Valid) (j k : Nat) :
    smul c.curve j (smul c.curve k c.gen) = smul c.curve k (smul c.curve j c.gen) :=
  (scalarMultiplicationLaws c hc c.gen
    ⟨hc.gen_x_lt, hc.gen_y_lt, hc.gen_onCurve, hc.gen_subgroup⟩ j k).1

/-- Settles O34: INIT's first word is the x-coordinate of `[r]GEN`, a point of G, so COMPL decodes it to that point,
and `[sk][r]GEN = [r][sk]GEN`. -/
theorem exchangeAgrees : Obligations.ExchangeAgrees := by
  intro s i sk r eR eK eK2 hi hsk hr hskN hrN hne
  obtain ⟨t, q, hpubkey, hst, hq, hqPK, -⟩ := pubkeyWritesMultipleOfGen s i sk hi hsk hskN
  have ht : ∀ f, t.scalarAt f = s.scalarAt f := scalarAt_congr (congrArg State.sreg hst :)
  obtain ⟨u, hinit, htu, huR, huK, -⟩ :=
    initWritesBothCoordinates t eR eK i r q hi hr hne hq ((ht r).symm ▸ hrN)
  have hu : ∀ f, u.scalarAt f = s.scalarAt f := fun f =>
    (scalarAt_congr (congrArg State.sreg htu :) f).trans (ht f)
  rw [ht] at huR huK
  rw [hqPK] at huK
  have hG : SubgroupPoint block.curve ⟨u.elemAt eR.toNat, (smul block.curve (s.scalarAt r) block.gen).y⟩ :=
    huR.symm ▸ subgroupPoint_smul_gen block_valid _
  obtain ⟨v, hcompl, huv, hvK, -⟩ := complWritesSharedX u eK2 sk eR _ hsk ((hu sk).symm ▸ hskN) hG
  have hnoKey : v.noKey = s.noKey :=
    calc v.noKey = u.noKey := (congrArg State.noKey huv :)
      _ = t.noKey := (congrArg State.noKey htu :)
      _ = s.noKey := (congrArg State.noKey hst :)
  have hkey : v.elemAt eK2.toNat = u.elemAt eK.toNat :=
    calc v.elemAt eK2.toNat
        = (smul block.curve (s.scalarAt sk) (smul block.curve (s.scalarAt r) block.gen)).x := by rw [hvK, hu, huR]
      _ = (smul block.curve (s.scalarAt r) (smul block.curve (s.scalarAt sk) block.gen)).x :=
        congrArg Aff.x (smul_smul_comm_gen block_valid _ _)
      _ = u.elemAt eK.toNat := huK.symm
  exact ⟨t, u, v, hpubkey, hinit, hcompl, huR, huK, (congrArg State.errcode huv :), hnoKey, hkey⟩

end Sys2Proof.Proofs
end

section
/-! SUPPORT. What COMMIT, ENC and DEC answer when their operands are good (R205 to R207 of 43_sponge.md), and the
decryption of what was encrypted (R209). -/

namespace Sys2Proof.Proofs

open Sys2Proof.Machine Sys2Proof.Config Sys2Proof.Laws

/-! ### The commands -/

theorem exec_commit (d s1 : EField) (s : State) :
    exec (.commit d s1) s = .next (s.complete (commitBody block d s1 s)) := rfl

theorem exec_enc (d s1 s2 : EField) (n : CountField) (s : State) :
    exec (.enc d s1 s2 n) s = .next (s.complete (streamBody (fadd block.p) block d s1 s2 n s)) := rfl

theorem exec_dec (d s1 s2 : EField) (n : CountField) (s : State) :
    exec (.dec d s1 s2 n) s = .next (s.complete (streamBody (fsub block.p) block d s1 s2 n s)) := rfl

/-! ### Written elements and the words beside them -/

/-- An EMEM word gives back the canonical element that was written to it (R51). -/
theorem elemAt_writeE_of_lt (s : State) (i : Nat) {v : Nat} (hv : v < block.p) :
    (s.writeE block i (BitVec.ofNat 256 v)).elemAt i = v := by
  rw [State.elemAt, readE_writeE, toNat_ofNat_of_lt block_valid hv]

/-- A sequence written to EMEM gives back its canonical elements (R69). -/
theorem elemAt_writeEs (s : State) (i : Nat) {vs : List Nat} (hvs : ∀ v ∈ vs, v < block.p) {k : Nat}
    (hk : k < vs.length) : (s.writeEs block i vs).elemAt (i + k) = vs[k] := by
  obtain ⟨-, hwords, -⟩ := writeEs_spec block vs s i
  rw [State.elemAt, hwords k hk, toNat_ofNat_of_lt block_valid (hvs _ (List.getElem_mem hk))]

/-- A word outside the one range of EMEM words that changed. -/
theorem elemAt_of_otherBytesKept {s t : State} {d n i : Nat} (h : OtherBytesKept s t (eAddr d) (eAddr (d + n)))
    (hi : ¬(d ≤ i ∧ i < d + n)) : t.elemAt i = s.elemAt i := by
  refine congrArg BitVec.toNat (readE_congr fun a hlow hhigh => h a ?_)
  unfold eAddr at hlow hhigh ⊢
  omega

/-- A success whose writes are to EMEM or BMEM alone keeps every field but memory and those of completion (R261). -/
theorem finish_eq_ended_withMem {s u : State} (hu : u = { s with mem := u.mem }) :
    u.finish 0 = { s.ended 0 with mem := u.mem } := congrArg (State.finish · 0) hu

/-! ### COMMIT -/

theorem sponge_one_eq_commitment (c : Params) (k : Nat) : sponge c [tagCommit c, k] 1 = [commitment c k] := rfl

theorem commitBody_of_elemAt_lt {d s1 : EField} {s : State} (hk : s.elemAt s1.toNat < block.p) :
    commitBody block d s1 s =
      .ok (s.writeE block d.toNat (BitVec.ofNat 256 (commitment block (s.elemAt s1.toNat)))) := by
  rw [commitBody, readElem_of_elemAt_lt hk, ok_bind, pure_eq_ok]

/-- Settles O17: the sponge's only output is below p, so E[D] holds it without loss. -/
theorem commitWritesSponge : Obligations.CommitWritesSponge := by
  intro s d s1 hk
  have hexec := exec_commit d s1 s
  rw [commitBody_of_elemAt_lt hk, complete_ok] at hexec
  refine ⟨_, hexec, rfl, ?_, otherBytesKept_writeE s d.toNat _⟩
  rw [sponge_one_eq_commitment, elemAt_finish, elemAt_writeE_of_lt _ _ (commitment_lt block_valid _)]

/-! ### What ENC and DEC share -/

section Stream

variable {f : Nat → Nat → Nat} {s : State} {d s1 s2 : EField} {n : CountField} {key : Nat}

theorem streamBody_of_elemAt_lt (hsrc : s1.toNat + n.toNat ≤ 256) (hdst : d.toNat + n.toNat ≤ 256)
    (hkey : s.elemAt s2.toNat = key) (hkeyp : key < block.p)
    (hm : ∀ k < n.toNat, s.elemAt (s1.toNat + k) < block.p) :
    streamBody f block d s1 s2 n s = .ok (s.writeEs block d.toNat
      (List.zipWith f ((List.range n.toNat).map fun k => s.elemAt (s1.toNat + k)) (keystream block key n.toNat))) := by
  subst hkey
  have hread : readElems block s s1.toNat n.toNat =
      .ok ((List.range n.toNat).map fun k => s.elemAt (s1.toNat + k)) := readElems_of_lt n.toNat hm
  rw [streamBody, requireRange_of_fits hsrc, ok_bind, requireRange_of_fits hdst, ok_bind,
    readElem_of_elemAt_lt hkeyp, ok_bind, hread, ok_bind, pure_eq_ok]

/-- With good operands the command completes: `f` of the source elements and the keystream, both as they stood
before the command, goes to the destination, and nothing else changes (R263). -/
theorem stream_completes {i : Instr} (hexec : exec i s = .next (s.complete (streamBody f block d s1 s2 n s)))
    (hf : ∀ a b, f a b < block.p) (hsrc : s1.toNat + n.toNat ≤ 256) (hdst : d.toNat + n.toNat ≤ 256)
    (hkey : s.elemAt s2.toNat = key) (hkeyp : key < block.p)
    (hm : ∀ k < n.toNat, s.elemAt (s1.toNat + k) < block.p) :
    ∃ t, exec i s = .next t ∧ t = { s.ended 0 with mem := t.mem } ∧
      (∀ k (h : k < (keystream block key n.toNat).length),
        t.elemAt (d.toNat + k) = f (s.elemAt (s1.toNat + k)) (keystream block key n.toNat)[k]) ∧
      OtherBytesKept s t (eAddr d.toNat) (eAddr (d.toNat + n.toNat)) := by
  rw [streamBody_of_elemAt_lt hsrc hdst hkey hkeyp hm, complete_ok] at hexec
  generalize hvs : List.zipWith f ((List.range n.toNat).map fun k => s.elemAt (s1.toNat + k))
    (keystream block key n.toNat) = vs at hexec
  have hlen : vs.length = n.toNat := by simp [← hvs, keystream]
  have hlt : ∀ v ∈ vs, v < block.p := hvs ▸ zipWith_lt hf
  obtain ⟨hfields, -, hbytes⟩ := writeEs_spec block vs s d.toNat
  refine ⟨_, hexec, finish_eq_ended_withMem hfields, fun k h => ?_, fun a ha => hbytes a (hlen.symm ▸ ha)⟩
  have hk : k < vs.length := by rwa [hlen, ← length_sponge block [tagEnc block, key] n.toNat]
  rw [elemAt_finish, elemAt_writeEs s d.toNat hlt hk]
  simp only [← hvs, List.getElem_zipWith, List.getElem_map, List.getElem_range]

end Stream

/-! ### ENC and DEC -/

theorem block_p_pos : 0 < block.p := block_valid.p_prime.pos

/-- Settles O18: `f` is addition modulo p. -/
theorem encAddsKeystream : Obligations.EncAddsKeystream := by
  intro s d s1 s2 n _ hsrc hdst hkey hm
  obtain ⟨t, hexec, hfields, hwords, hbytes⟩ :=
    stream_completes (exec_enc d s1 s2 n s) (fadd_lt block_p_pos) hsrc hdst rfl hkey hm
  exact ⟨t, hexec, hfields, hwords, length_sponge _ _ _, hbytes⟩

/-- Subtraction modulo p is the remainder, never negative, of the integer difference (R207). -/
theorem fsub_eq_emod {p : Nat} (hp : 0 < p) (a b : Nat) : (fsub p a b : Int) = ((a : Int) - b) % p := by
  have hb : b % p ≤ p := (Nat.mod_lt b hp).le
  calc (fsub p a b : Int)
      = ((a : Int) + (p - b % p)) % p := by rw [fsub]; push_cast [hb]; rfl
    _ = ((a : Int) - b % p + p) % p := by congr 1; ring
    _ = ((a : Int) - b) % p := by rw [Int.add_emod_right, Int.sub_emod, Int.emod_emod, ← Int.sub_emod]

/-- Settles O19: `f` is subtraction modulo p. -/
theorem decSubtractsKeystream : Obligations.DecSubtractsKeystream := by
  intro s d s1 s2 n _ hsrc hdst hkey hm
  obtain ⟨t, hexec, hfields, hwords, hbytes⟩ :=
    stream_completes (exec_dec d s1 s2 n s) (fsub_lt block_p_pos) hsrc hdst rfl hkey hm
  refine ⟨t, hexec, hfields, fun k h => ?_, length_sponge _ _ _, hbytes⟩
  exact (congrArg Nat.cast (hwords k h)).trans (fsub_eq_emod block_p_pos _ _)

/-! ### DEC after ENC -/

theorem fsub_fadd_cancel {p a : Nat} (hp : 0 < p) (ha : a < p) (b : Nat) : fsub p (fadd p a b) b = a :=
  eq_of_cast_eq (fsub_lt hp _ _) ha (by rw [cast_fsub hp, cast_fadd]; ring)

/-- Settles O33: ENC leaves the key word as it was, so DEC subtracts the keystream that ENC added. -/
theorem decAfterEnc : Obligations.DecAfterEnc := by
  intro s d s1 s2 d' n _ hsrc hdst hdst' hkey hm hout
  obtain ⟨t, henc, -, hc, hbytes⟩ :=
    stream_completes (exec_enc d s1 s2 n s) (fadd_lt block_p_pos) hsrc hdst rfl hkey hm
  have hlen : ∀ {k}, k < n.toNat → k < (keystream block (s.elemAt s2.toNat) n.toNat).length := fun h =>
    (length_sponge _ _ _).symm ▸ h
  have hcp : ∀ k < n.toNat, t.elemAt (d.toNat + k) < block.p := fun k hk =>
    hc k (hlen hk) ▸ fadd_lt block_p_pos _ _
  have hkeyKept : t.elemAt s2.toNat = s.elemAt s2.toNat := elemAt_of_otherBytesKept hbytes hout
  obtain ⟨u, hdec, hfields, hm', -⟩ :=
    stream_completes (exec_dec d' d s2 n t) (fsub_lt block_p_pos) hdst hdst' hkeyKept hkey hcp
  refine ⟨t, u, henc, hdec, (congrArg State.errcode hfields :), fun k hk => ?_⟩
  rw [hm' k (hlen hk), hc k (hlen hk), fsub_fadd_cancel block_p_pos (hm k hk)]

end Sys2Proof.Proofs
end

section
/-! SUPPORT. Pack and Unpack in integer form and their round trip (R231 to R235 of 44_message_codec.md), and what PACK
and UNPACK answer when their operands are good (R236, R237). -/

namespace Sys2Proof.Proofs

open Sys2Proof.Machine Sys2Proof.Config Sys2Proof.Laws

/-! ### Pack in integer form -/

/-- Cutting bits out of the list is a division and a remainder of its number, so chunk k is `(M >> kC) mod 2^C`
(R231). -/
theorem packBytes_eq (cap : Nat) (bytes : List Byte) :
    packBytes cap bytes = (List.range (ceilDiv (8 * bytes.length + 1) cap)).map fun k =>
      (intLE bytes + 2 ^ (8 * bytes.length)) / 2 ^ (k * cap) % 2 ^ cap := by
  simp only [packBytes, length_packBits, bitsToNat_take, bitsToNat_drop, bitsToNat_packBits]

/-- Settles O29: a chunk is a remainder modulo 2^CAPACITY. -/
theorem packIntegerForm : Obligations.PackIntegerForm := by
  intro c hc bytes
  obtain ⟨-, -, hcap, -⟩ := capacity_bounds hc
  refine ⟨packBytes_eq _ _, hcap, fun e he => ?_⟩
  rw [packBytes_eq] at he
  obtain ⟨k, -, rfl⟩ := List.mem_map.mp he
  exact Nat.mod_lt _ (by positivity)

/-! ### The number of elements -/

/-- `ceilDiv a b` is the least number of parts of size `b` that hold `a` (R10). -/
theorem ceilDiv_mul_bounds (a : Nat) {b : Nat} (hb : 0 < b) :
    a ≤ ceilDiv a b * b ∧ ceilDiv a b * b < a + b := by
  have hdiv : ceilDiv a b * b + (a + b - 1) % b = a + b - 1 := Nat.div_add_mod' _ _
  have hmod := Nat.mod_lt (a + b - 1) hb
  omega

/-- Settles O31: the number of elements is `ceil((8L+1) / C)`, and the counts are its values for two C. -/
theorem packLength : Obligations.PackLength := by
  refine ⟨fun cap bytes hcap => ?_, fun bytes => ?_⟩
  · rw [length_packBytes]
    exact ceilDiv_mul_bounds _ hcap
  · simp only [length_packBytes, ceilDiv]
    omega

/-! ### Unpack in integer form -/

theorem codecNumber_cons (cap e : Nat) (es : List Nat) :
    codecNumber cap (e :: es) = e % 2 ^ cap + 2 ^ cap * codecNumber cap es := by
  have hshift : ∀ k x : Nat, x % 2 ^ cap * 2 ^ ((k + 1) * cap) = 2 ^ cap * (x % 2 ^ cap * 2 ^ (k * cap)) := by
    intro k x
    rw [Nat.succ_mul, pow_add]
    ring
  simp only [codecNumber, List.mapIdx_cons, List.sum_cons, hshift, Nat.zero_mul, pow_zero, Nat.mul_one]
  rw [List.mapIdx_eq_zipIdx_map, List.mapIdx_eq_zipIdx_map, List.sum_map_mul_left]

/-- The joined bits of the elements stand for `V` (R233). -/
theorem bitsToNat_flatMap_elemBits (cap : Nat) (elems : List Nat) :
    bitsToNat (elems.flatMap (elemBits cap)) = codecNumber cap elems := by
  induction elems with
  | nil => rfl
  | cons e es ih => rw [bitsToNat_flatMap_elemBits_cons, ih, codecNumber_cons]

/-- Byte j of a bit list is byte j of its number. -/
theorem bitsToBytes_eq (bits : List Bool) (k : Nat) :
    bitsToBytes bits k = (List.range k).map fun j => BitVec.ofNat 8 (bitsToNat bits / 256 ^ j) := by
  refine List.map_congr_left fun j _ => BitVec.eq_of_toNat_eq ?_
  rw [bitsToNat_take, bitsToNat_drop, Nat.pow_mul, BitVec.toNat_ofNat, BitVec.toNat_ofNat, Nat.mod_mod]

/-- Unpack read off the number `V` of the elements (R233). -/
theorem unpackElems_eq (cap : Nat) (elems : List Nat) :
    unpackElems cap elems =
      if codecNumber cap elems = 0 then .error .malformed
      else if Nat.log2 (codecNumber cap elems) % 8 ≠ 0 then .error .badLength
      else .ok ((List.range (Nat.log2 (codecNumber cap elems) / 8)).map fun j =>
        BitVec.ofNat 8 (codecNumber cap elems % 2 ^ Nat.log2 (codecNumber cap elems) / 256 ^ j)) := by
  simp only [unpackElems, lastOne_eq, bitsToBytes_eq, bitsToNat_take, bitsToNat_flatMap_elemBits]
  by_cases hV : codecNumber cap elems = 0
  · simp only [if_pos hV]
  · by_cases hbytes : Nat.log2 (codecNumber cap elems) % 8 = 0
    · simp only [if_neg hV, hbytes, ne_eq, not_true_eq_false, if_true, if_false]
    · simp only [if_neg hV, hbytes, ne_eq, not_false_eq_true, if_true, if_false]

/-- Settles O30: the last 1 of the joined bits is the top bit of `V`, so their cases are those of `V`. -/
theorem unpackIntegerForm : Obligations.UnpackIntegerForm :=
  fun cap elems _ => unpackElems_eq cap elems

/-- Unpack where the top bit of `V` is at a multiple of 8: the bytes below it (R233). -/
theorem unpackElems_of_log2_eq {cap len : Nat} {elems : List Nat} (hV : codecNumber cap elems ≠ 0)
    (htop : Nat.log2 (codecNumber cap elems) = 8 * len) :
    unpackElems cap elems =
      .ok ((List.range len).map fun j => BitVec.ofNat 8 (codecNumber cap elems % 2 ^ (8 * len) / 256 ^ j)) := by
  rw [unpackElems_eq, if_neg hV, htop, if_neg (by omega), Nat.mul_div_cancel_left len (by decide)]

/-! ### Unpack after Pack -/

/-- The number of the chunks of `m` is `m`, as far as the chunks reach. -/
theorem codecNumber_chunks (cap n : Nat) : ∀ m : Nat,
    codecNumber cap ((List.range n).map fun k => m / 2 ^ (k * cap) % 2 ^ cap) = m % 2 ^ (n * cap) := by
  induction n with
  | zero => intro m; simp [codecNumber, Nat.mod_one]
  | succ n ih =>
    intro m
    have htail : ∀ k, m / 2 ^ ((k + 1) * cap) = m / 2 ^ cap / 2 ^ (k * cap) := fun k => by
      rw [Nat.div_div_eq_div_mul, ← pow_add, Nat.succ_mul, Nat.add_comm]
    rw [List.range_succ_eq_map, List.map_cons, List.map_map, codecNumber_cons]
    simp only [Function.comp_def, Nat.succ_eq_add_one, htail]
    rw [ih, Nat.zero_mul, pow_zero, Nat.div_one, Nat.mod_mod, ← Nat.mod_mul, ← pow_add, Nat.succ_mul,
      Nat.add_comm cap]

/-- The elements of a packed message stand for `M` (R231, R233). -/
theorem codecNumber_packBytes {cap : Nat} (hcap : 0 < cap) (bytes : List Byte) :
    codecNumber cap (packBytes cap bytes) = intLE bytes + 2 ^ (8 * bytes.length) := by
  rw [packBytes_eq, codecNumber_chunks, Nat.mod_eq_of_lt]
  have hbits : 8 * bytes.length + 1 ≤ ceilDiv (8 * bytes.length + 1) cap * cap := (ceilDiv_mul_bounds _ hcap).1
  calc intLE bytes + 2 ^ (8 * bytes.length)
      < 2 ^ (8 * bytes.length) + 2 ^ (8 * bytes.length) := Nat.add_lt_add_right (intLE_lt bytes) _
    _ = 2 ^ (8 * bytes.length + 1) := by rw [pow_succ, Nat.mul_two]
    _ ≤ 2 ^ (ceilDiv (8 * bytes.length + 1) cap * cap) := Nat.pow_le_pow_right (by decide) hbits

/-- The terminator is the top bit of `M` (R230). -/
theorem log2_messageNumber (bytes : List Byte) :
    Nat.log2 (intLE bytes + 2 ^ (8 * bytes.length)) = 8 * bytes.length := by
  have hlt := intLE_lt bytes
  rw [Nat.log2_eq_iff (by positivity), pow_succ]
  omega

/-- The little-endian bytes of `int_le(b)` are `b`. -/
theorem bytes_of_intLE (bytes : List Byte) :
    (List.range bytes.length).map (fun j => BitVec.ofNat 8 (intLE bytes / 256 ^ j)) = bytes := by
  induction bytes with
  | nil => rfl
  | cons b bs ih =>
    have hhead : BitVec.ofNat 8 (b.toNat + 256 * intLE bs) = b := BitVec.eq_of_toNat_eq (by
      rw [BitVec.toNat_ofNat, Nat.add_mul_mod_self_left, Nat.mod_eq_of_lt b.isLt])
    have htail : ∀ j, (b.toNat + 256 * intLE bs) / 256 ^ (j + 1) = intLE bs / 256 ^ j := fun j => by
      have := b.isLt
      rw [pow_succ', ← Nat.div_div_eq_div_mul]
      congr 1
      omega
    rw [List.length_cons, List.range_succ_eq_map, List.map_cons, List.map_map]
    simp only [Function.comp_def, Nat.succ_eq_add_one, intLE, htail, pow_zero, Nat.div_one, hhead, ih]

/-- Settles O32: the elements stand for `M`, whose top bit is the terminator and whose rest is `int_le(b)`. -/
theorem unpackAfterPack : Obligations.UnpackAfterPack := by
  intro cap bytes hcap
  have hM := codecNumber_packBytes hcap bytes
  have hrest : (intLE bytes + 2 ^ (8 * bytes.length)) % 2 ^ (8 * bytes.length) = intLE bytes := by
    rw [Nat.add_mod_right, Nat.mod_eq_of_lt (intLE_lt bytes)]
  have hunpack := unpackElems_of_log2_eq (len := bytes.length) (by rw [hM]; positivity)
    ((congrArg Nat.log2 hM).trans (log2_messageNumber bytes))
  rw [hunpack, hM, hrest, bytes_of_intLE]

/-! ### The commands -/

theorem exec_pack (d : EField) (n : CountField) (s : State) :
    exec (.pack d n) s = .next (s.complete (packBody block d n s)) := rfl

theorem exec_unpack (s1 : EField) (n : CountField) (s : State) :
    exec (.unpack s1 n) s = .next (s.complete (unpackBody block s1 n s)) := rfl

@[simp] theorem elemAt_setResult (s : State) (k i : Nat) : (s.setResult k).elemAt i = s.elemAt i := rfl

theorem length_readBs (c : Params) (s : State) (n : Nat) : (s.readBs c n).length = n := by simp [State.readBs]

theorem length_packBytes_readBs (s : State) (n : Nat) :
    (packBytes (capacity block) (s.readBs block n)).length = packedCount n := by
  rw [length_packBytes, length_readBs, packedCount]

/-- Element k of the message in BMEM is chunk k of its message number (R231). -/
theorem getElem_packBytes_readBs (s : State) {n k : Nat}
    (hk : k < (packBytes (capacity block) (s.readBs block n)).length) :
    (packBytes (capacity block) (s.readBs block n))[k] =
      s.messageNumber n / 2 ^ (k * capacity block) % 2 ^ capacity block := by
  simp only [packBytes_eq, length_readBs, List.getElem_map, List.getElem_range, State.messageNumber]

/-- A success whose writes are to memory and RESULT alone keeps every field but these and those of completion
(R261). -/
theorem finish_setResult_eq_ended {s u : State} (hu : u = { s with mem := u.mem }) (k : Nat) :
    (u.setResult k).finish 0 = { s.ended 0 with mem := u.mem, result := BitVec.ofNat 13 k } :=
  congrArg (fun v => (v.setResult k).finish 0) hu

theorem packBody_of_fits {d : EField} {n : CountField} {s : State} (hn : n.toNat ≤ 4096)
    (hd : d.toNat + packedCount n.toNat ≤ 256) : packBody block d n s =
      .ok ((s.writeEs block d.toNat (packBytes (capacity block) (s.readBs block n.toNat))).setResult
        (packedCount n.toNat)) := by
  simp only [packBody, length_packBytes_readBs, require_eq, hn, hd, decide_true, if_true, ok_bind, pure_eq_ok]

/-- Settles O20: the elements go to consecutive words, and each is canonical, so it is held without loss. -/
theorem packWritesElements : Obligations.PackWritesElements := by
  intro s d n hn hd
  have hexec := exec_pack d n s
  rw [packBody_of_fits hn hd, complete_ok] at hexec
  have hlen := length_packBytes_readBs s n.toNat
  obtain ⟨hfields, -, hbytes⟩ := writeEs_spec block (packBytes (capacity block) (s.readBs block n.toNat)) s d.toNat
  refine ⟨_, hexec, finish_setResult_eq_ended hfields _, fun k hk => ?_, fun a ha => hbytes a (hlen.symm ▸ ha)⟩
  have hk' : k < (packBytes (capacity block) (s.readBs block n.toNat)).length := hlen.symm ▸ hk
  rw [elemAt_finish, elemAt_setResult, elemAt_writeEs s d.toNat (fun v hv => packBytes_lt block_valid hv) hk',
    getElem_packBytes_readBs]

/-- Byte j of a number is not touched by the cut at a later byte. -/
theorem mod_two_pow_byte (v : Nat) {j len : Nat} (hj : j < len) :
    v % 2 ^ (8 * len) / 256 ^ j % 256 = v / 256 ^ j % 256 := by
  have hsplit : 2 ^ (8 * len) = 256 ^ j * 256 ^ (len - j) := by
    rw [Nat.pow_mul, ← pow_add, Nat.add_sub_cancel' hj.le]
  rw [hsplit, Nat.mod_mul_right_div_self, Nat.mod_mod_of_dvd _ (dvd_pow_self 256 (by omega))]

/-- The message that Unpack answers where the top bit of `V` is at `8 * len`: its length and its bytes (R233). -/
theorem unpackElems_bytes {cap len : Nat} {elems : List Nat} (hV : codecNumber cap elems ≠ 0)
    (htop : Nat.log2 (codecNumber cap elems) = 8 * len) :
    ∃ bytes, unpackElems cap elems = .ok bytes ∧ bytes.length = len ∧
      ∀ j (h : j < bytes.length), bytes[j].toNat = codecNumber cap elems / 256 ^ j % 256 := by
  refine ⟨_, unpackElems_of_log2_eq hV htop, by simp, fun j hj => ?_⟩
  have hj' : j < len := by simpa using hj
  rw [List.getElem_map, List.getElem_range, BitVec.toNat_ofNat]
  exact mod_two_pow_byte _ hj'

theorem unpackBody_of_unpackElems {s1 : EField} {n : CountField} {s : State} {bytes : List Byte}
    (hsrc : s1.toNat + n.toNat ≤ 256) (hm : ∀ k < n.toNat, s.elemAt (s1.toNat + k) < block.p)
    (hbytes : unpackElems (capacity block) ((List.range n.toNat).map fun k => s.elemAt (s1.toNat + k)) = .ok bytes)
    (hlen : bytes.length ≤ 4096) :
    unpackBody block s1 n s = .ok ((s.writeBs block 0 bytes).setResult bytes.length) := by
  have hread : readElems block s s1.toNat n.toNat =
      .ok ((List.range n.toNat).map fun k => s.elemAt (s1.toNat + k)) := readElems_of_lt n.toNat hm
  rw [unpackBody, requireRange_of_fits hsrc, ok_bind, hread, ok_bind]
  simp only [hbytes, require_eq, hlen, decide_true, if_true, ok_bind, pure_eq_ok]

/-- Settles O21: the message's bytes go to B[0] on, and nothing else in memory changes. -/
theorem unpackWritesBytes : Obligations.UnpackWritesBytes := by
  intro s s1 n len _ hsrc hm hV htop hlen
  obtain ⟨bytes, hunpack, rfl, hbyte⟩ := unpackElems_bytes hV htop
  have hexec := exec_unpack s1 n s
  rw [unpackBody_of_unpackElems hsrc hm hunpack hlen, complete_ok] at hexec
  obtain ⟨hfields, hwritten, hkept⟩ := writeBs_spec block bytes s 0
  refine ⟨_, hexec, finish_setResult_eq_ended hfields _, fun j hj => ?_, fun a ha => hkept a ?_⟩
  · have hread := hwritten j hj
    rw [Nat.zero_add] at hread
    rw [readB_finish, readB_setResult, hread, hbyte j hj, State.elementsNumber]
  · rwa [Nat.zero_add]

end Sys2Proof.Proofs
end

section
/-! SUPPORT. The command lifecycle: issue by a write of CMD_HI, the engine's move on the latched command, and the ways a
command ends (R260 to R265 of 45_control.md, R303, R332). -/

namespace Sys2Proof.Proofs

open Sys2Proof.Machine Sys2Proof.Config Sys2Proof.Laws

/-! ### Every step has a next state -/

theorem finish_eq_ended (s : State) (code : BitVec 8) : s.finish code = s.ended code := rfl

/-- A command's move completes it, or is a GENSK that waits for the RNG port (R261, R332). -/
theorem exec_ends_or_waits (i : Instr) (s : State) :
    (∃ (u : State) (code : BitVec 8), exec i s = .next (u.finish code)) ∨
      ∃ d, i = .gensk d ∧ d.toNat < 8 ∧ exec i s = .next s.requestRng := by
  rcases exec_cases i s with ⟨e, h⟩ | ⟨u, h, -⟩ | ⟨d, hi, hd, -, h⟩
  · exact .inl ⟨s, errNumber e, h⟩
  · exact .inl ⟨u, 0, h⟩
  · exact .inr ⟨d, hi, hd, h⟩

theorem exec_answers_next (i : Instr) (s : State) : ∃ t, exec i s = .next t := by
  rcases exec_ends_or_waits i s with ⟨u, code, h⟩ | ⟨d, -, -, h⟩
  · exact ⟨_, h⟩
  · exact ⟨_, h⟩

/-- The engine is idle, or runs a word that is refused or spells a command (R261, R302, R321). -/
theorem engineMove_answers_next (s : State) : ∃ t, engineMove s = .next t := by
  unfold engineMove runWord
  split
  · split
    · exact ⟨s, rfl⟩
    · split
      · exact ⟨_, rfl⟩
      · next i _ => exact exec_answers_next i s
  · exact ⟨s, rfl⟩

theorem takeInput_answers_next (i : Input) (s : State) : ∃ t, takeInput i s = .next t := by
  cases i with
  | engine => exact engineMove_answers_next s
  | hostRead | hostWrite | rngDeliver | rstLow | rstHigh | powerOn => exact ⟨_, rfl⟩

/-- With nothing scheduled the engine moves; `step_given` is the other case of `step`. -/
theorem step_of_inputs_nil {s : State} (h : s.inputs = []) : step s = engineMove s := by
  rw [step, h]

theorem step_answers_next (s : State) : ∃ t, step s = .next t := by
  unfold step
  split
  · exact engineMove_answers_next s
  · exact takeInput_answers_next _ _

/-- Settles O7: the engine's moves and the inputs all answer a next state, and completion clears the latch and the RNG
request and sets DONE. -/
theorem everyStepAnswersNext : Obligations.EveryStepAnswersNext := by
  refine ⟨step_answers_next, fun i s => ?_⟩
  rcases exec_ends_or_waits i s with ⟨u, code, h⟩ | ⟨d, hi, hd, h⟩
  · exact ⟨_, h, .inl ⟨finish_latch u code, finish_done u code, finish_rng u code⟩⟩
  · exact ⟨_, h, .inr ⟨d, hi, hd, rfl⟩⟩

/-! ### A command that fails -/

/-- Settles O28: a success leaves code 0 and a waiting GENSK the code 0 of issue, so the command raised an error. -/
theorem failedCommandChangesOnlyStatus : Obligations.FailedCommandChangesOnlyStatus := by
  intro i s t h hzero hfailed
  rcases exec_wrote h with ⟨e, rfl⟩ | ⟨d, -, -, rfl⟩ | ⟨u, rfl, -⟩
  · rw [finish_errcode]
    exact ⟨finish_eq_ended s _, errNumber_le e⟩
  · exact absurd hzero hfailed
  · exact absurd (finish_errcode u 0) hfailed

/-! ### The engine runs the latched command -/

/-- Settles O5: scheduled or not, the step is the engine's move, which runs the command the latched word spells. -/
theorem stepRunsLatchedCommand : Obligations.StepRunsLatchedCommand := by
  intro s w i hr hl hd
  have hmove := engineMove_of_latched hr hl hd
  exact ⟨fun hnil => (step_of_inputs_nil hnil).trans hmove, hmove⟩

/-! ### NOP -/

theorem exec_nop (s : State) : exec .nop s = .next (s.ended 0) := rfl

theorem encode_nop : encode .nop = 0 := by decide

theorem eq_nop_of_opcode_eq_zero {i : Instr} (h : i.opcode = 0) : i = .nop := by
  cases i with
  | nop => rfl
  | _ => simp [Instr.opcode] at h

theorem decode_eq_nop_iff {w : CmdWord} : decode w = .ok .nop ↔ w = 0 := by
  rw [decode_eq_ok_iff, encode_nop, eq_comm]

/-- NOP is the only command of OP 0, and the zero word its only spelling (R94, R95). -/
theorem decode_error_of_op_zero {w : CmdWord} (hop : w.extractLsb' 0 8 = 0) (hw : w ≠ 0) :
    ∃ e, decode w = .error e := by
  cases hdec : decode w with
  | error e => exact ⟨e, rfl⟩
  | ok i =>
    have hopcode : (fieldsOf w).op = i.opcode := by
      rw [← decode_eq_ok_iff.mp hdec, fieldsOf_encode, fields_op]
    obtain rfl := eq_nop_of_opcode_eq_zero (hopcode.symm.trans hop)
    exact absurd (decode_eq_nop_iff.mp hdec) hw

/-- After a success only DONE is set when NONE and the sticky bits are clear (R32). -/
theorem statusWord_ended_zero {s : State} (hnone : s.noKey = false) (hover : s.overrun = false)
    (hacc : s.accErr = false) : (s.ended 0).statusWord = 2 := by
  simp only [State.statusWord, State.err, State.busy, State.ended, hnone, hover, hacc]
  decide

/-- Settles O8: the zero word is NOP's encoding, and NOP's completion writes nothing of its own. -/
theorem nopCompletes : Obligations.NopCompletes :=
  ⟨fun _ => decode_eq_nop_iff, fun _ => decode_error_of_op_zero, exec_nop, fun _ => statusWord_ended_zero⟩

/-! ### Issue -/

/-- A write of CMD_HI is legal whether or not a command is latched (R31, R66). -/
theorem step_write_cmdHi {s : State} (v : BusWord) (hr : s.rstN = true) :
    step (s.given (.hostWrite (block.blockBase + 0x004) 4 v)) = .next (s.writeCmdHi v) :=
  step_write_word (x := .cmdHi) v hr (by decide) rfl rfl (by decide) rfl rfl

/-- Settles O41: BUSY selects the branch of R260, and issue clears DONE, so IRQ is 0. -/
theorem issueLatchesCommand : Obligations.IssueLatchesCommand := by
  intro s v hr
  rw [step_write_cmdHi v hr, writeCmdHi_eq]
  refine ⟨fun hb => by rw [if_pos hb], fun hb => ?_⟩
  rw [if_neg (Bool.eq_false_iff.mp hb)]
  exact ⟨_, rfl, rfl, rfl, Bool.and_false s.ie⟩

end Sys2Proof.Proofs
end

section
/-! SUPPORT. The errors of the commands (R280 to R291 of 60_exceptions.md): each operand check of a command raises its
code or lets the next check decide, so the first that fails is what the command ends with. -/

namespace Sys2Proof.Proofs

open Sys2Proof.Machine Sys2Proof.Config Sys2Proof.Laws

/-! ### Checks in order -/

/-- The codes that a check followed by `rest` raises: its own when it fails, and those of `rest` when it passes. -/
def Checked (fails : Prop) (code : ErrCode) (rest : ErrCode → Prop) (e : ErrCode) : Prop :=
  fails ∧ e = code ∨ ¬fails ∧ rest e

/-- Nothing is left to raise. -/
def NoError (_ : ErrCode) : Prop := False

/-- Two checks in a row that raise the same code are one check. -/
theorem checked_checked (p q : Prop) (code : ErrCode) (rest : ErrCode → Prop) :
    Checked p code (Checked q code rest) = Checked (p ∨ q) code rest := by
  funext e
  simp only [Checked, eq_iff_iff]
  tauto

theorem checked_of {p : Prop} (h : p) (code : ErrCode) (rest : ErrCode → Prop) :
    Checked p code rest = (· = code) := by
  funext e
  simp [Checked, h]

theorem checked_of_not {p : Prop} (h : ¬p) (code : ErrCode) (rest : ErrCode → Prop) :
    Checked p code rest = rest := by
  funext e
  simp [Checked, h]

@[simp] theorem checked_false (code : ErrCode) (rest : ErrCode → Prop) : Checked False code rest = rest :=
  checked_of_not id code rest

/-- What follows a check matters only when the check passes. -/
theorem checked_congr {p : Prop} {code : ErrCode} {rest rest' : ErrCode → Prop} (h : ¬p → rest = rest') :
    Checked p code rest = Checked p code rest' := by
  by_cases hp : p
  · rw [checked_of hp, checked_of hp]
  · rw [h hp]

theorem checked_self {p : Prop} {code : ErrCode} {rest : ErrCode → Prop} (h : ¬rest code) :
    Checked p code rest code ↔ p := by
  simp [Checked, h]

theorem checked_ne {p : Prop} {code e : ErrCode} {rest : ErrCode → Prop} (h : e ≠ code) :
    Checked p code rest e ↔ ¬p ∧ rest e := by
  simp [Checked, h]

/-- The codes that a sequence of checks can end with. -/
def Errors {α : Type} (x : Except ErrCode α) (e : ErrCode) : Prop := x = .error e

theorem errors_pure {α : Type} (a : α) : Errors (pure a : Except ErrCode α) = NoError := by
  funext e
  simp [Errors, NoError]

theorem errors_error {α : Type} (code : ErrCode) : Errors (.error code : Except ErrCode α) = (· = code) := by
  funext e
  simp [Errors, eq_comm]

/-- A check that passes with `a` or raises `code`, before the rest of a sequence. -/
theorem errors_bind {α β : Type} {x : Except ErrCode α} {f : α → Except ErrCode β} {fails : Prop} {code : ErrCode}
    {a : α} (herr : fails → x = .error code) (hok : ¬fails → x = .ok a) :
    Errors (x >>= f) = Checked fails code (Errors (f a)) := by
  by_cases h : fails
  · rw [herr h, error_bind, errors_error, checked_of h]
  · rw [hok h, ok_bind, checked_of_not h]

section Checks

variable {β : Type} {s : State}

theorem errors_require (b : Bool) (code : ErrCode) (f : Unit → Except ErrCode β) :
    Errors (require b code >>= f) = Checked (b = false) code (Errors (f ())) :=
  errors_bind (fun h => by rw [require_eq, h]; rfl)
    (fun h => by rw [require_eq, Bool.eq_true_of_not_eq_false h]; rfl)

theorem errors_regIndex (r : BitVec 8) (f : Fin 8 → Except ErrCode β) :
    Errors (regIndex r >>= f) = Checked (8 ≤ r.toNat) .operand (Errors (f (regNo r))) :=
  errors_bind (fun h => regIndex_of_ge (Nat.not_lt.mpr h)) (fun h => regIndex_eq_regNo (Nat.not_le.mp h))

theorem errors_requireRange (base : EField) (n : CountField) (f : Unit → Except ErrCode β) :
    Errors (requireRange base n >>= f) = Checked (256 < base.toNat + n.toNat) .operand (Errors (f ())) :=
  errors_bind (fun h => requireRange_of_not (Nat.not_le.mpr h)) (fun h => requireRange_of_fits (Nat.not_lt.mp h))

theorem errors_readScalar (r : SField) (f : Nat → Except ErrCode β) :
    Errors (readScalar block s (regNo r) >>= f) =
      Checked (block.n ≤ s.scalarAt r) .nonCanonical (Errors (f (s.scalarAt r))) :=
  errors_bind (fun h => readScalar_of_ge (Nat.not_lt.mpr h)) (fun h => readScalar_of_scalarAt_lt (Nat.not_le.mp h))

theorem errors_readElem (i : Nat) (f : Nat → Except ErrCode β) :
    Errors (readElem block s i >>= f) = Checked (block.p ≤ s.elemAt i) .nonCanonical (Errors (f (s.elemAt i))) :=
  errors_bind (fun h => readElem_of_ge (Nat.not_lt.mpr h)) (fun h => readElem_of_elemAt_lt (Nat.not_le.mp h))

theorem errors_readElems (i n : Nat) (f : List Nat → Except ErrCode β) :
    Errors (readElems block s i n >>= f) = Checked (∃ k < n, block.p ≤ s.elemAt (i + k)) .nonCanonical
      (Errors (f ((List.range n).map fun k => s.elemAt (i + k)))) :=
  errors_bind
    (fun ⟨k, hk, hge⟩ => readElems_of_ge n ⟨k, hk, Nat.not_lt.mpr hge⟩)
    (fun h => readElems_of_lt n fun k hk => Nat.not_le.mp fun hge => h ⟨k, hk, hge⟩)

/-- Reading a point register, where what follows raises the same codes whichever point it holds. -/
theorem errors_readPoint (r : PField) {f : Point → Except ErrCode β} {rest : ErrCode → Prop}
    (hf : ∀ q, Errors (f q) = rest) :
    Errors (readPoint s (regNo r) >>= f) = Checked (s.pointAt r = none) .emptyPoint rest := by
  cases hq : s.pointAt r with
  | none =>
    rw [errors_bind (a := ⟨0, 0⟩) (fun _ => readPoint_none hq) (absurd rfl), hf]
  | some q =>
    rw [errors_bind (fails := some q = none) (code := .emptyPoint) (fun h => by cases h)
      (fun _ => readPoint_of_pointAt hq), hf]

end Checks

/-! ### The first error of a command -/

/-- The errors of what a command computes, after its operands have passed (R285 to R288). -/
def DataError : Instr → State → ErrCode → Prop
  | .pdec _ s1, s => Checked (NoSubgroupPoint block.curve (s.elemAt s1.toNat)) .invalidEncoding NoError
  | .pack d n, _ => Checked (256 < d.toNat + packedCount n.toNat) .noSpace NoError
  | .unpack s1 n, s =>
    Checked (s.elementsNumber s1.toNat n.toNat = 0) .malformedCiphertext <|
    Checked (Nat.log2 (s.elementsNumber s1.toNat n.toNat) % 8 ≠ 0) .invalidMessageLength <|
    Checked (4096 < Nat.log2 (s.elementsNumber s1.toNat n.toNat) / 8) .noSpace NoError
  | .nop, _ | .penc _ _, _ | .gensk _, _ | .pubkey _ _, _ | .init _ _ _ _, _ | .compl _ _ _, _ => NoError
  | .commit _ _, _ | .enc _ _ _ _, _ | .dec _ _ _ _, _ => NoError

/-- R282's conditions, command by command. -/
def BadFields : Instr → Prop
  | .nop => False
  | .penc _ s1 => 8 ≤ s1.toNat
  | .pdec d _ => 8 ≤ d.toNat
  | .gensk d => 8 ≤ d.toNat
  | .pubkey d s1 => 8 ≤ d.toNat ∨ 8 ≤ s1.toNat
  | .init d d2 s1 s2 => 8 ≤ s1.toNat ∨ 8 ≤ s2.toNat ∨ d = d2
  | .compl _ s1 _ => 8 ≤ s1.toNat
  | .commit _ _ => False
  | .enc d s1 _ n => 256 < n.toNat ∨ 256 < s1.toNat + n.toNat ∨ 256 < d.toNat + n.toNat
  | .dec d s1 _ n => 256 < n.toNat ∨ 256 < s1.toNat + n.toNat ∨ 256 < d.toNat + n.toNat
  | .pack _ n => 4096 < n.toNat
  | .unpack s1 n => 256 < n.toNat ∨ 256 < s1.toNat + n.toNat

theorem regField_eq_false_iff {f : BitVec 8} : regField f = false ↔ 8 ≤ f.toNat := by simp [regField]

theorem rangeFits_eq_false_iff {base : EField} {n : CountField} :
    rangeFits base n = false ↔ 256 < base.toNat + n.toNat := by simp [rangeFits]

theorem wellFormed_eq_false_iff {i : Instr} : i.wellFormed = false ↔ BadFields i := by
  cases i <;> simp only [Instr.wellFormed, Instr.assemblable, Instr.fieldsAgree, BadFields, Bool.and_eq_false_iff,
    regField_eq_false_iff, rangeFits_eq_false_iff, decide_eq_false_iff_not, Nat.not_le, not_not, or_assoc,
    Bool.true_eq_false, or_false, ne_eq]

theorem not_badFields_iff {i : Instr} : ¬BadFields i ↔ i.wellFormed = true := by
  rw [← wellFormed_eq_false_iff, Bool.not_eq_false]

/-- The precedence of R291 for a decoded command. -/
def FirstError (i : Instr) (s : State) : ErrCode → Prop :=
  Checked (BadFields i) .operand <|
  Checked (readsEmptyPoint i s) .emptyPoint <|
  Checked (readsNonCanonical i s) .nonCanonical <|
  DataError i s

/-! ### Each command's checks

The checks stand in the order of R291 in every command, and neighbours that raise one code are one check. -/

theorem errors_pencBody (d : EField) (s1 : PField) (s : State) :
    Errors (pencBody block d s1 s) = FirstError (.penc d s1) s := by
  rw [pencBody, errors_regIndex, errors_readPoint s1 fun q => errors_pure _]
  simp only [FirstError, BadFields, readsEmptyPoint, readsNonCanonical, checked_false, DataError]

theorem errors_pubkeyBody (d : PField) (s1 : SField) (s : State) :
    Errors (pubkeyBody block d s1 s) = FirstError (.pubkey d s1) s := by
  rw [pubkeyBody, errors_regIndex, errors_regIndex, errors_readScalar, errors_pure, checked_checked]
  simp only [FirstError, BadFields, readsEmptyPoint, readsNonCanonical, checked_false, DataError]

theorem errors_commitBody (d s1 : EField) (s : State) :
    Errors (commitBody block d s1 s) = FirstError (.commit d s1) s := by
  rw [commitBody, errors_readElem, errors_pure]
  simp only [FirstError, BadFields, readsEmptyPoint, readsNonCanonical, checked_false, DataError]

theorem errors_initBody (d d2 : EField) (s1 : PField) (s2 : SField) (s : State) :
    Errors (initBody block d d2 s1 s2 s) = FirstError (.init d d2 s1 s2) s := by
  rw [initBody, errors_regIndex, errors_regIndex, errors_require,
    errors_readPoint s1 fun q => (errors_readScalar s2 _).trans (by rw [errors_pure]), checked_checked,
    checked_checked]
  simp only [FirstError, BadFields, readsEmptyPoint, readsNonCanonical, DataError, bne_eq_false_iff_eq, or_assoc]

theorem errors_streamBody (f : Nat → Nat → Nat) (d s1 s2 : EField) (n : CountField) (s : State) :
    Errors (streamBody f block d s1 s2 n s) = FirstError (.enc d s1 s2 n) s := by
  have hranges : BadFields (.enc d s1 s2 n) ↔ 256 < s1.toNat + n.toNat ∨ 256 < d.toNat + n.toNat := by
    simp only [BadFields]
    omega
  rw [streamBody, errors_requireRange, errors_requireRange, errors_readElem, errors_readElems, errors_pure,
    checked_checked, checked_checked]
  simp only [FirstError, hranges, readsEmptyPoint, readsNonCanonical, checked_false, DataError]

theorem errors_packBody (d : EField) (n : CountField) (s : State) :
    Errors (packBody block d n s) = FirstError (.pack d n) s := by
  rw [packBody, errors_require]
  simp only [errors_require, errors_pure, length_packBytes_readBs]
  simp only [FirstError, BadFields, readsEmptyPoint, readsNonCanonical, checked_false, DataError,
    decide_eq_false_iff_not, Nat.not_le]

theorem errors_nopBody (s : State) : Errors (nopBody s) = FirstError .nop s := by
  rw [nopBody, errors_pure]
  simp only [FirstError, BadFields, readsEmptyPoint, readsNonCanonical, checked_false, DataError]

/-- `DecodeX` fails on a canonical x exactly when no point of G has it (R151, R152). -/
theorem decodeX_eq_none_iff_noSubgroupPoint {x : Nat} (hx : x < block.p) :
    decodeX block.curve x = none ↔ NoSubgroupPoint block.curve x := by
  rw [decodeX_eq_none_iff block_valid]
  exact ⟨fun h y ⟨_, hy, hon, hG⟩ => h y hy hon hG, fun h y hy hon hG => h y ⟨hx, hy, hon, hG⟩⟩

theorem errors_pdecBody (d : PField) (s1 : EField) (s : State) :
    Errors (pdecBody block d s1 s) = FirstError (.pdec d s1) s := by
  rw [pdecBody, errors_regIndex, errors_readElem]
  simp only [FirstError, BadFields, readsEmptyPoint, readsNonCanonical, checked_false, DataError]
  congr 1
  refine checked_congr fun hx => ?_
  rw [← decodeX_eq_none_iff_noSubgroupPoint (Nat.not_le.mp hx)]
  cases hdecode : decodeX block.curve (s.elemAt s1.toNat) with
  | none => exact (errors_error _).trans (checked_of rfl _ _).symm
  | some q => exact (errors_pure _).trans (checked_of_not (by simp) _ _).symm

theorem errors_complBody (d : EField) (s1 : SField) (s2 : EField) (s : State) :
    Errors (complBody block d s1 s2 s) = FirstError (.compl d s1 s2) s := by
  rw [complBody, errors_regIndex, errors_readScalar, errors_readElem, checked_checked]
  simp only [FirstError, BadFields, readsEmptyPoint, readsNonCanonical, checked_false, DataError]
  cases decodeX block.curve (s.elemAt s2.toNat) with
  | none => simp only [errors_pure]
  | some q => simp only [errors_pure]

theorem errors_unpackBody (s1 : EField) (n : CountField) (s : State) :
    Errors (unpackBody block s1 n s) = FirstError (.unpack s1 n) s := by
  have hrange : BadFields (.unpack s1 n) ↔ 256 < s1.toNat + n.toNat := by
    simp only [BadFields]
    omega
  rw [unpackBody, errors_requireRange, errors_readElems, unpackElems_eq, ← State.elementsNumber]
  simp only [FirstError, hrange, readsEmptyPoint, readsNonCanonical, checked_false, DataError]
  congr 2
  by_cases hV : s.elementsNumber s1.toNat n.toNat = 0
  · simp only [if_pos hV, errors_error, checked_of hV]
  rw [if_neg hV, checked_of_not hV]
  by_cases h8 : Nat.log2 (s.elementsNumber s1.toNat n.toNat) % 8 ≠ 0
  · simp only [if_pos h8, errors_error, checked_of h8]
  · simp only [if_neg h8, checked_of_not h8, errors_require, errors_pure, List.length_map, List.length_range,
      decide_eq_false_iff_not, Nat.not_le]

/-! ### The code a command ends with -/

theorem errNumber_injective : Function.Injective errNumber := by
  intro e e'
  cases e <;> cases e' <;> decide

theorem errNumber_ne_zero (e : ErrCode) : errNumber e ≠ 0 := by cases e <;> decide

/-- The state in which a command ends with an error tells which error it was. -/
theorem finish_errNumber_inj {s : State} {e e' : ErrCode} :
    s.finish (errNumber e') = s.ended (errNumber e) ↔ e = e' :=
  ⟨fun h => (errNumber_injective (congrArg State.errcode h :)).symm, fun h => by rw [h, finish_eq_ended]⟩

/-- A success leaves code 0, which is no error's. -/
theorem finish_zero_ne_ended (s u : State) (e : ErrCode) : u.finish 0 ≠ s.ended (errNumber e) := fun h =>
  errNumber_ne_zero e (congrArg State.errcode h).symm

theorem complete_eq_ended_iff {s : State} {b : Except ErrCode State} {e : ErrCode} :
    s.complete b = s.ended (errNumber e) ↔ Errors b e := by
  cases b with
  | error e' => rw [complete_error, errors_error, finish_errNumber_inj]
  | ok u => exact iff_of_false (finish_zero_ne_ended s u e) (by simp [Errors])

theorem exec_ended_iff_of_errors {i : Instr} {s : State} {b : Except ErrCode State} {e : ErrCode}
    (hexec : exec i s = .next (s.complete b)) (hb : Errors b = FirstError i s) :
    exec i s = .next (s.ended (errNumber e)) ↔ FirstError i s e := by
  rw [hexec, ← hb, ← complete_eq_ended_iff, Host.Outcome.next.injEq]

/-- GENSK raises E_OPERAND for a bad index; with a good one it takes a value or waits, whatever is on the port. -/
theorem genskBody_eq_ended_iff {d : SField} {s : State} {e : ErrCode} :
    genskBody block d s = s.ended (errNumber e) ↔ FirstError (.gensk d) s e := by
  simp only [FirstError, BadFields, readsEmptyPoint, readsNonCanonical, checked_false, DataError]
  rcases genskBody_cases block d s with ⟨hd, h⟩ | ⟨i, v, hi, -, -, h⟩ | ⟨hd, -, h⟩ <;> rw [h]
  · rw [finish_errNumber_inj, checked_of hd]
  · rw [checked_of_not (by have := regIndex_ok hi; omega)]
    exact iff_of_false (finish_zero_ne_ended s _ e) id
  · rw [checked_of_not (Nat.not_le.mpr hd)]
    refine iff_of_false (fun h => ?_) id
    cases (congrArg State.rng h :)

/-- A command ends with an error exactly when that is its first error in the order of R291. -/
theorem exec_ended_iff (i : Instr) (s : State) (e : ErrCode) :
    exec i s = .next (s.ended (errNumber e)) ↔ FirstError i s e := by
  cases i with
  | nop => exact exec_ended_iff_of_errors rfl (errors_nopBody s)
  | penc d s1 => exact exec_ended_iff_of_errors (exec_penc d s1 s) (errors_pencBody d s1 s)
  | pdec d s1 => exact exec_ended_iff_of_errors (exec_pdec d s1 s) (errors_pdecBody d s1 s)
  | gensk d => rw [exec_gensk, Host.Outcome.next.injEq, genskBody_eq_ended_iff]
  | pubkey d s1 => exact exec_ended_iff_of_errors (exec_pubkey d s1 s) (errors_pubkeyBody d s1 s)
  | init d d2 s1 s2 => exact exec_ended_iff_of_errors (exec_init d d2 s1 s2 s) (errors_initBody d d2 s1 s2 s)
  | compl d s1 s2 => exact exec_ended_iff_of_errors (exec_compl d s1 s2 s) (errors_complBody d s1 s2 s)
  | commit d s1 => exact exec_ended_iff_of_errors (exec_commit d s1 s) (errors_commitBody d s1 s)
  | enc d s1 s2 n => exact exec_ended_iff_of_errors (exec_enc d s1 s2 n s) (errors_streamBody _ d s1 s2 n s)
  | dec d s1 s2 n => exact exec_ended_iff_of_errors (exec_dec d s1 s2 n s) (errors_streamBody _ d s1 s2 n s)
  | pack d n => exact exec_ended_iff_of_errors (exec_pack d n s) (errors_packBody d n s)
  | unpack s1 n => exact exec_ended_iff_of_errors (exec_unpack s1 n s) (errors_unpackBody s1 n s)

/-! ### The early errors: the fields, the point registers, the canonical forms -/

/-- What a command computes raises the four codes of R285 to R288 only. -/
theorem dataError_code {i : Instr} {s : State} {e : ErrCode} (h : DataError i s e) :
    e = .invalidEncoding ∨ e = .malformedCiphertext ∨ e = .invalidMessageLength ∨ e = .noSpace := by
  cases i with
  | pdec d s1 => exact .inl (h.resolve_right And.right).2
  | pack d n => exact .inr (.inr (.inr (h.resolve_right And.right).2))
  | unpack s1 n =>
    rcases h with ⟨-, he⟩ | ⟨-, ⟨-, he⟩ | ⟨-, ⟨-, he⟩ | ⟨-, h⟩⟩⟩
    · exact .inr (.inl he)
    · exact .inr (.inr (.inl he))
    · exact .inr (.inr (.inr he))
    · exact h.elim
  | _ => exact h.elim

/-- Settles O22: the fields are checked first, and no later check raises E_OPERAND. -/
theorem operandErrorExactly : Obligations.OperandErrorExactly := by
  intro i s
  refine (exec_ended_iff i s .operand).trans (checked_self ?_)
  rw [checked_ne (by decide), checked_ne (by decide)]
  rintro ⟨-, -, h⟩
  simpa using dataError_code h

/-- Settles O23: the point registers are checked next. -/
theorem emptyPointErrorExactly : Obligations.EmptyPointErrorExactly := by
  intro i s
  refine (exec_ended_iff i s .emptyPoint).trans ?_
  rw [FirstError, checked_ne (by decide), not_badFields_iff, checked_self]
  rw [checked_ne (by decide)]
  rintro ⟨-, h⟩
  simpa using dataError_code h

/-- Settles O24: the elements and scalars are checked last of the operands. -/
theorem nonCanonicalErrorExactly : Obligations.NonCanonicalErrorExactly := by
  intro i s
  refine (exec_ended_iff i s .nonCanonical).trans ?_
  rw [FirstError, checked_ne (by decide), not_badFields_iff, checked_ne (by decide), checked_self]
  intro h
  simpa using dataError_code h

/-! ### The late errors: what is decoded, unpacked or too long -/

/-- An error of what a command computes is its first exactly when its operands pass (R291). -/
theorem firstError_iff_dataError {i : Instr} {s : State} {e : ErrCode} (hop : e ≠ .operand)
    (hempty : e ≠ .emptyPoint) (hcan : e ≠ .nonCanonical) :
    FirstError i s e ↔ i.wellFormed = true ∧ ¬readsEmptyPoint i s ∧ ¬readsNonCanonical i s ∧ DataError i s e := by
  rw [FirstError, checked_ne hop, checked_ne hempty, checked_ne hcan, not_badFields_iff]

theorem dataError_invalidEncoding_iff {i : Instr} {s : State} : DataError i s .invalidEncoding ↔
    ∃ d s1, i = .pdec d s1 ∧ NoSubgroupPoint block.curve (s.elemAt s1.toNat) := by
  cases i <;> simp [DataError, Checked, NoError]

theorem dataError_malformedCiphertext_iff {i : Instr} {s : State} : DataError i s .malformedCiphertext ↔
    ∃ s1 n, i = .unpack s1 n ∧ s.elementsNumber s1.toNat n.toNat = 0 := by
  cases i <;> simp [DataError, Checked, NoError]

theorem dataError_invalidMessageLength_iff {i : Instr} {s : State} : DataError i s .invalidMessageLength ↔
    ∃ s1 n, i = .unpack s1 n ∧ s.elementsNumber s1.toNat n.toNat ≠ 0 ∧
      Nat.log2 (s.elementsNumber s1.toNat n.toNat) % 8 ≠ 0 := by
  cases i <;> simp [DataError, Checked, NoError]

theorem dataError_noSpace_iff {i : Instr} {s : State} : DataError i s .noSpace ↔
    (∃ d n, i = .pack d n ∧ 256 < d.toNat + packedCount n.toNat) ∨
    ∃ s1 n, i = .unpack s1 n ∧ s.elementsNumber s1.toNat n.toNat ≠ 0 ∧
      Nat.log2 (s.elementsNumber s1.toNat n.toNat) % 8 = 0 ∧
      4096 < Nat.log2 (s.elementsNumber s1.toNat n.toNat) / 8 := by
  cases i <;> simp [DataError, Checked, NoError]

/-- UNPACK reads no point register, so its operands pass when its fields and its elements do. -/
theorem unpack_operands_iff {i : Instr} {s : State} {P : EField → CountField → Prop} :
    (i.wellFormed = true ∧ ¬readsEmptyPoint i s ∧ ¬readsNonCanonical i s ∧ ∃ s1 n, i = .unpack s1 n ∧ P s1 n) ↔
      ∃ s1 n, i = .unpack s1 n ∧ i.wellFormed = true ∧ ¬readsNonCanonical i s ∧ P s1 n := by
  constructor
  · rintro ⟨hwf, -, hcan, s1, n, hi, hP⟩
    exact ⟨s1, n, hi, hwf, hcan, hP⟩
  · rintro ⟨s1, n, rfl, hwf, hcan, hP⟩
    exact ⟨hwf, id, hcan, s1, n, rfl, hP⟩

/-- PACK reads neither points nor elements, so its operands pass when its fields do. -/
theorem pack_operands_iff {i : Instr} {s : State} {P : EField → CountField → Prop} :
    (i.wellFormed = true ∧ ¬readsEmptyPoint i s ∧ ¬readsNonCanonical i s ∧ ∃ d n, i = .pack d n ∧ P d n) ↔
      ∃ d n, i = .pack d n ∧ i.wellFormed = true ∧ P d n := by
  constructor
  · rintro ⟨hwf, -, -, d, n, hi, hP⟩
    exact ⟨d, n, hi, hwf, hP⟩
  · rintro ⟨d, n, rfl, hwf, hP⟩
    exact ⟨hwf, id, id, d, n, rfl, hP⟩

theorem wellFormed_pdec_iff {d : PField} {s1 : EField} : (Instr.pdec d s1).wellFormed = true ↔ d.toNat < 8 := by
  rw [← not_badFields_iff, BadFields, Nat.not_le]

/-- Settles O25: PDEC is the one command that raises this code for what it computes. -/
theorem invalidEncodingErrorExactly : Obligations.InvalidEncodingErrorExactly := by
  intro i s
  refine (exec_ended_iff i s .invalidEncoding).trans ?_
  rw [firstError_iff_dataError (by decide) (by decide) (by decide), dataError_invalidEncoding_iff]
  constructor
  · rintro ⟨hwf, -, hcan, d, s1, rfl, hno⟩
    exact ⟨d, s1, rfl, wellFormed_pdec_iff.mp hwf, Nat.not_le.mp hcan, hno⟩
  · rintro ⟨d, s1, rfl, hd, hx, hno⟩
    exact ⟨wellFormed_pdec_iff.mpr hd, id, Nat.not_le.mpr hx, d, s1, rfl, hno⟩

/-- Settles O26: only UNPACK raises these codes, the first for `V = 0` and the second for the top bit of `V`. -/
theorem unpackErrorsExactly : Obligations.UnpackErrorsExactly := by
  intro i s
  refine ⟨(exec_ended_iff i s .malformedCiphertext).trans ?_, (exec_ended_iff i s .invalidMessageLength).trans ?_⟩
  · rw [firstError_iff_dataError (by decide) (by decide) (by decide), dataError_malformedCiphertext_iff,
      unpack_operands_iff]
  · rw [firstError_iff_dataError (by decide) (by decide) (by decide), dataError_invalidMessageLength_iff,
      unpack_operands_iff]

/-- Settles O27: the length is checked last, by PACK and by UNPACK. -/
theorem noSpaceErrorExactly : Obligations.NoSpaceErrorExactly := by
  intro i s
  refine (exec_ended_iff i s .noSpace).trans ?_
  rw [firstError_iff_dataError (by decide) (by decide) (by decide), dataError_noSpace_iff,
    ← pack_operands_iff (s := s), ← unpack_operands_iff]
  simp only [and_or_left]

/-! ### What is no error: COMPL without a key -/

theorem complBody_of_noSubgroupPoint {d : EField} {s1 : SField} {s2 : EField} {s : State} (h1 : s1.toNat < 8)
    (hk : s.scalarAt s1 < block.n) (hx : s.elemAt s2.toNat < block.p)
    (hno : NoSubgroupPoint block.curve (s.elemAt s2.toNat)) : complBody block d s1 s2 s = .ok s.setNoKey := by
  have hdecode := (decodeX_eq_none_iff_noSubgroupPoint hx).mpr hno
  rw [complBody, regIndex_eq_regNo h1, ok_bind, readScalar_of_scalarAt_lt hk, ok_bind, readElem_of_elemAt_lt hx,
    ok_bind]
  simp only [hdecode, pure_eq_ok]

/-- Settles O16: the operands pass, `DecodeX` fails, and NONE is all that is written. -/
theorem complReportsNone : Obligations.ComplReportsNone := by
  intro s d s1 s2 h1 hk hx hno
  rw [exec_compl, complBody_of_noSubgroupPoint h1 hk hx hno, complete_ok]
  rfl

/-! ### Words that spell no command -/

/-- A word that decodes matches the row of its command's opcode (R95). -/
theorem decode_error_of_no_row {w : CmdWord} (h : ∀ r ∈ opcodeRows, r.spells w = false) :
    ∃ e, decode w = .error e := by
  cases hdec : decode w with
  | error e => exact ⟨e, rfl⟩
  | ok i =>
    obtain ⟨hrow, hlen⟩ := decodeFollowsMaskTable
    have hk := hlen w i hdec
    have hspells := (hrow w _ _ (List.getElem?_eq_getElem hk)).mpr ⟨i, hdec, rfl⟩
    rw [h _ (List.getElem_mem hk)] at hspells
    cases hspells

theorem engineMove_of_illegal {s : State} {w : CmdWord} {e : DecodeError} (hr : s.rstN = true)
    (hl : s.latch = some w) (hd : decode w = .error e) : engineMove s = .next (s.ended 4) := by
  simp only [engineMove, hr, if_true, hl, runWord, hd]
  rfl

/-- Settles O6: the word does not decode, and the engine refuses it before it looks at an operand. -/
theorem illegalWordRaises : Obligations.IllegalWordRaises := by
  intro s w hr hl h
  obtain ⟨e, hd⟩ := decode_error_of_no_row h
  exact engineMove_of_illegal hr hl hd

end Sys2Proof.Proofs
end

section
/-! SUPPORT. What can raise the output IRQ = CTRL.IE AND STATUS.DONE: a completion, or the host that sets CTRL.IE (R46,
R290, R296). -/

namespace Sys2Proof.Proofs

open Sys2Proof.Machine Sys2Proof.Config Sys2Proof.Laws

/-! ### The engine -/

/-- No command writes CTRL (R261). -/
theorem Wrote.ie_eq {s u : State} {i : Instr} (h : Wrote s i u) : u.ie = s.ie := by
  cases h with
  | memory hu => rw [hu]
  | counted _ hu => rw [hu]
  | scalar | decodedPoint | publicKey | noKey => rfl

/-- The step from `s` to `t` completed the latched command, and CTRL.IE is as it was (R261). -/
def Completed (s t : State) : Prop := s.busy = true ∧ t.busy = false ∧ t.done = true ∧ t.ie = s.ie

theorem engineMove_completed {s t : State} (h : engineMove s = .next t) : t.irq = s.irq ∨ Completed s t := by
  rcases engineMove_cases h with rfl | ⟨-, hw, rfl⟩ | ⟨w, i, -, hw, -, hx⟩
  · exact .inl rfl
  · exact .inr ⟨busy_eq_true_iff.mpr hw, rfl, rfl, rfl⟩
  · have hb := busy_eq_true_iff.mpr ⟨w, hw⟩
    rcases exec_wrote hx with ⟨e, rfl⟩ | ⟨d, -, -, rfl⟩ | ⟨u, rfl, hu⟩
    · exact .inr ⟨hb, rfl, rfl, rfl⟩
    · exact .inl rfl
    · exact .inr ⟨hb, rfl, rfl, hu.ie_eq⟩

/-! ### The host -/

theorem target_eq_ctrl_iff {off : Nat} : target off = .ctrl ↔ off = 0x00C := by
  by_cases h : off < 0x100
  · revert off
    decide +kernel
  · rw [target_of_ge (by omega)]
    refine iff_of_false ?_ (by omega)
    split_ifs <;> simp

theorem irq_eq_true_iff {s : State} : s.irq = true ↔ s.ie = true ∧ s.done = true := Bool.and_eq_true_iff

/-- A write of CMD_HI keeps IE, and DONE or clears it (R260). -/
theorem writeCmdHi_irq {s : State} {v : BusWord} (h : (s.writeCmdHi v).irq = true) : s.irq = true := by
  rw [writeCmdHi_eq] at h
  split at h
  · exact h
  · simp [irq_eq_true_iff] at h

/-- After a write of a target other than CTRL, IRQ is high only if it was (R61). -/
theorem writeTarget_irq {c : Params} {s : State} {v : BusWord} {x : Target} (hx : x ≠ .ctrl)
    (h : (writeTarget c s v x).irq = true) : s.irq = true := by
  cases x with
  | cmdHi => exact writeCmdHi_irq h
  | status =>
    obtain ⟨hie, hdone⟩ := irq_eq_true_iff.mp h
    exact irq_eq_true_iff.mpr ⟨hie, (Bool.and_eq_true_iff.mp hdone).1⟩
  | ctrl => exact absurd rfl hx
  | _ => exact h

theorem hostRead_irq (c : Params) (s : State) (addr size : Nat) : (hostRead c s addr size).irq = s.irq := by
  rcases hostRead_cases c s addr size with h | ⟨v, b, h, -⟩ <;> rw [h]
  rfl

/-- A host write that raises IRQ sets bit 0 of CTRL with DONE pending (R40, R46). -/
theorem hostWrite_irq {c : Params} {s : State} {addr size : Nat} {v : BusWord} (hs : s.irq = false)
    (ht : (hostWrite c s addr size v).irq = true) :
    addr = c.blockBase + 0x00C ∧ size = 4 ∧ s.done = true ∧ v.getLsbD 0 = true := by
  have hlow : ¬s.irq = true := Bool.eq_false_iff.mp hs
  rcases hostWrite_cases c s addr size v with h | ⟨-, h⟩ | ⟨off, -, haddr, hsize, -, h⟩ <;> rw [h] at ht
  · exact absurd ht hlow
  · exact absurd ht hlow
  · have hctrl : target off.toNat = .ctrl := by
      by_contra hne
      exact hlow (writeTarget_irq hne ht)
    rw [hctrl] at ht
    obtain ⟨hie, hdone⟩ := irq_eq_true_iff.mp ht
    exact ⟨target_eq_ctrl_iff.mp hctrl ▸ haddr, hsize, hdone, hie⟩

/-! ### The RNG port and reset -/

theorem rngDeliver_irq (s : State) (v : Word) : (rngDeliver s v).irq = s.irq := by
  rcases rngDeliver_cases s v with ⟨-, h⟩ | ⟨-, h⟩ <;> rw [h]
  rfl

theorem rstFall_irq {s : State} (h : s.rstFall.irq = true) : s.irq = true := by
  unfold State.rstFall at h
  split at h
  · cases h
  · exact h

/-! ### Every step -/

/-- With IRQ low, a completion that raises it found CTRL.IE set. -/
theorem engineMove_irq {s t : State} (h : engineMove s = .next t) (hs : s.irq = false) (ht : t.irq = true) :
    s.busy = true ∧ t.busy = false ∧ t.done = true ∧ s.ie = true := by
  rcases engineMove_completed h with hkept | ⟨hb, hidle, hdone, hie⟩
  · rw [hkept, hs] at ht
    cases ht
  · exact ⟨hb, hidle, hdone, hie ▸ (irq_eq_true_iff.mp ht).1⟩

/-- Settles O53: of the inputs only the engine's move and a host write of CTRL can raise IRQ. -/
theorem irqRisesOnlyByCompletionOrEnable : Obligations.IrqRisesOnlyByCompletionOrEnable := by
  intro s t h hs ht
  have hlow : ¬s.irq = true := Bool.eq_false_iff.mp hs
  rcases step_cases h with ⟨-, hm⟩ | ⟨i, r, hi, hx⟩
  · exact .inl (engineMove_irq hm hs ht)
  · rcases takeInput_cases hx with ⟨a, n, -, rfl⟩ | ⟨a, n, v, rfl, rfl⟩ | ⟨v, -, rfl⟩ | ⟨-, hm⟩ | ⟨-, rfl⟩ |
      ⟨-, rfl⟩ | ⟨-, rfl⟩
    · exact absurd ((hostRead_irq block _ a n).symm.trans ht) hlow
    · obtain ⟨rfl, rfl, hdone, hv⟩ := hostWrite_irq (s := { s with inputs := r }) hs ht
      refine .inr ⟨hdone, ?_, v, by rw [hi]; rfl, hv⟩
      exact Bool.eq_false_iff.mpr fun hie => hlow (irq_eq_true_iff.mpr ⟨hie, hdone⟩)
    · exact absurd ((rngDeliver_irq _ v).symm.trans ht) hlow
    · exact .inl (engineMove_irq (s := { s with inputs := r }) hm hs ht)
    · exact absurd (rstFall_irq ht) hlow
    · exact absurd ht hlow
    · cases ht

end Sys2Proof.Proofs
end

section
/-! SUPPORT. Every step keeps memory in its canonical form (entry 14 of the log; R325 of 70_reset_and_hazards.md). -/

namespace Sys2Proof.Proofs

open Sys2Proof.Machine Sys2Proof.Config Sys2Proof.Laws

/-! ### Memory writes -/

theorem memoryCanonical_writeE {s : State} (hs : s.MemoryCanonical) (d : EField) (v : Word) :
    (s.writeE block d.toNat v).MemoryCanonical := writeE_wf v hs d.isLt

theorem memoryCanonical_writeEs {s : State} (hs : s.MemoryCanonical) {i : Nat} {vs : List Nat}
    (hfits : i + vs.length ≤ 256) : (s.writeEs block i vs).MemoryCanonical := by
  rw [(writeEs_spec block vs s i).1]
  exact writeEs_wf block vs s i hs hfits

theorem memoryCanonical_writeBs {s : State} (hs : s.MemoryCanonical) {bytes : List Byte}
    (hfits : bytes.length ≤ 4096) : (s.writeBs block 0 bytes).MemoryCanonical := by
  rw [(writeBs_spec block bytes s 0).1]
  exact writeBs_wf block bytes s 0 hs (by omega)

/-! ### The engine -/

/-- What ENC and DEC write has the length of the sequence they read, whose range they have checked (R69). -/
theorem memoryCanonical_stream {f : Nat → Nat → Nat} {d s1 s2 : EField} {n : CountField} {s u : State}
    (hs : s.MemoryCanonical) (h : streamBody f block d s1 s2 n s = .ok u) : u.MemoryCanonical := by
  obtain ⟨-, hdst, -, m, hm, rfl⟩ := streamBody_ok h
  have hlen : m.length = n.toNat := (readElems_ok hm).1
  exact memoryCanonical_writeEs hs (by simp [keystream, hlen, hdst])

/-- Every command writes inside EMEM or inside BMEM (R69, R263). -/
theorem memoryCanonical_exec {i : Instr} {s t : State} (hs : s.MemoryCanonical) (h : exec i s = .next t) :
    t.MemoryCanonical := by
  have next_inj : ∀ {u : State}, exec i s = .next u → u = t := fun hu => Host.Outcome.next.inj (hu.symm.trans h)
  rcases exec_cases i s with ⟨e, he⟩ | ⟨u, hu, hb⟩ | ⟨d, -, -, -, hw⟩
  · obtain rfl := next_inj he
    exact hs
  · obtain rfl := next_inj hu
    change u.MemoryCanonical
    cases i with
    | nop =>
      obtain rfl := nopBody_ok hb
      exact hs
    | penc d s1 =>
      obtain ⟨j, q, -, -, rfl⟩ := pencBody_ok hb
      exact memoryCanonical_writeE hs d _
    | pdec d s1 =>
      obtain ⟨j, q, -, -, -, rfl⟩ := pdecBody_ok hb
      exact hs
    | gensk d =>
      obtain ⟨j, v, -, -, -, rfl⟩ := hb
      exact hs
    | pubkey d s1 =>
      obtain ⟨j, j', -, -, -, rfl⟩ := pubkeyBody_ok hb
      exact hs
    | init d d2 s1 s2 =>
      obtain ⟨j, j', q, -, -, -, -, -, rfl⟩ := initBody_ok hb
      exact memoryCanonical_writeE (memoryCanonical_writeE hs d _) d2 _
    | compl d s1 s2 =>
      obtain ⟨j, -, -, -, ⟨-, rfl⟩ | ⟨q, -, rfl⟩⟩ := complBody_ok hb
      · exact hs
      · exact memoryCanonical_writeE hs d _
    | commit d s1 =>
      obtain ⟨-, rfl⟩ := commitBody_ok hb
      exact memoryCanonical_writeE hs d _
    | enc d s1 s2 n => exact memoryCanonical_stream hs hb
    | dec d s1 s2 n => exact memoryCanonical_stream hs hb
    | pack d n =>
      obtain ⟨-, hfits, rfl⟩ := packBody_ok hb
      exact memoryCanonical_writeEs hs hfits
    | unpack s1 n =>
      obtain ⟨-, el, bytes, -, -, hfits, rfl⟩ := unpackBody_ok hb
      exact memoryCanonical_writeBs hs hfits
  · obtain rfl := next_inj hw
    exact hs

theorem memoryCanonical_engineMove {s t : State} (hs : s.MemoryCanonical) (h : engineMove s = .next t) :
    t.MemoryCanonical := by
  rcases engineMove_cases h with rfl | ⟨-, -, rfl⟩ | ⟨w, i, -, -, -, hx⟩
  · exact hs
  · exact hs
  · exact memoryCanonical_exec hs hx

/-! ### The host -/

/-- The memory windows begin at 0x1000, and each of their words is named by its own offset (R29). -/
theorem target_eq_memory {off a : Nat} (h : target off = .memory a) : a = off ∧ 0x1000 ≤ off := by
  have hwindow : 0x100 ≤ off := by
    by_contra hpage
    have hnone := inDataWindow_of_lt (Nat.not_le.mp hpage)
    rw [h] at hnone
    cases hnone
  rw [target_of_ge hwindow] at h
  split_ifs at h with _ _ _ hlow
  cases h
  exact ⟨rfl, Nat.not_lt.mp hlow⟩

/-- A legal write of the memory windows is of one aligned word inside them (R50, R51). -/
theorem memoryCanonical_writeTarget {s : State} (hs : s.MemoryCanonical) {off : BitVec 14}
    (halign : off.toNat % 4 = 0) (v : BusWord) : (writeTarget block s v (target off.toNat)).MemoryCanonical := by
  cases hx : target off.toNat with
  | memory a =>
    obtain ⟨rfl, hlow⟩ := target_eq_memory hx
    have hlast : off.toNat + 4 ≤ memEnd := by
      have hoff := off.isLt
      unfold memEnd
      omega
    exact writeBus_wf v hs hlow hlast
  | cmdHi =>
    rw [writeTarget, writeCmdHi_eq]
    split <;> exact hs
  | _ => exact hs

theorem memoryCanonical_hostWrite {s : State} (hs : s.MemoryCanonical) (addr size : Nat) (v : BusWord) :
    (hostWrite block s addr size v).MemoryCanonical := by
  rcases hostWrite_cases block s addr size v with h | ⟨-, h⟩ | ⟨off, -, -, -, hlegal, h⟩ <;> rw [h]
  · exact hs
  · exact hs
  · obtain ⟨-, halign, -, -, -⟩ := (classify_legal_iff _ _ _ _).mp hlegal
    exact memoryCanonical_writeTarget hs halign v

theorem memoryCanonical_hostRead {s : State} (hs : s.MemoryCanonical) (addr size : Nat) :
    (hostRead block s addr size).MemoryCanonical := by
  rcases hostRead_cases block s addr size with h | ⟨v, b, h, -⟩ <;> rw [h] <;> exact hs

/-! ### The RNG port and reset -/

theorem memoryCanonical_rngDeliver {s : State} (hs : s.MemoryCanonical) (v : Word) :
    (rngDeliver s v).MemoryCanonical := by
  rcases rngDeliver_cases s v with ⟨-, h⟩ | ⟨-, h⟩ <;> rw [h] <;> exact hs

/-- A reset leaves memory alone (R320). -/
theorem memoryCanonical_rstFall {s : State} (hs : s.MemoryCanonical) : s.rstFall.MemoryCanonical := by
  unfold State.rstFall
  split <;> exact hs

/-- After power-on no byte is listed, whatever the free contents are (entry 2). -/
theorem memoryCanonical_powerOn (s : State) : s.powerOn.MemoryCanonical :=
  ⟨List.Pairwise.nil, fun _ he => absurd he List.not_mem_nil⟩

/-! ### Every step -/

/-- Settles O59: the engine and the host write inside the two windows, and a reset writes nothing. -/
theorem memoryStaysCanonical : Obligations.MemoryStaysCanonical := by
  intro s t hs h
  rcases step_cases h with ⟨-, hm⟩ | ⟨i, r, -, hx⟩
  · exact memoryCanonical_engineMove hs hm
  · have hs' : ({ s with inputs := r } : State).MemoryCanonical := hs
    rcases takeInput_cases hx with ⟨a, n, -, rfl⟩ | ⟨a, n, v, -, rfl⟩ | ⟨v, -, rfl⟩ | ⟨-, hm⟩ | ⟨-, rfl⟩ |
      ⟨-, rfl⟩ | ⟨-, rfl⟩
    · exact memoryCanonical_hostRead hs' a n
    · exact memoryCanonical_hostWrite hs' a n v
    · exact memoryCanonical_rngDeliver hs' v
    · exact memoryCanonical_engineMove hs' hm
    · exact memoryCanonical_rstFall hs'
    · exact hs'
    · exact memoryCanonical_powerOn _

end Sys2Proof.Proofs
end

section
/-! SUPPORT. The reset action, and the block while RST_N is low (R320, R321 of 70_reset_and_hazards.md). -/

namespace Sys2Proof.Proofs

open Sys2Proof.Machine Sys2Proof.Config Sys2Proof.Laws

/-! ### RST_N goes low, and power-on -/

theorem rstFall_of_high {s : State} (hr : s.rstN = true) : s.rstFall = { s.resetAction with rstN := false } :=
  if_pos hr

theorem readS_of_zero {s : State} (h : s.sreg = Vector.replicate 8 0) (i : Fin 8) : s.readS i = 0 := by
  simp [State.readS, h]

/-- After power-on the control words are made of the same bits as in the state after reset (R53, R320). -/
theorem controlWords_powerOn (s : State) :
    s.powerOn.statusWord = 0 ∧ s.powerOn.ctrlWord = 0 ∧ s.powerOn.resultWord = 0 :=
  show State.reset.statusWord = 0 ∧ State.reset.ctrlWord = 0 ∧ State.reset.resultWord = 0 by decide

/-- Settles O54: RST_N going low takes the reset action, which power-on takes too (R320). -/
theorem resetActionClears : Obligations.ResetActionClears := by
  intro s
  obtain ⟨hstatus, hctrl, hresult⟩ := controlWords_powerOn s
  refine ⟨fun hr => ?_, s.powerOn, rfl, readP_of_empty rfl, readS_of_zero rfl, rfl, rfl, hstatus, hctrl, rfl,
    hresult, rfl, rfl⟩
  rw [step_given, takeInput, rstFall_of_high hr]
  rfl

/-! ### While RST_N is low -/

section InReset

variable {s : State} {off : Nat} (hr : s.rstN = false)
include hr

/-- A host read of the window in reset returns 0 (R321). -/
theorem hostRead_inReset (c : Params) (size : Nat) (hoff : off < 0x4000) :
    hostRead c s (c.blockBase + off) size = s.setReadData 0 := by
  rw [hostRead, portOffset_of_lt hoff]
  simp only [hr, Bool.false_eq_true, if_false]

/-- A host write in reset is ignored, wherever it lands (R321). -/
theorem hostWrite_inReset (c : Params) (addr size : Nat) (v : BusWord) : hostWrite c s addr size v = s := by
  have hlow : ¬s.rstN = true := by simp [hr]
  rcases hostWrite_cases c s addr size v with h | ⟨hhigh, -⟩ | ⟨-, hhigh, -⟩
  · exact h
  · exact absurd hhigh hlow
  · exact absurd hhigh hlow

theorem engineMove_inReset : engineMove s = .next s := by simp only [engineMove, hr, Bool.false_eq_true, if_false]

end InReset

/-- Without a request a delivered value is discarded (R45). -/
theorem rngDeliver_of_idle {s : State} (h : s.rng = .idle) (v : Word) : rngDeliver s v = s := by
  rw [rngDeliver, h]

/-- Settles O55: in reset the host and the engine are shut out, and nothing is latched or requested (R321). -/
theorem duringResetNothingActs : Obligations.DuringResetNothingActs := by
  intro s off size v r hr hs hoff
  obtain ⟨-, -, -, -, hlatch, -, -, -, hidle⟩ := hs.held hr
  simp only [step_given, takeInput]
  refine ⟨?_, ?_, ?_, engineMove_inReset hr, rfl, ?_⟩
  · exact congrArg _ (hostRead_inReset hr block size hoff)
  · exact congrArg _ (hostWrite_inReset hr block _ size v)
  · exact congrArg _ (rngDeliver_of_idle hidle r)
  · rw [State.busy, hlatch]
    rfl

end Sys2Proof.Proofs
end
